-- ==== Sys2Proof/Word.lean ====
section
/-! DEFINITION. The plain words of the engine: bytes, 32-bit register words, byte strings, algorithm ids. -/

namespace Sys2Proof

/-- A byte, 0 to 255 (00_scope.md R11: "All data are byte strings"). -/
abbrev Byte := BitVec 8

/-- A 32-bit register or command word (10_state.md R29, 30_encoding.md R70). -/
abbrev Word := BitVec 32

/-- A byte string in stream order, byte 0 first (00_scope.md R11, 20_memory.md R54). -/
abbrev Bytes := List Byte

/-- A 4-bit algorithm id (00_scope.md R6, the register ALG of 10_state.md R20). -/
abbrev AlgId := BitVec 4

end Sys2Proof
end

