-- ==== Sys2Proof/Config.lean ====
section
/-! DEFINITION. What an implementation fixes (00_scope.md R6, R7: the instance's parameters) and the free values: the Block Primitive and the random source, opaque constants with no body (10_state.md R33 to R37). -/

namespace Sys2Proof

/-- An algorithm descriptor: the block size in bytes and the accepted key lengths in bytes (00_scope.md R6). -/
structure AlgDesc where
  blockSize : Nat
  keyLens   : List Nat
  deriving DecidableEq, Repr

/-- `ALG_TABLE`: a descriptor for each algorithm id it names (00_scope.md R6). -/
abbrev AlgTable := List (AlgId × AlgDesc)

/-- The parameters of an instance, "fixed for an instance and never written by a command" (00_scope.md R6, 10_state.md R41). Widths in bytes, `lenW` in bits. -/
structure Params where
  algTable : AlgTable
  bsMax    : Nat
  keyMax   : Nat
  lenW     : Nat
  deriving DecidableEq, Repr

/-- The descriptor `A128` of the default instance (00_scope.md R6, decision D3). -/
def AlgDesc.a128 : AlgDesc := { blockSize := 16, keyLens := [16] }

/-- The default instance (00_scope.md R6, decisions D1 and D3). -/
def Params.defaultInstance : Params :=
  { algTable := [(0, AlgDesc.a128)], bsMax := 16, keyMax := 32, lenW := 32 }

/-- A descriptor an instance may hold: the block size is one of R7's eight powers of two and fits `BS_MAX`; every accepted key length fits `KEY_MAX` (00_scope.md R6, R7) and is not 0 (43_context_and_binding.md R136: "`KEY_LEN = 0` …: no descriptor accepts them"; DEDUCED, log 7). -/
def AlgDesc.wf (p : Params) (d : AlgDesc) : Bool :=
  [1, 2, 4, 8, 16, 32, 64, 128].contains d.blockSize && decide (d.blockSize ≤ p.bsMax) &&
    d.keyLens.all (fun k => decide (0 < k) && decide (k ≤ p.keyMax))

/-- The parameters are well formed (93_implementation_defined.md U13): every descriptor is, and no id is named twice. -/
def Params.wf (p : Params) : Bool :=
  p.algTable.all (fun e => e.2.wf p) && decide (p.algTable.map (·.1)).Nodup

/-- The Block Primitive as the engine sees it: two functions of the bound key (ALG and the key bytes) and one block (10_state.md R33, decision D5). -/
structure Prim where
  enc : AlgId → Bytes → Bytes → Bytes
  dec : AlgId → Bytes → Bytes → Bytes

/-- FREE VALUE: byte `i` of `E(K, X)`, as a function of ALG, the key bytes and the block (10_state.md R34, R36; log 3). -/
opaque Config.encryptByte : AlgId → Bytes → Bytes → Nat → Byte

/-- FREE VALUE: byte `i` of `D(K, Y)`, as a function of ALG, the key bytes and the block (10_state.md R34, R36; log 3). -/
opaque Config.decryptByte : AlgId → Bytes → Bytes → Nat → Byte

/-- FREE VALUE: byte `i` of the answer to the random source's draw number `n` (10_state.md R37, decision D6; log 4). -/
opaque Config.drawByte : Nat → Nat → Byte

/-- The external Block Primitive. Each function maps a string of any length to one of the same length, so `B` bytes to `B` bytes (10_state.md R33); nothing else is known of it here. -/
def Config.blackbox : Prim where
  enc a k x := (List.range x.length).map (Config.encryptByte a k x)
  dec a k y := (List.range y.length).map (Config.decryptByte a k y)

/-- The answer to draw number `n`: `len` bytes under no law (10_state.md R37). -/
def Config.draw (n len : Nat) : Bytes := (List.range len).map (Config.drawByte n)

end Sys2Proof
end

