-- ==== Sys2Proof/Syntax.lean ====
section
/-! DEFINITION. The commands of the engine, one constructor per row of opcode_table.json (30_encoding.md R73). -/

namespace Sys2Proof

/-- The two modes, "a closed tagged-variant" (00_scope.md R2): Chained-Padded and Counter. -/
inductive Mode where
  | cp
  | ctr
  deriving DecidableEq, Repr

/-- A command with the operands its word carries (30_encoding.md R71, R72): the ALG field of format K, the MODE field of format M. Every other operand is a register at the moment CMD is written. -/
inductive Instr where
  /-- BINDKEY, opcode 0x1, format K. -/
  | bindkey (alg : AlgId)
  /-- BEGINENC, opcode 0x2, format M. -/
  | beginenc (mode : Mode)
  /-- BEGINENCX, opcode 0x3, format M. -/
  | beginencx (mode : Mode)
  /-- BEGINDEC, opcode 0x4, format M. -/
  | begindec (mode : Mode)
  /-- UPDATE, opcode 0x5, format P. -/
  | update
  /-- FINISH, opcode 0x6, format P. -/
  | finish
  /-- RESET, opcode 0x7, format P. -/
  | reset
  deriving DecidableEq, Repr

end Sys2Proof
end

