-- ==== Sys2Proof/WellFormed.lean ====
section
/-! DEFINITION. Which commands have a legal word: the check the types leave open is R74's last clause. -/

namespace Sys2Proof

/-- A command is well formed under a table when BINDKEY's ALG is an id of it (30_encoding.md R74: "the command is BINDKEY and `ALG` is not an id of `ALG_TABLE`" is illegal). MODE and ALG cannot leave their fields by their types. -/
def Instr.wf (t : AlgTable) : Instr → Bool
  | .bindkey a => (t.lookup a).isSome
  | .beginenc _ => true
  | .beginencx _ => true
  | .begindec _ => true
  | .update => true
  | .finish => true
  | .reset => true

end Sys2Proof
end

