-- ==== Sys2Proof/Decode.lean ====
section
/-! DEFINITION. The command word (30_encoding.md R70 to R75): the decoder, total and rejecting by name, and the encoder written from the same table. -/

namespace Sys2Proof

/-- Why a word is no command (30_encoding.md R74). All five end in the one error IllegalCommand. -/
inductive Illegal where
  /-- A reserved bit, `[7:5]` or `[31:12]`, is 1. -/
  | reservedBit
  /-- `OP` is 0x0 or 0x8 to 0xF. -/
  | reservedOpcode
  /-- `MODE` is 1 in a command of format K or P. -/
  | modeNotAllowed
  /-- `ALG` is non-zero in a command of format M or P. -/
  | algNotAllowed
  /-- BINDKEY with an `ALG` that is not an id of `ALG_TABLE`. -/
  | unknownAlg
  deriving DecidableEq, Repr

/-- Field `OP`, bits `[3:0]` (30_encoding.md R70). -/
def opField (w : Word) : BitVec 4 := w.extractLsb' 0 4

/-- Field `MODE`, bit `[4]`. -/
def modeField (w : Word) : BitVec 1 := w.extractLsb' 4 1

/-- Reserved bits `[7:5]`. -/
def reservedLow (w : Word) : BitVec 3 := w.extractLsb' 5 3

/-- Field `ALG`, bits `[11:8]`. -/
def algField (w : Word) : AlgId := w.extractLsb' 8 4

/-- Reserved bits `[31:12]`. -/
def reservedHigh (w : Word) : BitVec 20 := w.extractLsb' 12 20

/-- The mode a MODE bit names: 0 = CP, 1 = CTR (30_encoding.md R70, R76). -/
def modeOfBit (b : BitVec 1) : Mode := if b = 0 then .cp else .ctr

/-- The MODE bit of a mode (30_encoding.md R76). -/
def Mode.bit : Mode → BitVec 1
  | .cp => 0
  | .ctr => 1

/-- Format K: OP and ALG (30_encoding.md R71); the id must be one of the table's (R74). -/
def decodeK (t : AlgTable) (w : Word) (mk : AlgId → Instr) : Except Illegal Instr :=
  if modeField w ≠ 0 then .error .modeNotAllowed
  else if (t.lookup (algField w)).isSome then .ok (mk (algField w))
  else .error .unknownAlg

/-- Format M: OP and MODE (30_encoding.md R71). -/
def decodeM (w : Word) (mk : Mode → Instr) : Except Illegal Instr :=
  if algField w ≠ 0 then .error .algNotAllowed
  else .ok (mk (modeOfBit (modeField w)))

/-- Format P: OP alone (30_encoding.md R71). -/
def decodeP (w : Word) (i : Instr) : Except Illegal Instr :=
  if modeField w ≠ 0 then .error .modeNotAllowed
  else if algField w ≠ 0 then .error .algNotAllowed
  else .ok i

/-- The decoder: the opcode map of 30_encoding.md R73, every word R74 calls illegal rejected by name. It looks at the word and the table alone, so it is the same in every phase (R75). -/
def decode (t : AlgTable) (w : Word) : Except Illegal Instr :=
  if reservedLow w ≠ 0 ∨ reservedHigh w ≠ 0 then .error .reservedBit
  else match (opField w).toNat with
    | 1 => decodeK t w .bindkey
    | 2 => decodeM w .beginenc
    | 3 => decodeM w .beginencx
    | 4 => decodeM w .begindec
    | 5 => decodeP w .update
    | 6 => decodeP w .finish
    | 7 => decodeP w .reset
    | _ => .error .reservedOpcode

/-- A command word from its fields, the reserved bits 0 (30_encoding.md R70). -/
def assemble (alg : AlgId) (mode : BitVec 1) (op : BitVec 4) : Word :=
  (0 : BitVec 20) ++ alg ++ (0 : BitVec 3) ++ mode ++ op

/-- The encoder, from the opcode map of 30_encoding.md R73. -/
def encode : Instr → Word
  | .bindkey a => assemble a 0 1
  | .beginenc m => assemble 0 m.bit 2
  | .beginencx m => assemble 0 m.bit 3
  | .begindec m => assemble 0 m.bit 4
  | .update => assemble 0 0 5
  | .finish => assemble 0 0 6
  | .reset => assemble 0 0 7

/-- What the decoder of the default instance (00_scope.md R6) reads from the low `nbits` bits of `w`, the bits above being 0; `none` where it refuses. -/
def decodeTableWord (nbits w : Nat) : Option Instr :=
  match decode Params.defaultInstance.algTable (BitVec.ofNat 32 (w % 2 ^ nbits)) with
  | .ok i => some i
  | .error _ => none

end Sys2Proof
end

