-- ==== Sys2Proof/Machine/State.lean ====
section
/-! DEFINITION. The state of one engine (10_state.md R20), the caller's two data spaces (20_memory.md R50), what the host still does, and the state right after reset (R40). -/

namespace Sys2Proof.Machine

/-- The lifecycle register PHASE (10_state.md R26). -/
inductive Phase where
  | idle
  | keyed
  | active
  | done
  deriving DecidableEq, Repr

/-- The direction DIR of a session (10_state.md R20): 0 = ENC, 1 = DEC. -/
inductive Dir where
  | enc
  | dec
  deriving DecidableEq, Repr

/-- The result codes of STATUS.ERR (60_exceptions.md R165). -/
inductive Err where
  | ok
  | invalidKeyLength
  | invalidContextLength
  | bufferTooSmall
  | badPadding
  | engineMisuse
  | illegalCommand
  deriving DecidableEq, Repr

/-- A data space: bytes by index from 0 (20_memory.md R50), as index and byte pairs, indexes strictly rising; an index not listed holds no byte (log 5). -/
abbrev Memory := List Host.Cell

/-- Where the host has placed the buffers of the next commands, as far as 20_memory.md R57 cares: whether IN and OUT overlap, and whether either overlaps the engine's registers. -/
structure Placement where
  inOverOut  : Bool
  inOverRegs  : Bool
  outOverRegs : Bool
  deriving DecidableEq, Repr

/-- One action of the host (20_memory.md R56, R60; 70_reset_and_hazards.md R190, R192). -/
inductive HostOp where
  /-- Write `value` to register number `reg`; register 0x00 is CMD, whose write runs a command. -/
  | write (reg : Nat) (value : Word)
  /-- Read register number `reg`; the value comes back in `State.rdata`. -/
  | read (reg : Nat)
  /-- Lend an input slice with these bytes. -/
  | lendIn (bytes : Bytes)
  /-- Lend an output buffer with these contents. -/
  | lendOut (bytes : Bytes)
  /-- Say how the storage of the buffers overlaps. -/
  | place (p : Placement)
  /-- Drive the platform's reset input. -/
  | resetInput
  deriving DecidableEq, Repr

/-- Why the machine stops with a fault. -/
inductive Fault where
  /-- Raised by UPDATE, when every check of 40_engine.md R90 has passed and a byte of `IN[0..IN_LEN)` was never lent by the host (20_memory.md R51; log 5). Safe: the model stops where the hardware would go on with a byte nothing gives. -/
  | inputNotLent
  deriving DecidableEq, Repr

/-- Why the model gives a situation no meaning. -/
inductive Refusal where
  /-- Raised by exec's arm of a command that has no meaning yet. Safe. -/
  | notModelled (mnemonic : String)
  /-- Raised by UPDATE when IN and OUT overlap or either overlaps the registers, and by FINISH when OUT overlaps the registers: "outside the specification: a model refuses it" (20_memory.md R57, D8). Safe. -/
  | overlappingBuffers
  /-- Raised by step when the instance's parameters are ill formed: "refuse the instance" (93_implementation_defined.md U13). Safe. -/
  | illFormedInstance
  /-- Raised by a one-shot pseudo-operation whose message does not fit the length registers: it "cannot be processed in one shot" (44_oneshot.md R157). Safe. -/
  | messageTooLong
  deriving DecidableEq, Repr

/-- Everything the spec gives the machine. -/
structure State where
  /-- The instance's parameters; no step writes them (10_state.md R41). -/
  params : Params
  /-- `PHASE` (R26). -/
  phase : Phase
  /-- `ALG` (R23). -/
  alg : AlgId
  /-- `MODE` (R27). -/
  mode : Mode
  /-- `DIR` (R27). -/
  dir : Dir
  /-- `KEY`: the bytes `KEY.bytes[0..KEY.len)`; its length is `KEY.len` (R21). -/
  key : Bytes
  /-- `CTX0`: `BS_MAX` bytes, `B` used (R22). -/
  ctx0 : Bytes
  /-- `CHAIN`: `BS_MAX` bytes, `B` used (R25). -/
  chain : Bytes
  /-- `BUF`: `BS_MAX` bytes, `BUF[0..OCC)` meaningful (R24). -/
  buf : Bytes
  /-- `OCC` (R24). -/
  occ : Nat
  /-- `STATUS.ERR` (R28). -/
  err : Err
  /-- `STATUS.CTXV` (R28). -/
  ctxv : Bool
  /-- `OUT_LEN` (R29). -/
  outLen : Nat
  /-- `IN_LEN` (R29). -/
  inLen : Nat
  /-- `OUT_CAP` (R29). -/
  outCap : Nat
  /-- `KEY_LEN` (R29). -/
  keyLen : Nat
  /-- `CTX_LEN` (R29). -/
  ctxLen : Nat
  /-- `KEY_IN`: `KEY_MAX` bytes (R29). -/
  keyIn : Bytes
  /-- `CTX_IN`: `BS_MAX` bytes (R29). -/
  ctxIn : Bytes
  /-- `IN`, the input slice the caller has lent (20_memory.md R51). -/
  inp : Memory
  /-- `OUT`, the output buffer the caller has lent (20_memory.md R52). -/
  out : Memory
  /-- How the lent buffers lie (20_memory.md R57). The model's own field. -/
  placement : Placement
  /-- What the host still does, next action first. The model's own field (log 1). -/
  host : List HostOp
  /-- What the host's last register read returned. The model's own field (log 12). -/
  rdata : Word
  /-- How many draws the random source has answered. The model's own field (log 4). -/
  draws : Nat
  deriving DecidableEq, Repr

/-- Buffers that overlap nothing. -/
def Placement.disjoint : Placement :=
  { inOverOut := false, inOverRegs := false, outOverRegs := false }

/-- The state of an instance right after reset: every register at the value of 10_state.md R40, nothing lent and no host action waiting. -/
def State.atReset (p : Params) : State where
  params := p
  phase := .idle
  alg := 0
  mode := .cp
  dir := .enc
  key := []
  ctx0 := List.replicate p.bsMax 0
  chain := List.replicate p.bsMax 0
  buf := List.replicate p.bsMax 0
  occ := 0
  err := .ok
  ctxv := false
  outLen := 0
  inLen := 0
  outCap := 0
  keyLen := 0
  ctxLen := 0
  keyIn := List.replicate p.keyMax 0
  ctxIn := List.replicate p.bsMax 0
  inp := []
  out := []
  placement := .disjoint
  host := []
  rdata := 0
  draws := 0

/-- The default instance (00_scope.md R6) right after reset (10_state.md R40). -/
def State.reset : State := State.atReset Params.defaultInstance

end Sys2Proof.Machine
end

