-- ==== Sys2Proof/Machine/Bytes.lean ====
section
/-! DEFINITION. The byte-string notation of 00_scope.md R11, and how a byte string lies in a register of fixed width and in a window of 32-bit registers (10_state.md R30). -/

namespace Sys2Proof.Machine

/-- `rep(v, n)`: `n` bytes each of value `v` (R11). -/
def rep (v : Byte) (n : Nat) : Bytes := List.replicate n v

/-- `xor(s, t)`: bytewise exclusive or (R11; 40_engine.md R105 (4)). -/
def xorBytes (s t : Bytes) : Bytes := List.zipWith (fun a b => a ^^^ b) s t

/-- `be2int(s)`: the unsigned integer whose most significant byte is `s[0]` (R11). -/
def be2int : Bytes → Nat
  | [] => 0
  | b :: s => b.toNat * 256 ^ s.length + be2int s

/-- `int2be(v, n)`: the `n`-byte string whose value is `v` modulo `256^n` (R11). -/
def int2be (v : Nat) : Nat → Bytes
  | 0 => []
  | n + 1 => BitVec.ofNat 8 (v / 256 ^ n) :: int2be v n

/-- The byte string `s` in a register `n` bytes wide: `s` first, zeros behind it (log 11). -/
def padTo (n : Nat) (s : Bytes) : Bytes := s.take n ++ rep 0 (n - s.length)

/-- `REG[0..len(v)) <- v`: the first bytes of the register are replaced, the bytes behind them stay (the slice assignment of 40_engine.md R90). -/
def splice (reg v : Bytes) : Bytes := v ++ reg.drop v.length

/-- Byte `i` of a string, 0 beyond its end. -/
def byteAt (s : Bytes) (i : Nat) : Byte := s.getD i 0

/-- Word `k` of a byte window: byte `i` of the string in register `i div 4`, bits `[8·(i mod 4) + 7 : 8·(i mod 4)]` (10_state.md R30). -/
def windowWord (s : Bytes) (k : Nat) : Word :=
  byteAt s (4 * k + 3) ++ byteAt s (4 * k + 2) ++ byteAt s (4 * k + 1) ++ byteAt s (4 * k)

/-- The bytes from index `i` on of a byte window after the word `v` is written to its register `k` (10_state.md R30). -/
def setWindowFrom (k : Nat) (v : Word) : Nat → Bytes → Bytes
  | _, [] => []
  | i, b :: s => (if i / 4 = k then v.extractLsb' (8 * (i % 4)) 8 else b) :: setWindowFrom k v (i + 1) s

/-- A byte window after the word `v` is written to its register `k`: bytes `4k` to `4k + 3` that the window has are replaced, the others stay (10_state.md R30). -/
def setWindow (s : Bytes) (k : Nat) (v : Word) : Bytes := setWindowFrom k v 0 s

end Sys2Proof.Machine
end

