-- ==== Sys2Proof/Machine/Ops.lean ====
section
/-! DEFINITION. The named operations over the data spaces and the registers: byte reads and writes, the block size, `raise` (the engine's whole trap entry, 60_exceptions.md R170), opening a session, the reset of every register. -/

namespace Sys2Proof.Machine

/-- The canonical form of a data space: indexes strictly rising. -/
def Memory.wf : Memory → Bool
  | [] => true
  | [_] => true
  | (a, _) :: (b, y) :: m => decide (a < b) && Memory.wf ((b, y) :: m)

/-- The byte at index `i`, if there is one. -/
def Memory.read : Memory → Nat → Option Byte
  | [], _ => none
  | (a, b) :: m, i => if i = a then some b else Memory.read m i

/-- Byte `v` at index `i`, every other index as before. -/
def Memory.write : Memory → Nat → Byte → Memory
  | [], i, v => [(i, v)]
  | (a, b) :: m, i, v =>
    if i < a then (i, v) :: (a, b) :: m
    else if i = a then (i, v) :: m
    else (a, b) :: Memory.write m i v

/-- `MemRead(S, off, n)` (00_scope.md R11): the `n` bytes from `off` on, in increasing index order, if all are there. -/
def Memory.readBytes (m : Memory) (off : Nat) : Nat → Option Bytes
  | 0 => some []
  | n + 1 =>
    match Memory.read m off, Memory.readBytes m (off + 1) n with
    | some b, some s => some (b :: s)
    | _, _ => none

/-- `MemWrite(S, off, len(v), v)` (00_scope.md R11): the bytes of `v` from `off` on, in increasing index order. -/
def Memory.writeBytes (m : Memory) (off : Nat) : Bytes → Memory
  | [] => m
  | b :: s => Memory.writeBytes (Memory.write m off b) (off + 1) s

/-- A data space holding exactly these bytes, index 0 first. -/
def Memory.ofBytes (s : Bytes) : Memory := Memory.writeBytes [] 0 s

/-- The descriptor `ALG` selects (10_state.md R23). -/
def State.desc (s : State) : Option AlgDesc := s.params.algTable.lookup s.alg

/-- `B`, the block size of the algorithm of the bound key (00_scope.md R8, 10_state.md R23); 0 where `ALG` names no descriptor. -/
def State.blockSize (s : State) : Nat :=
  match s.desc with
  | some d => d.blockSize
  | none => 0

/-- The chaining state: the `B` used bytes of `CHAIN` (10_state.md R25). -/
def State.chainUsed (s : State) : Bytes := s.chain.take s.blockSize

/-- The retained bytes `BUF[0..OCC)` (10_state.md R24). -/
def State.retained (s : State) : Bytes := s.buf.take s.occ

/-- `raise <Error>` (60_exceptions.md R170): ERR takes the code, OUT_LEN is 0, and nothing else changes. -/
def raise (e : Err) (s : State) : State := { s with err := e, outLen := 0 }

/-- `Open(m, d, c)`, the common action of the three BEGIN commands (43_context_and_binding.md R139). -/
def openSession (m : Mode) (d : Dir) (c : Bytes) (s : State) : State :=
  { s with
    mode := m
    dir := d
    ctx0 := padTo s.params.bsMax c
    chain := padTo s.params.bsMax c
    buf := rep 0 s.params.bsMax
    occ := 0
    ctxv := decide (d = .enc)
    phase := .active
    outLen := 0
    err := .ok }

/-- Every register at its reset value (10_state.md R40), by the reset input or the RESET command alike (70_reset_and_hazards.md R190). The caller's buffers, the instance's parameters and the random source are not touched (R191); nor are the host's own actions and read data (log 12). -/
def resetRegisters (s : State) : State :=
  { State.atReset s.params with
    inp := s.inp
    out := s.out
    placement := s.placement
    host := s.host
    rdata := s.rdata
    draws := s.draws }

end Sys2Proof.Machine
end

