-- ==== Sys2Proof/Machine/Control.lean ====
section
/-! DEFINITION. RESET (43_context_and_binding.md R146). -/

namespace Sys2Proof.Machine

/-- RESET: every register to its reset value, in every phase (43_context_and_binding.md R146, 70_reset_and_hazards.md R190). -/
def execReset (s : State) : Host.Outcome State Fault Refusal := .next (resetRegisters s)

end Sys2Proof.Machine
end

