-- ==== Sys2Proof/Machine/Operands.lean ====
section
/-! DEFINITION. The byte strings the commands form from their operands (30_encoding.md R72), and the buffers they need apart (20_memory.md R57). -/

namespace Sys2Proof.Machine

/-- BINDKEY's `key = KEY_IN[0..min(KEY_LEN, KEY_MAX))` (R72). -/
def keyOperand (s : State) : Bytes := s.keyIn.take s.keyLen

/-- BEGINENCX's and BEGINDEC's `ctx = CTX_IN[0..B)`, used only if `CTX_LEN = B` (R72). -/
def ctxOperand (s : State) : Bytes := s.ctxIn.take s.blockSize

/-- UPDATE's `in = IN[0..IN_LEN)` (R72), read front to back (20_memory.md R51); `none` where the host lent fewer bytes. -/
def inOperand (s : State) : Option Bytes := Memory.readBytes s.inp 0 s.inLen

/-- The buffers UPDATE uses lie apart (20_memory.md R57). -/
def Placement.apartForUpdate (p : Placement) : Bool :=
  !p.inOverOut && !p.inOverRegs && !p.outOverRegs

/-- The buffer FINISH uses lies apart: it takes no IN (20_memory.md R51, R57). -/
def Placement.apartForFinish (p : Placement) : Bool := !p.outOverRegs

end Sys2Proof.Machine
end

