-- ==== Sys2Proof/Machine/Flags.lean ====
section
/-! DEFINITION. The result codes and the read-only words the host sees: STATUS, INFO, CTX_OUT (10_state.md R28, R31, R32). -/

namespace Sys2Proof.Machine

/-- The code of a result (60_exceptions.md R165). -/
def Err.code : Err → BitVec 4
  | .ok => 0
  | .invalidKeyLength => 1
  | .invalidContextLength => 2
  | .bufferTooSmall => 3
  | .badPadding => 4
  | .engineMisuse => 5
  | .illegalCommand => 6

/-- The value of PHASE (10_state.md R26). -/
def Phase.code : Phase → BitVec 2
  | .idle => 0
  | .keyed => 1
  | .active => 2
  | .done => 3

/-- The value of DIR (30_encoding.md R76). -/
def Dir.bit : Dir → BitVec 1
  | .enc => 0
  | .dec => 1

/-- `STATUS`: `[3:0] ERR`, `[4] CTXV`, `[31:5]` read 0 (10_state.md R28, R29). -/
def statusWord (s : State) : Word :=
  (0 : BitVec 27) ++ (if s.ctxv then (1 : BitVec 1) else 0) ++ s.err.code

/-- `INFO.BLOCK_SIZE`: `B` when `PHASE ≠ IDLE`, else 0 (10_state.md R31). -/
def infoBlockSize (s : State) : BitVec 8 :=
  if s.phase = .idle then 0 else BitVec.ofNat 8 s.blockSize

/-- `INFO.ALG`: `ALG` when `PHASE ≠ IDLE`, else 0 (10_state.md R31). -/
def infoAlg (s : State) : AlgId := if s.phase = .idle then 0 else s.alg

/-- INFO describes a session in phases ACTIVE and DONE (10_state.md R31). -/
def Phase.hasSession : Phase → Bool
  | .idle => false
  | .keyed => false
  | .active => true
  | .done => true

/-- `INFO.MODE`: `MODE` in phases ACTIVE and DONE, else 0 (10_state.md R31). -/
def infoMode (s : State) : BitVec 1 := if s.phase.hasSession then s.mode.bit else 0

/-- `INFO.DIR`: `DIR` in phases ACTIVE and DONE, else 0 (10_state.md R31). -/
def infoDir (s : State) : BitVec 1 := if s.phase.hasSession then s.dir.bit else 0

/-- `INFO`, the accessors' register (10_state.md R31, 40_engine.md R99): `[7:0] BLOCK_SIZE`, `[11:8] ALG`, `[12] MODE`, `[13] DIR`, `[15:14] PHASE`, `[31:16]` read 0 (R29). -/
def infoWord (s : State) : Word :=
  (0 : BitVec 16) ++ s.phase.code ++ infoDir s ++ infoMode s ++ infoAlg s ++ infoBlockSize s

/-- `CTX_OUT` as a byte string (10_state.md R32): the initial Context of an encryption session, or zeros. -/
def ctxOut (s : State) : Bytes :=
  if s.ctxv then s.ctx0.take s.blockSize ++ rep 0 (s.params.bsMax - s.blockSize)
  else rep 0 s.params.bsMax

end Sys2Proof.Machine
end

