-- ==== Sys2Proof/Machine/Modes.lean ====
section
/-! DEFINITION. The chaining-state machine: the block step of each mode and direction (40_engine.md R94) and the end-of-stream function (R96), on byte strings. `E` and `D` stand for the Block Primitive under the bound key (10_state.md R33). -/

namespace Sys2Proof.Machine

/-- `BlockStep`, mode CP, direction ENC (41_chained_padded.md R110): the output block and the next chaining state. -/
def cpEncStep (E : Bytes → Bytes) (chain x : Bytes) : Bytes × Bytes :=
  (E (xorBytes x chain), E (xorBytes x chain))

/-- `BlockStep`, mode CP, direction DEC (41_chained_padded.md R111): the next chaining state is the ciphertext block just consumed. -/
def cpDecStep (D : Bytes → Bytes) (chain x : Bytes) : Bytes × Bytes :=
  (xorBytes (D x) chain, x)

/-- `Inc(c)` (42_counter.md R126): the whole block as one big-endian integer, plus one, modulo `256^B`, wrapping silently. -/
def incCounter (c : Bytes) : Bytes := int2be ((be2int c + 1) % 256 ^ c.length) c.length

/-- `BlockStep`, mode CTR, either direction (42_counter.md R125). -/
def ctrStep (E : Bytes → Bytes) (chain x : Bytes) : Bytes × Bytes :=
  (xorBytes x (E chain), incCounter chain)

/-- `BlockStep(X)`: selected by the session's tags (40_engine.md R94). -/
def blockStep (E D : Bytes → Bytes) (m : Mode) (d : Dir) (chain x : Bytes) : Bytes × Bytes :=
  match m, d with
  | .cp, .enc => cpEncStep E chain x
  | .cp, .dec => cpDecStep D chain x
  | .ctr, .enc => ctrStep E chain x
  | .ctr, .dec => ctrStep E chain x

/-- The loop of UPDATE (40_engine.md R90, R91): `nb` blocks of `bs` bytes from the front of `t`, in increasing order, each with the chaining state the previous one left. The output run and the last chaining state. -/
def blockLoop (E D : Bytes → Bytes) (m : Mode) (d : Dir) (bs : Nat) : Nat → Bytes → Bytes → Bytes × Bytes
  | 0, chain, _ => ([], chain)
  | nb + 1, chain, t =>
    ((blockStep E D m d chain (t.take bs)).1 ++
        (blockLoop E D m d bs nb (blockStep E D m d chain (t.take bs)).2 (t.drop bs)).1,
      (blockLoop E D m d bs nb (blockStep E D m d chain (t.take bs)).2 (t.drop bs)).2)

/-- How many blocks UPDATE processes of a working string of `t` bytes (40_engine.md R90): in mode CP direction DEC a block only if at least one more byte follows it (R92). -/
def blockCount (m : Mode) (d : Dir) (bs t : Nat) : Nat :=
  match m, d with
  | .cp, .dec => if t = 0 then 0 else (t - 1) / bs
  | .cp, .enc => t / bs
  | .ctr, .enc => t / bs
  | .ctr, .dec => t / bs

/-- The padded last block (41_chained_padded.md R112): `p = B - OCC` bytes of value `p`. -/
def padBlock (bs : Nat) (tail : Bytes) : Bytes :=
  tail ++ rep (BitVec.ofNat 8 (bs - tail.length)) (bs - tail.length)

/-- `FinishMode`, mode CP, direction ENC: padding insertion (41_chained_padded.md R112). -/
def finishCpEnc (E : Bytes → Bytes) (bs : Nat) (chain tail : Bytes) : Bytes :=
  E (xorBytes (padBlock bs tail) chain)

/-- The strict padding check (41_chained_padded.md R113, R115): the count is the last byte, lies in 1 to `B`, and each of the last `count` bytes equals it. -/
def padOk (bs : Nat) (x : Bytes) : Bool :=
  decide (1 ≤ (byteAt x (bs - 1)).toNat) && decide ((byteAt x (bs - 1)).toNat ≤ bs) &&
    (x.drop (bs - (byteAt x (bs - 1)).toNat)).all (fun b => b == byteAt x (bs - 1))

/-- `FinishMode`, mode CP, direction DEC: padding check and removal (41_chained_padded.md R113, R114). -/
def finishCpDec (D : Bytes → Bytes) (bs : Nat) (chain tail : Bytes) : Except Err Bytes :=
  if tail.length ≠ bs then .error .badPadding
  else if padOk bs (xorBytes (D tail) chain) then
    .ok ((xorBytes (D tail) chain).take (bs - (byteAt (xorBytes (D tail) chain) (bs - 1)).toNat))
  else .error .badPadding

/-- `FinishMode`, mode CTR, either direction: the partial tail against the first bytes of the next keystream block (42_counter.md R127). -/
def finishCtr (E : Bytes → Bytes) (chain tail : Bytes) : Bytes :=
  if tail.length = 0 then [] else xorBytes tail ((E chain).take tail.length)

/-- `FinishMode()` (40_engine.md R96): the bytes FINISH emits, or BadPadding. -/
def finishMode (E D : Bytes → Bytes) (m : Mode) (d : Dir) (bs : Nat) (chain tail : Bytes) : Except Err Bytes :=
  match m, d with
  | .cp, .enc => .ok (finishCpEnc E bs chain tail)
  | .cp, .dec => finishCpDec D bs chain tail
  | .ctr, .enc => .ok (finishCtr E chain tail)
  | .ctr, .dec => .ok (finishCtr E chain tail)

end Sys2Proof.Machine
end

