-- ==== Sys2Proof/Machine/Data.lean ====
section
/-! DEFINITION. The buffering controller: UPDATE and FINISH (40_engine.md R90 to R98). -/

namespace Sys2Proof.Machine

/-- `E(K, ·)` under the key bound in `s` (10_state.md R33). -/
def State.encryptBlock (P : Prim) (s : State) : Bytes → Bytes := P.enc s.alg s.key

/-- `D(K, ·)` under the key bound in `s` (10_state.md R33). -/
def State.decryptBlock (P : Prim) (s : State) : Bytes → Bytes := P.dec s.alg s.key

/-- The working string `T` of UPDATE: the retained bytes, then the chunk (40_engine.md R91). -/
def workString (s : State) (chunk : Bytes) : Bytes := s.retained ++ chunk

/-- `nb` of UPDATE (40_engine.md R90, R92). -/
def updateBlocks (s : State) (chunk : Bytes) : Nat :=
  blockCount s.mode s.dir s.blockSize (workString s chunk).length

/-- The output run and the chaining state UPDATE leaves (40_engine.md R90). -/
def updateRun (P : Prim) (s : State) (chunk : Bytes) : Bytes × Bytes :=
  blockLoop (s.encryptBlock P) (s.decryptBlock P) s.mode s.dir s.blockSize (updateBlocks s chunk)
    s.chainUsed (workString s chunk)

/-- What UPDATE retains of its working string (40_engine.md R90). -/
def updateRest (s : State) (chunk : Bytes) : Bytes :=
  (workString s chunk).drop (updateBlocks s chunk * s.blockSize)

/-- The state after UPDATE has accepted a chunk (40_engine.md R90): the run at `OUT[0..]`, the rest in BUF. Only the used bytes of CHAIN and the retained bytes of BUF are written (log 11). -/
def acceptChunk (P : Prim) (chunk : Bytes) (s : State) : State :=
  { s with
    out := Memory.writeBytes s.out 0 (updateRun P s chunk).1
    chain := splice s.chain (updateRun P s chunk).2
    buf := splice s.buf (updateRest s chunk)
    occ := (updateRest s chunk).length
    outLen := updateBlocks s chunk * s.blockSize
    err := .ok }

/-- UPDATE with the Block Primitive as an argument (40_engine.md R90): the phase, then the documented capacity (R93), then the chunk is read and processed. -/
def updateWith (P : Prim) (s : State) : Host.Outcome State Fault Refusal :=
  if s.placement.apartForUpdate = false then .refused .overlappingBuffers
  else if s.phase ≠ .active then .next (raise .engineMisuse s)
  else if s.outCap < s.inLen + s.blockSize then .next (raise .bufferTooSmall s)
  else match inOperand s with
    | none => .fault .inputNotLent
    | some chunk => .next (acceptChunk P chunk s)

/-- What FINISH does on every path once it is accepted in phase ACTIVE (40_engine.md R95, R97): the session is over and the secrets are cleared. -/
def closeSession (s : State) : State :=
  { s with
    phase := .done
    key := []
    chain := rep 0 s.params.bsMax
    buf := rep 0 s.params.bsMax
    occ := 0 }

/-- The result of FINISH (40_engine.md R95): the capacity check against `B`, then the end-of-stream function of the mode (R96). -/
def finishResult (P : Prim) (s : State) : Except Err Bytes :=
  if s.outCap < s.blockSize then .error .bufferTooSmall
  else finishMode (s.encryptBlock P) (s.decryptBlock P) s.mode s.dir s.blockSize s.chainUsed s.retained

/-- The state after FINISH with this result (40_engine.md R95): output on success only. -/
def deliver (res : Except Err Bytes) (s : State) : State :=
  match res with
  | .ok bytes =>
    { closeSession s with
      out := Memory.writeBytes s.out 0 bytes
      outLen := bytes.length
      err := .ok }
  | .error e => raise e (closeSession s)

/-- FINISH with the Block Primitive as an argument (40_engine.md R95). -/
def finishWith (P : Prim) (s : State) : Host.Outcome State Fault Refusal :=
  if s.placement.apartForFinish = false then .refused .overlappingBuffers
  else if s.phase ≠ .active then .next (raise .engineMisuse s)
  else .next (deliver (finishResult P s) s)

/-- UPDATE (40_engine.md R90). -/
def execUpdate (s : State) : Host.Outcome State Fault Refusal := updateWith Config.blackbox s

/-- FINISH (40_engine.md R95). -/
def execFinish (s : State) : Host.Outcome State Fault Refusal := finishWith Config.blackbox s

end Sys2Proof.Machine
end

