-- ==== Sys2Proof/Machine/KeyBinding.lean ====
section
/-! DEFINITION. BINDKEY (43_context_and_binding.md R135 to R138). -/

namespace Sys2Proof.Machine

/-- The new binding in the key slot, unused (43_context_and_binding.md R136). -/
def bindKey (a : AlgId) (s : State) : State :=
  { s with
    alg := a
    key := keyOperand s
    mode := .cp
    dir := .enc
    ctx0 := rep 0 s.params.bsMax
    ctxv := false
    phase := .keyed
    outLen := 0
    err := .ok }

/-- BINDKEY (43_context_and_binding.md R136), its checks in the rule's order. -/
def execBindkey (a : AlgId) (s : State) : Host.Outcome State Fault Refusal :=
  match s.params.algTable.lookup a with
  | none => .next (raise .illegalCommand s)
  | some d =>
    if s.phase = .active then .next (raise .engineMisuse s)
    else if s.keyLen ∈ d.keyLens then .next (bindKey a s)
    else .next (raise .invalidKeyLength s)

end Sys2Proof.Machine
end

