-- ==== Sys2Proof/Machine/Session.lean ====
section
/-! DEFINITION. The three BEGIN commands (43_context_and_binding.md R139 to R143). -/

namespace Sys2Proof.Machine

/-- BEGINENC with the random source as an argument (43_context_and_binding.md R140): the draw is made only when the command is accepted, and the source moves on by one. -/
def beginencWith (draw : Nat → Nat → Bytes) (m : Mode) (s : State) : Host.Outcome State Fault Refusal :=
  if s.phase = .keyed then
    .next { openSession m .enc (draw s.draws s.blockSize) s with draws := s.draws + 1 }
  else .next (raise .engineMisuse s)

/-- A BEGIN command with a caller-supplied Context (43_context_and_binding.md R141, R142): the phase, then the Context's length, then `Open`. -/
def beginWithContext (m : Mode) (d : Dir) (s : State) : Host.Outcome State Fault Refusal :=
  if s.phase = .keyed then
    if s.ctxLen = s.blockSize then .next (openSession m d (ctxOperand s) s)
    else .next (raise .invalidContextLength s)
  else .next (raise .engineMisuse s)

/-- BEGINENC (43_context_and_binding.md R140). -/
def execBeginenc (m : Mode) (s : State) : Host.Outcome State Fault Refusal :=
  beginencWith Config.draw m s

/-- BEGINENCX (43_context_and_binding.md R141). -/
def execBeginencx (m : Mode) (s : State) : Host.Outcome State Fault Refusal :=
  beginWithContext m .enc s

/-- BEGINDEC (43_context_and_binding.md R142). -/
def execBegindec (m : Mode) (s : State) : Host.Outcome State Fault Refusal :=
  beginWithContext m .dec s

end Sys2Proof.Machine
end

