-- ==== Sys2Proof/Machine/Dispatch.lean ====
section
/-! DEFINITION. One arm per command. -/

namespace Sys2Proof.Machine

def exec (i : Instr) (s : State) : Host.Outcome State Fault Refusal :=
  match i with
  | .bindkey a => Sys2Proof.Machine.execBindkey a s
  | .beginenc m => Sys2Proof.Machine.execBeginenc m s
  | .beginencx m => Sys2Proof.Machine.execBeginencx m s
  | .begindec m => Sys2Proof.Machine.execBegindec m s
  | .update => Sys2Proof.Machine.execUpdate s
  | .finish => Sys2Proof.Machine.execFinish s
  | .reset => Sys2Proof.Machine.execReset s

end Sys2Proof.Machine
end

