-- ==== Sys2Proof/Machine/HostPort.lean ====
section
/-! DEFINITION. The host's side of the engine: the register map (10_state.md R29, R30), a write of CMD, lending the buffers, the reset input. -/

namespace Sys2Proof.Machine

/-- What a register number names (10_state.md R29); the windows carry the register's place in the window. -/
inductive Reg where
  | cmd
  | status
  | info
  | inLen
  | outCap
  | outLen
  | keyLen
  | ctxLen
  | keyIn (k : Nat)
  | ctxIn (k : Nat)
  | ctxOut (k : Nat)
  | reserved
  deriving DecidableEq, Repr

/-- The number of 32-bit registers of a window of `n` bytes, rounded up (10_state.md R29). -/
def windowRegs (n : Nat) : Nat := (n + 3) / 4

/-- The register map (10_state.md R29). Where the windows of a large instance collide, a number belongs to the window with the higher base (log 8). -/
def regOf (p : Params) (n : Nat) : Reg :=
  match n with
  | 0x00 => .cmd
  | 0x01 => .status
  | 0x02 => .info
  | 0x03 => .inLen
  | 0x04 => .outCap
  | 0x05 => .outLen
  | 0x06 => .keyLen
  | 0x07 => .ctxLen
  | n =>
    if 0x30 ≤ n ∧ n < 0x30 + windowRegs p.bsMax then .ctxOut (n - 0x30)
    else if 0x20 ≤ n ∧ n < 0x20 + windowRegs p.bsMax then .ctxIn (n - 0x20)
    else if 0x10 ≤ n ∧ n < 0x10 + windowRegs p.keyMax then .keyIn (n - 0x10)
    else .reserved

/-- What a read of a register returns (10_state.md R29 to R32): the write-only registers and the reserved numbers read 0. -/
def readReg (s : State) (r : Reg) : Word :=
  match r with
  | .cmd => 0
  | .status => statusWord s
  | .info => infoWord s
  | .inLen => BitVec.ofNat 32 s.inLen
  | .outCap => BitVec.ofNat 32 s.outCap
  | .outLen => BitVec.ofNat 32 s.outLen
  | .keyLen => BitVec.ofNat 32 s.keyLen
  | .ctxLen => BitVec.ofNat 32 s.ctxLen
  | .keyIn _ => 0
  | .ctxIn k => windowWord s.ctxIn k
  | .ctxOut k => windowWord (ctxOut s) k
  | .reserved => 0

/-- A value written to a length register of `LEN_W` bits (10_state.md R20; log 10). -/
def lenValue (p : Params) (v : Nat) : Nat := v % 2 ^ p.lenW

/-- A write to a register other than CMD (10_state.md R29, 20_memory.md R56): an operand register takes the value; reserved numbers ignore it, and so do the read-only registers (log 9). -/
def writeReg (s : State) (r : Reg) (v : Word) : State :=
  match r with
  | .cmd => s
  | .status => s
  | .info => s
  | .inLen => { s with inLen := lenValue s.params v.toNat }
  | .outCap => { s with outCap := lenValue s.params v.toNat }
  | .outLen => s
  | .keyLen => { s with keyLen := v.toNat }
  | .ctxLen => { s with ctxLen := v.toNat }
  | .keyIn k => { s with keyIn := setWindow s.keyIn k v }
  | .ctxIn k => { s with ctxIn := setWindow s.ctxIn k v }
  | .ctxOut _ => s
  | .reserved => s

/-- A write of `w` to CMD (30_encoding.md R70): the command the word encodes runs; a word that encodes none raises IllegalCommand, before the phase is looked at (R74, 60_exceptions.md R171, R174). -/
def runCommand (w : Word) (s : State) : Host.Outcome State Fault Refusal :=
  match decode s.params.algTable w with
  | .ok i => exec i s
  | .error _ => .next (raise .illegalCommand s)

/-- One action of the host on the engine. -/
def runHostOp (op : HostOp) (s : State) : Host.Outcome State Fault Refusal :=
  match op with
  | .write n v =>
    match regOf s.params n with
    | .cmd => runCommand v s
    | r => .next (writeReg s r v)
  | .read n => .next { s with rdata := readReg s (regOf s.params n) }
  | .lendIn bytes => .next { s with inp := Memory.ofBytes bytes }
  | .lendOut bytes => .next { s with out := Memory.ofBytes bytes }
  | .place p => .next { s with placement := p }
  | .resetInput => .next (resetRegisters s)

/-- The next action of the host, if there is one; with none the engine waits, in the state it is in (10_state.md R26, R40). -/
def nextHostOp (s : State) : Host.Outcome State Fault Refusal :=
  match s.host with
  | [] => .next s
  | op :: rest => runHostOp op { s with host := rest }

end Sys2Proof.Machine
end

