-- ==== Sys2Proof/Machine/Step.lean ====
section
/-! DEFINITION. One step: one action of the host, one atomic transition (00_scope.md R9, 20_memory.md R56). -/

namespace Sys2Proof.Machine

/-- One step of a well-formed instance; an ill-formed one is refused (93_implementation_defined.md U13). -/
def step (s : State) : Host.Outcome State Fault Refusal :=
  if s.params.wf then nextHostOp s else .refused .illFormedInstance

/-- `s` with a write of the command word to CMD as the host's next action: there is no fetch (10_state.md R26), a command arrives as the value written to CMD (30_encoding.md R70). The bits of `w` above `nbits` are 0. -/
def State.withFetchWord (s : State) (nbits w : Nat) : State :=
  { s with host := .write 0x00 (BitVec.ofNat 32 (w % 2 ^ nbits)) :: s.host }

end Sys2Proof.Machine
end

