-- ==== Sys2Proof/Machine/Script.lean ====
section
/-! DEFINITION. The script lines of 30_encoding.md R77: what a line sets before its command runs, and sessions made of them (70_reset_and_hazards.md R205). -/

namespace Sys2Proof.Machine

/-- `key=<hex>`: the bytes in `KEY_IN`, their count in `KEY_LEN` (R77). DESIGN CHOICE (log 18): of a count that does not fit the 32 bits of `KEY_LEN` the low 32 bits are written. -/
def setKey (key : Bytes) (s : State) : State :=
  { s with keyIn := (splice s.keyIn key).take s.params.keyMax, keyLen := key.length % 2 ^ 32 }

/-- `ctx=<hex>`: the bytes in `CTX_IN`, their count in `CTX_LEN` (R77). DESIGN CHOICE (log 18): of a count that does not fit the 32 bits of `CTX_LEN` the low 32 bits are written. -/
def setCtx (ctx : Bytes) (s : State) : State :=
  { s with ctxIn := (splice s.ctxIn ctx).take s.params.bsMax, ctxLen := ctx.length % 2 ^ 32 }

/-- `in=<hex>`: the contents of `IN` and `IN_LEN` (R77). DESIGN CHOICE (log 10): of a count that does not fit `LEN_W` bits the low ones are written. -/
def setIn (chunk : Bytes) (s : State) : State :=
  { s with inp := Memory.ofBytes chunk, inLen := lenValue s.params chunk.length }

/-- `cap=<n>`: `OUT_CAP` (R77). DESIGN CHOICE (log 10): of a number that does not fit `LEN_W` bits the low ones are written. -/
def setCap (cap : Nat) (s : State) : State := { s with outCap := lenValue s.params cap }

/-- A script line (R77). -/
inductive Line where
  | bindkey (alg : AlgId) (key : Bytes)
  | beginenc (mode : Mode)
  | beginencx (mode : Mode) (ctx : Bytes)
  | begindec (mode : Mode) (ctx : Bytes)
  | update (chunk : Bytes) (cap : Nat)
  | finish (cap : Nat)
  | reset
  deriving DecidableEq, Repr

/-- The command of a line. -/
def Line.instr : Line → Instr
  | .bindkey a _ => .bindkey a
  | .beginenc m => .beginenc m
  | .beginencx m _ => .beginencx m
  | .begindec m _ => .begindec m
  | .update _ _ => .update
  | .finish _ => .finish
  | .reset => .reset

/-- The operands a line sets (R77). -/
def Line.setup (l : Line) (s : State) : State :=
  match l with
  | .bindkey _ key => setKey key s
  | .beginenc _ => s
  | .beginencx _ ctx => setCtx ctx s
  | .begindec _ ctx => setCtx ctx s
  | .update chunk cap => setIn chunk (setCap cap s)
  | .finish cap => setCap cap s
  | .reset => s

/-- A script line run: its operands set, then its command. -/
def runLine (l : Line) (s : State) : Host.Outcome State Fault Refusal := exec l.instr (l.setup s)

/-- The run of output of the last command: `OUT[0..OUT_LEN)` (R77). -/
def outputRun (s : State) : Option Bytes := Memory.readBytes s.out 0 s.outLen

/-- A chunk of a message with the capacity of the buffer it is given (70_reset_and_hazards.md R192). -/
structure Chunk where
  data : Bytes
  cap  : Nat
  deriving DecidableEq, Repr

/-- Feed a list of chunks, each accepted by one UPDATE: the concatenation of their output runs and the state they leave (20_memory.md R52); nothing where an UPDATE does not end with OK, since its chunk was not fed. `run` is the meaning of UPDATE. -/
def feedWith (run : State → Host.Outcome State Fault Refusal) : List Chunk → State → Option (Bytes × State)
  | [], s => some ([], s)
  | c :: cs, s =>
    match run (setIn c.data (setCap c.cap s)) with
    | .next t =>
      if t.err = .ok then
        match outputRun t, feedWith run cs t with
        | some o, some (os, u) => some (o ++ os, u)
        | _, _ => none
      else none
    | .fault _ => none
    | .refused _ => none

/-- The meaning of the commands with the Block Primitive as an argument; `exec` is the case of the external one. -/
def execWith (P : Prim) (i : Instr) (s : State) : Host.Outcome State Fault Refusal :=
  match i with
  | .bindkey a => execBindkey a s
  | .beginenc m => execBeginenc m s
  | .beginencx m => execBeginencx m s
  | .begindec m => execBegindec m s
  | .update => updateWith P s
  | .finish => finishWith P s
  | .reset => execReset s

/-- The result of a session (70_reset_and_hazards.md R205): the code of the FINISH that ended it, the concatenation of the output runs of its UPDATE commands and of that FINISH, and for an encryption what CTX_OUT reads. -/
structure SessionResult where
  err     : Err
  output  : Bytes
  context : Option Bytes
  deriving DecidableEq, Repr

/-- The Context a session hands over (R205): what CTX_OUT reads for an encryption, nothing for a decryption. -/
def sessionContext (s : State) : Option Bytes := if s.dir = .enc then some (ctxOut s) else none

/-- A result with the run of an earlier UPDATE put before its output. -/
def SessionResult.after (o : Bytes) (r : SessionResult) : SessionResult := { r with output := o ++ r.output }

/-- The run of the session open in `s` (70_reset_and_hazards.md R205): the lines up to the first FINISH accepted in phase ACTIVE, whose result it is. A failed UPDATE adds an empty run and the session goes on, as it does after a BINDKEY or a BEGIN, which fail in phase ACTIVE (60_exceptions.md R176). No session open, ended by RESET or never ended: no result. `run` is the meaning of a command. -/
def sessionRunWith (run : Instr → State → Host.Outcome State Fault Refusal) : List Line → State → Option SessionResult
  | [], _ => none
  | l :: ls, s =>
    if s.phase ≠ .active then none
    else
      match run l.instr (l.setup s) with
      | .fault _ => none
      | .refused _ => none
      | .next t =>
        match l with
        | .bindkey _ _ => sessionRunWith run ls t
        | .beginenc _ => sessionRunWith run ls t
        | .beginencx _ _ => sessionRunWith run ls t
        | .begindec _ _ => sessionRunWith run ls t
        | .update _ _ => (outputRun t).bind fun o => (sessionRunWith run ls t).map (SessionResult.after o)
        | .finish _ =>
          (outputRun t).map fun o => { err := t.err, output := o, context := sessionContext t }
        | .reset => none

/-- The run of a session on the engine. -/
def sessionRun (ls : List Line) (s : State) : Option SessionResult := sessionRunWith exec ls s

/-- The chunks, each in one UPDATE, then one FINISH with capacity `cap`. -/
def chunkLines (cs : List Chunk) (cap : Nat) : List Line :=
  cs.map (fun c => .update c.data c.cap) ++ [.finish cap]

/-- The chunks fed to the engine. -/
def feed (cs : List Chunk) (s : State) : Option (Bytes × State) := feedWith (exec .update) cs s

/-- The rest of a session on the engine that is fed these chunks and finished. -/
def session (cs : List Chunk) (cap : Nat) (s : State) : Option SessionResult := sessionRun (chunkLines cs cap) s

/-- The rest of a session on an engine with the Block Primitive `P`; `session` is the case of the external one. -/
def sessionOf (P : Prim) (cs : List Chunk) (cap : Nat) (s : State) : Option SessionResult :=
  sessionRunWith (execWith P) (chunkLines cs cap) s

/-- The message of a list of chunks: their concatenation (00_scope.md R12). -/
def messageOf (cs : List Chunk) : Bytes := cs.flatMap (·.data)

end Sys2Proof.Machine
end

