-- ==== Sys2Proof/Machine/OneShot.lean ====
section
/-! DEFINITION. The one-shot pseudo-operations (44_oneshot.md R155 to R158): host sequences over the commands, with a capacity rule of their own and staged output. -/

namespace Sys2Proof.Machine

/-- The three one-shot operations (R155). -/
inductive Role where
  | enc
  | encx
  | dec
  deriving DecidableEq, Repr

/-- The direction of a one-shot operation (R155). -/
def Role.dir : Role → Dir
  | .enc => .enc
  | .encx => .enc
  | .dec => .dec

/-- The BEGIN command a one-shot operation uses (R155). -/
def Role.begin : Role → Mode → Instr
  | .enc, m => .beginenc m
  | .encx, m => .beginencx m
  | .dec, m => .begindec m

/-- The Context a one-shot operation supplies: none for ONESHOTENC (R155). -/
def Role.supply (r : Role) (ctx : Bytes) (s : State) : State :=
  match r with
  | .enc => s
  | .encx => setCtx ctx s
  | .dec => setCtx ctx s

/-- Required capacity `need(m, dir, n)` (R156). -/
def needCap (m : Mode) (d : Dir) (bs n : Nat) : Nat :=
  match m, d with
  | .cp, .enc => (n / bs + 1) * bs
  | .cp, .dec => n
  | .ctr, .enc => n
  | .ctr, .dec => n

/-- What a one-shot operation returns (R155): the engine's state with the caller's buffer OUTc as `out`, the code, the bytes delivered to `OUTc[0..)`, and for an encryption the Context, the `B` bytes of CTX_OUT. -/
structure OneShotResult where
  state     : State
  err       : Err
  delivered : Bytes
  context   : Option Bytes
  deriving DecidableEq, Repr

/-- Go on from a next state; a fault or a refusal ends the sequence. -/
def andThen {α β : Type} (o : Host.Outcome α Fault Refusal) (f : α → Host.Outcome β Fault Refusal) :
    Host.Outcome β Fault Refusal :=
  match o with
  | .next a => f a
  | .fault r => .fault r
  | .refused r => .refused r

/-- A fresh staging buffer, apart from everything (R157). -/
def stage (s : State) : State := { s with out := [], placement := .disjoint }

/-- The caller's buffers in place of the staging buffers. -/
def unstage (caller s : State) : State := { s with out := caller.out, placement := caller.placement }

/-- A failed one-shot operation: nothing is delivered (R157, R158). -/
def oneShotFails (caller s : State) (e : Err) : Host.Outcome OneShotResult Fault Refusal :=
  .next { state := unstage caller s, err := e, delivered := [], context := none }

/-- Steps 5 and 6 of R157: FINISH into a staging buffer, then both runs to the caller. -/
def oneShotFinish (run : Instr → State → Host.Outcome State Fault Refusal) (r : Role) (caller s4 : State) :
    Host.Outcome OneShotResult Fault Refusal :=
  andThen (run .finish (setCap s4.blockSize (stage s4))) fun s5 =>
    if s5.err ≠ .ok then oneShotFails caller s5 s5.err
    else
      .next
        { state :=
            { unstage caller s5 with
              out := Memory.writeBytes caller.out 0 ((outputRun s4).getD [] ++ (outputRun s5).getD []) }
          err := .ok
          delivered := (outputRun s4).getD [] ++ (outputRun s5).getD []
          context := if r.dir = .enc then some ((ctxOut s5).take s5.blockSize) else none }

/-- Steps 3 and 4 of R157: the capacity check, then UPDATE with the whole message into a staging buffer. A message whose `n + B` does not fit the length registers "cannot be processed in one shot". -/
def oneShotData (run : Instr → State → Host.Outcome State Fault Refusal) (r : Role) (m : Mode) (msg : Bytes)
    (cap : Nat) (caller s2 : State) : Host.Outcome OneShotResult Fault Refusal :=
  if cap < needCap m r.dir s2.blockSize msg.length then
    andThen (run .reset s2) fun s3 => oneShotFails caller s3 .bufferTooSmall
  else if 2 ^ s2.params.lenW ≤ msg.length + s2.blockSize then .refused .messageTooLong
  else
    andThen (run .update (setIn msg (setCap (msg.length + s2.blockSize) (stage s2)))) fun s4 =>
      if s4.err ≠ .ok then oneShotFails caller s4 s4.err else oneShotFinish run r caller s4

/-- A one-shot operation (R157): BINDKEY, BEGIN, then the data. `run` is the meaning of a command; `s.out` is the caller's buffer OUTc. -/
def oneShotWith (run : Instr → State → Host.Outcome State Fault Refusal) (r : Role) (a : AlgId) (key : Bytes)
    (m : Mode) (ctx msg : Bytes) (cap : Nat) (s : State) : Host.Outcome OneShotResult Fault Refusal :=
  andThen (run (.bindkey a) (setKey key s)) fun s1 =>
    if s1.err ≠ .ok then oneShotFails s s1 s1.err
    else
      andThen (run (r.begin m) (r.supply ctx s1)) fun s2 =>
        if s2.err ≠ .ok then oneShotFails s s2 s2.err else oneShotData run r m msg cap s s2

/-- A one-shot operation on the engine (R157). -/
def oneShot (r : Role) (a : AlgId) (key : Bytes) (m : Mode) (ctx msg : Bytes) (cap : Nat) (s : State) :
    Host.Outcome OneShotResult Fault Refusal :=
  oneShotWith exec r a key m ctx msg cap s

end Sys2Proof.Machine
end

