-- ==== Sys2Proof/Machine/Whole.lean ====
section
/-! DEFINITION. The whole-message functions of 40_engine.md R101, block by block as the rule writes them, on `E` and `D` under the bound key. They say nothing of the engine: what it computes in chunks is held against them. -/

namespace Sys2Proof.Machine

/-- Block `j` of a string cut into blocks of `bs` bytes: `s[j·B .. (j+1)·B)`. -/
def blockAt (bs : Nat) (s : Bytes) (j : Nat) : Bytes := (s.drop (j * bs)).take bs

/-- The padded message `M'` of CPenc (R101): `p = B - (len(M) mod B)` bytes of value `p` behind `M`. -/
def padMessage (bs : Nat) (msg : Bytes) : Bytes :=
  msg ++ rep (BitVec.ofNat 8 (bs - msg.length % bs)) (bs - msg.length % bs)

/-- `C_j` of CPenc (R101), `C_(-1)` being the Context `c`. -/
def cipherBlock (E : Bytes → Bytes) (bs : Nat) (c m' : Bytes) : Nat → Bytes
  | 0 => E (xorBytes (blockAt bs m' 0) c)
  | j + 1 => E (xorBytes (blockAt bs m' (j + 1)) (cipherBlock E bs c m' j))

/-- `CPenc(K, c, M)` (R101). -/
def cpEncWhole (E : Bytes → Bytes) (bs : Nat) (c msg : Bytes) : Bytes :=
  (List.range ((padMessage bs msg).length / bs)).flatMap (cipherBlock E bs c (padMessage bs msg))

/-- The block before block `j` of a ciphertext, the Context `c` before the first (R101). -/
def prevBlock (bs : Nat) (c ct : Bytes) : Nat → Bytes
  | 0 => c
  | j + 1 => blockAt bs ct j

/-- `X_j` of CPdec (R101). -/
def plainBlock (D : Bytes → Bytes) (bs : Nat) (c ct : Bytes) (j : Nat) : Bytes :=
  xorBytes (D (blockAt bs ct j)) (prevBlock bs c ct j)

/-- The blocks `X_0 … X_(m-2)` that UPDATE hands out before the padding is checked (R101, 70_reset_and_hazards.md R199). -/
def cpDecFront (D : Bytes → Bytes) (bs : Nat) (c ct : Bytes) : Bytes :=
  (List.range ((ct.length - 1) / bs)).flatMap (plainBlock D bs c ct)

/-- `X` ends in a padding (R101): its last byte `p` lies in 1 to `B` and every byte `X[i]` with `B - p ≤ i < B` equals it. -/
def EndsInPadding (bs : Nat) (x : Bytes) : Prop :=
  1 ≤ (byteAt x (bs - 1)).toNat ∧ (byteAt x (bs - 1)).toNat ≤ bs ∧
    ∀ i, bs - (byteAt x (bs - 1)).toNat ≤ i → i < bs → byteAt x i = byteAt x (bs - 1)

/-- `CPdec(K, c, C)` does not fail (R101). -/
def CpDecAccepts (D : Bytes → Bytes) (bs : Nat) (c ct : Bytes) : Prop :=
  ct.length ≠ 0 ∧ ct.length % bs = 0 ∧ EndsInPadding bs (plainBlock D bs c ct (ct.length / bs - 1))

/-- The result of `CPdec(K, c, C)` where it does not fail (R101). -/
def cpDecWhole (D : Bytes → Bytes) (bs : Nat) (c ct : Bytes) : Bytes :=
  cpDecFront D bs c ct ++
    (plainBlock D bs c ct (ct.length / bs - 1)).take
      (bs - (byteAt (plainBlock D bs c ct (ct.length / bs - 1)) (bs - 1)).toNat)

/-- `S_j` of CTRx (R101, 42_counter.md R130): keystream block `j`. -/
def keystreamBlock (E : Bytes → Bytes) (bs : Nat) (c : Bytes) (j : Nat) : Bytes :=
  E (int2be ((be2int c + j) % 256 ^ bs) bs)

/-- `CTRx(K, c, M)` (R101): the message against the front of the keystream. -/
def ctrWhole (E : Bytes → Bytes) (bs : Nat) (c msg : Bytes) : Bytes :=
  xorBytes msg
    (((List.range ((msg.length + bs - 1) / bs)).flatMap (keystreamBlock E bs c)).take msg.length)

end Sys2Proof.Machine
end

