-- ==== Sys2Proof/Safety.lean ====
section
/-! DEFINITION. The terms claims are stated in: the invariant of 10_state.md R38, the lifecycle of 60_exceptions.md R176, the one assumed property of the Block Primitive (10_state.md R35). -/

namespace Sys2Proof.Machine

/-- `E(K, ·)` of the external Block Primitive under the key bound in `s`. -/
def State.E (s : State) : Bytes → Bytes := s.encryptBlock Config.blackbox

/-- `D(K, ·)` of the external Block Primitive under the key bound in `s`. -/
def State.D (s : State) : Bytes → Bytes := s.decryptBlock Config.blackbox

/-- The one property assumed of the Block Primitive: `D(K, E(K, X)) = X` on `B`-byte blocks (10_state.md R35). A claim that rests on it names it as a premise. -/
def Inverts (D E : Bytes → Bytes) (bs : Nat) : Prop := ∀ x : Bytes, x.length = bs → D (E x) = x

/-- A Block Primitive that maps a string to one of the same length, so `B` bytes to `B` bytes (10_state.md R33). The external one does. -/
structure KeepsLength (P : Prim) : Prop where
  enc : ∀ (a : AlgId) (k x : Bytes), (P.enc a k x).length = x.length
  dec : ∀ (a : AlgId) (k x : Bytes), (P.dec a k x).length = x.length

/-- The bound of 10_state.md R24 on the occupancy of an open session. -/
def State.occWithinBound (s : State) : Prop :=
  if s.mode = .cp ∧ s.dir = .dec then s.occ ≤ s.blockSize else s.occ < s.blockSize

/-- What holds between commands: the widths of the registers (10_state.md R20), the canonical form of the data spaces, and items 1, 2, 4 and 5 of R38. -/
structure State.Inv (s : State) : Prop where
  params_wf : s.params.wf = true
  ctx0_width : s.ctx0.length = s.params.bsMax
  chain_width : s.chain.length = s.params.bsMax
  buf_width : s.buf.length = s.params.bsMax
  keyIn_width : s.keyIn.length = s.params.keyMax
  ctxIn_width : s.ctxIn.length = s.params.bsMax
  outLen_fits : s.outLen < 2 ^ s.params.lenW
  inLen_fits : s.inLen < 2 ^ s.params.lenW
  outCap_fits : s.outCap < 2 ^ s.params.lenW
  keyLen_fits : s.keyLen < 2 ^ 32
  ctxLen_fits : s.ctxLen < 2 ^ 32
  inp_wf : Memory.wf s.inp = true
  out_wf : Memory.wf s.out = true
  before_session : s.phase = .idle ∨ s.phase = .keyed → s.occ = 0
  after_session : s.phase = .done →
    s.occ = 0 ∧ s.key = [] ∧ s.chain = rep 0 s.params.bsMax ∧ s.buf = rep 0 s.params.bsMax
  in_session : s.phase = .active → s.occWithinBound
  alg_known : s.phase ≠ .idle → s.desc.isSome = true
  key_accepted : s.phase = .keyed ∨ s.phase = .active →
    ∃ d, s.desc = some d ∧ s.key.length ∈ d.keyLens
  ctxv_session : s.ctxv = true → (s.phase = .active ∨ s.phase = .done) ∧ s.dir = .enc

/-- Bits `w[hi:lo]` as a number (00_scope.md R11). -/
def wordBits (w : Word) (hi lo : Nat) : Nat := w.toNat / 2 ^ lo % 2 ^ (hi + 1 - lo)

/-- The illegal words, clause by clause as 30_encoding.md R74 lists them, on the numbers of R70's fields. -/
def IllegalWord (t : AlgTable) (w : Word) : Prop :=
  (wordBits w 3 0 = 0 ∨ 8 ≤ wordBits w 3 0) ∨
    (wordBits w 7 5 ≠ 0 ∨ wordBits w 31 12 ≠ 0) ∨
    (wordBits w 4 4 = 1 ∧ wordBits w 3 0 ∈ [1, 5, 6, 7]) ∨
    (wordBits w 11 8 ≠ 0 ∧ wordBits w 3 0 ∈ [2, 3, 4, 5, 6, 7]) ∨
    (wordBits w 3 0 = 1 ∧ t.lookup (BitVec.ofNat 4 (wordBits w 11 8)) = none)

/-- Byte `j` of a 32-bit register, the least significant first (10_state.md R30). -/
def byteOfWord (v : Word) (j : Nat) : Byte := BitVec.ofNat 8 (v.toNat / 256 ^ j)

/-- The register windows of the instance do not collide (10_state.md R29; log 8). -/
def WindowsApart (p : Params) : Prop := p.keyMax ≤ 64 ∧ p.bsMax ≤ 64

/-- The length check a command makes, third in the order of 60_exceptions.md R174, and the error it ends in. -/
def lengthError (i : Instr) (s : State) : Option Err :=
  match i with
  | .bindkey a =>
    match s.params.algTable.lookup a with
    | some d => if s.keyLen ∈ d.keyLens then none else some .invalidKeyLength
    | none => none
  | .beginenc _ => none
  | .beginencx _ => if s.ctxLen = s.blockSize then none else some .invalidContextLength
  | .begindec _ => if s.ctxLen = s.blockSize then none else some .invalidContextLength
  | .update => if s.outCap < s.inLen + s.blockSize then some .bufferTooSmall else none
  | .finish => if s.outCap < s.blockSize then some .bufferTooSmall else none
  | .reset => none

/-- The phases a command is allowed in: the cells of 60_exceptions.md R176 that are not EngineMisuse. -/
def allowedIn : Instr → Phase → Bool
  | .bindkey _, p => decide (p ≠ .active)
  | .beginenc _, p => decide (p = .keyed)
  | .beginencx _, p => decide (p = .keyed)
  | .begindec _, p => decide (p = .keyed)
  | .update, p => decide (p = .active)
  | .finish, p => decide (p = .active)
  | .reset, _ => true

/-- The phase a command leads to when it ends with OK (60_exceptions.md R176). -/
def targetPhase : Instr → Phase
  | .bindkey _ => .keyed
  | .beginenc _ => .active
  | .beginencx _ => .active
  | .begindec _ => .active
  | .update => .active
  | .finish => .done
  | .reset => .idle

/-- The buffers a command uses lie apart (20_memory.md R57), and the input slice of an UPDATE that passes its checks is there (R51). What the host owes; the engine cannot check it. -/
def HostReady (i : Instr) (s : State) : Prop :=
  (i = .update → s.placement.apartForUpdate = true ∧ ∃ chunk, inOperand s = some chunk) ∧
    (i = .finish → s.placement.apartForFinish = true)

/-- Chunks with sufficient capacity under `s` (40_engine.md R93): each is given at least its length plus `B`, and the capacity fits its register. -/
def CapacitiesSuffice (s : State) (cs : List Chunk) : Prop :=
  ∀ c ∈ cs, c.data.length + s.blockSize ≤ c.cap ∧ c.cap < 2 ^ s.params.lenW

/-- UPDATE runs in `s`: the invariant, phase ACTIVE, the buffers apart, the chunk there, the documented capacity (40_engine.md R90, R93). -/
structure UpdateReady (s : State) (chunk : Bytes) : Prop where
  inv : s.Inv
  active : s.phase = .active
  apart : s.placement.apartForUpdate = true
  lent : inOperand s = some chunk
  capacity : s.inLen + s.blockSize ≤ s.outCap

/-- FINISH passes its capacity check in `s` (40_engine.md R95). -/
structure FinishReady (s : State) : Prop where
  inv : s.Inv
  active : s.phase = .active
  apart : s.placement.apartForFinish = true
  capacity : s.blockSize ≤ s.outCap

/-- A session of `s` that can be fed and finished: the invariant, phase ACTIVE, the lent buffers apart, FINISH's capacity sufficient (40_engine.md R95). -/
structure SessionReady (s : State) (cap : Nat) : Prop where
  inv : s.Inv
  active : s.phase = .active
  apart : s.placement.apartForUpdate = true
  cap_suffices : s.blockSize ≤ cap
  cap_fits : cap < 2 ^ s.params.lenW

end Sys2Proof.Machine
end

