-- ==== Sys2Proof/Certificates/Slice0/Obligations.lean ====
section
/-! DEFINITION. What the provers are asked for. Each statement names the rule of spec/ it formalises; E and D are opaque, and the one property assumed of them (10_state.md R35) is a named premise where a statement rests on it. -/

open Sys2Proof Sys2Proof.Machine

/-! ### Command words -/

/-- 30_encoding.md R73, "Full words": the words of the seven commands, under the table of the test vectors (ids 0 and 15). The encoding is the spec's decision D2. -/
def Obligations.CommandWordsDecode : Prop :=
  let t : AlgTable := [(0, AlgDesc.a128), (15, { blockSize := 4, keyLens := [4] })]
  decode t 0x00000001 = .ok (.bindkey 0) ∧ decode t 0x00000f01 = .ok (.bindkey 15) ∧
  decode t 0x00000002 = .ok (.beginenc .cp) ∧ decode t 0x00000012 = .ok (.beginenc .ctr) ∧
  decode t 0x00000003 = .ok (.beginencx .cp) ∧ decode t 0x00000013 = .ok (.beginencx .ctr) ∧
  decode t 0x00000004 = .ok (.begindec .cp) ∧ decode t 0x00000014 = .ok (.begindec .ctr) ∧
  decode t 0x00000005 = .ok .update ∧ decode t 0x00000006 = .ok .finish ∧ decode t 0x00000007 = .ok .reset

/-- Decoding the word of a well-formed command gives the command back, for every table, command and operand (30_encoding.md R70, R71, R73). The encoding is the spec's decision D2. -/
def Obligations.DecodeOfEncode : Prop :=
  ∀ (t : AlgTable) (i : Instr), i.wf t = true → decode t (encode i) = .ok i

/-- 30_encoding.md R74 and 60_exceptions.md R171: a write of an illegal word to CMD ends with IllegalCommand and changes nothing else, in every phase; every other word is the word of a well-formed command, so none is a hint or runs as a no-op. The behaviour of an illegal word is the spec's decision D2. -/
def Obligations.IllegalWordsEndInIllegalCommand : Prop :=
  (∀ (s : State) (w : Word) (rest : List HostOp), s.params.wf = true → s.host = .write 0x00 w :: rest →
    IllegalWord s.params.algTable w →
    step s = .next { s with host := rest, err := .illegalCommand, outLen := 0 }) ∧
  (∀ (t : AlgTable) (w : Word), ¬ IllegalWord t w →
    ∃ i : Instr, i.wf t = true ∧ encode i = w ∧ decode t w = .ok i)

/-! ### Steps and the register map -/

/-- A write to CMD of a word that decodes to a command runs that command on the state as it stands, the host's action taken (30_encoding.md R70, 20_memory.md R63). That the write is the head of a list of host actions is the model's choice, log 1. -/
def Obligations.StepRunsDecodedCommand : Prop :=
  ∀ (s : State) (w : Word) (i : Instr) (rest : List HostOp), s.params.wf = true →
    s.host = .write 0x00 w :: rest → decode s.params.algTable w = .ok i →
    step s = exec i { s with host := rest }

/-- With no host action left the engine waits, in every phase: nothing changes (10_state.md R26, R40; that a step then answers the same state is the model's choice, log 1). -/
def Obligations.StepWaitsForTheHost : Prop :=
  ∀ s : State, s.params.wf = true → s.host = [] → step s = .next s

/-- A write to a register other than CMD (10_state.md R29, R30; 20_memory.md R56): only the operand register it names changes, a window byte by byte least significant first; reserved numbers ignore it, and so do the read-only registers (the model's choice, log 9). Windows that collide are left out (log 8); a length register keeps `LEN_W` bits (log 10). The map is the spec's decision D1. -/
def Obligations.OperandWriteSetsOnlyItsRegister : Prop :=
  ∀ (s : State) (n : Nat) (v : Word) (rest : List HostOp), s.Inv → WindowsApart s.params →
    s.host = .write n v :: rest → n ≠ 0x00 →
    ∃ t : State, step s = .next t ∧
      t = { s with host := rest, inLen := t.inLen, outCap := t.outCap, keyLen := t.keyLen,
                   ctxLen := t.ctxLen, keyIn := t.keyIn, ctxIn := t.ctxIn } ∧
      t.inLen = (if n = 0x03 then v.toNat % 2 ^ s.params.lenW else s.inLen) ∧
      t.outCap = (if n = 0x04 then v.toNat % 2 ^ s.params.lenW else s.outCap) ∧
      t.keyLen = (if n = 0x06 then v.toNat else s.keyLen) ∧
      t.ctxLen = (if n = 0x07 then v.toNat else s.ctxLen) ∧
      t.keyIn.length = s.params.keyMax ∧ t.ctxIn.length = s.params.bsMax ∧
      (∀ i, i < s.params.keyMax → byteAt t.keyIn i =
        if n = 0x10 + i / 4 then byteOfWord v (i % 4) else byteAt s.keyIn i) ∧
      (∀ i, i < s.params.bsMax → byteAt t.ctxIn i =
        if n = 0x20 + i / 4 then byteOfWord v (i % 4) else byteAt s.ctxIn i)

/-- A register read changes nothing but what the host reads (20_memory.md R56) and returns the map's value (10_state.md R29, R30): CMD, KEY_IN and reserved numbers 0, the length registers their values, CTX_IN its bytes. STATUS, INFO and CTX_OUT have statements of their own. The map is the spec's decision D1; `rdata`, where the value lands, is the model's own field, log 12, and the low 32 bits of a wider length are log 10. -/
def Obligations.RegisterReadFollowsTheMap : Prop :=
  ∀ (s : State) (n : Nat) (rest : List HostOp), s.Inv → WindowsApart s.params →
    s.host = .read n :: rest →
    ∃ v : Word, step s = .next { s with host := rest, rdata := v } ∧
      (n = 0x00 → v = 0) ∧
      (n = 0x03 → v.toNat = s.inLen % 2 ^ 32) ∧
      (n = 0x04 → v.toNat = s.outCap % 2 ^ 32) ∧
      (n = 0x05 → v.toNat = s.outLen % 2 ^ 32) ∧
      (n = 0x06 → v.toNat = s.keyLen) ∧
      (n = 0x07 → v.toNat = s.ctxLen) ∧
      (0x08 ≤ n → n < 0x20 → v = 0) ∧
      (∀ i, i < s.params.bsMax → n = 0x20 + i / 4 → byteOfWord v (i % 4) = byteAt s.ctxIn i) ∧
      (0x20 + (s.params.bsMax + 3) / 4 ≤ n → n < 0x30 → v = 0) ∧
      (0x30 + (s.params.bsMax + 3) / 4 ≤ n → v = 0)

/-- A read of STATUS (10_state.md R28, R29; 60_exceptions.md R165): `[3:0]` the code of the last result, `[4]` CTXV, every other bit 0. Bit positions and code numbers are the spec's decisions D1 and D2. -/
def Obligations.StatusReadsErrAndCtxv : Prop :=
  ∀ (s : State) (rest : List HostOp), s.params.wf = true → s.host = .read 0x01 :: rest →
    ∃ v : Word, step s = .next { s with host := rest, rdata := v } ∧
      v.toNat / 16 = (if s.ctxv then 1 else 0) ∧
      (s.err = .ok → v.toNat % 16 = 0) ∧ (s.err = .invalidKeyLength → v.toNat % 16 = 1) ∧
      (s.err = .invalidContextLength → v.toNat % 16 = 2) ∧ (s.err = .bufferTooSmall → v.toNat % 16 = 3) ∧
      (s.err = .badPadding → v.toNat % 16 = 4) ∧ (s.err = .engineMisuse → v.toNat % 16 = 5) ∧
      (s.err = .illegalCommand → v.toNat % 16 = 6)

/-- 10_state.md R31: a read of INFO gives the fields R29 lays out, each a function of the state, with no side effect and no failure. The layout and the readability in phase DONE are the spec's decision D1. -/
def Obligations.InfoReadsTheSession : Prop :=
  ∀ (s : State) (rest : List HostOp), s.Inv → s.host = .read 0x02 :: rest →
    ∃ v : Word, step s = .next { s with host := rest, rdata := v } ∧
      wordBits v 7 0 = (if s.phase = .idle then 0 else s.blockSize) ∧
      wordBits v 11 8 = (if s.phase = .idle then 0 else s.alg.toNat) ∧
      wordBits v 12 12 = (if (s.phase = .active ∨ s.phase = .done) ∧ s.mode = .ctr then 1 else 0) ∧
      wordBits v 13 13 = (if (s.phase = .active ∨ s.phase = .done) ∧ s.dir = .dec then 1 else 0) ∧
      (s.phase = .idle → wordBits v 15 14 = 0) ∧ (s.phase = .keyed → wordBits v 15 14 = 1) ∧
      (s.phase = .active → wordBits v 15 14 = 2) ∧ (s.phase = .done → wordBits v 15 14 = 3) ∧
      wordBits v 31 16 = 0

/-- A read of a CTX_OUT register (10_state.md R30, R32): byte `i` is byte `i` of the initial Context while CTXV = 1 and `i < B`, and 0 otherwise. The packing is the spec's decision D1; that a number two windows of a large instance cover belongs to CTX_OUT, the higher base, is the model's choice, log 8, and no rule says it. -/
def Obligations.CtxOutReadsInitialContext : Prop :=
  ∀ (s : State) (n : Nat) (rest : List HostOp), s.Inv → s.host = .read n :: rest →
    ∃ v : Word, step s = .next { s with host := rest, rdata := v } ∧
      ∀ i, i < s.params.bsMax → n = 0x30 + i / 4 →
        byteOfWord v (i % 4) = if s.ctxv = true ∧ i < s.blockSize then byteAt s.ctx0 i else 0

/-- What the host reads does not depend on KEY, CHAIN, BUF or OCC (10_state.md R39). That OCC is not readable is the spec's decision D1. -/
def Obligations.SecretsAreNotReadable : Prop :=
  ∀ (s : State) (n : Nat) (rest : List HostOp) (k c b : Bytes) (o : Nat), s.params.wf = true →
    s.host = .read n :: rest →
    ∃ v : Word, step s = .next { s with host := rest, rdata := v } ∧
      step { s with key := k, chain := c, buf := b, occ := o } =
        .next { s with key := k, chain := c, buf := b, occ := o, host := rest, rdata := v }

/-! ### Binding a key and opening a session -/

/-- 43_context_and_binding.md R136: the four outcomes of BINDKEY, in the rule's order of checks. IllegalCommand and EngineMisuse rest on the spec's decisions D2 and D4; CTX0 cleared over all of its BS_MAX bytes is log 11. -/
def Obligations.BindkeyOutcome : Prop :=
  ∀ (a : AlgId) (s : State),
    (s.params.algTable.lookup a = none →
      exec (.bindkey a) s = .next { s with err := .illegalCommand, outLen := 0 }) ∧
    (∀ d, s.params.algTable.lookup a = some d →
      (s.phase = .active → exec (.bindkey a) s = .next { s with err := .engineMisuse, outLen := 0 }) ∧
      (s.phase ≠ .active → s.keyLen ∉ d.keyLens →
        exec (.bindkey a) s = .next { s with err := .invalidKeyLength, outLen := 0 }) ∧
      (s.phase ≠ .active → s.keyLen ∈ d.keyLens →
        exec (.bindkey a) s =
          .next { s with alg := a, key := s.keyIn.take s.keyLen, mode := .cp, dir := .enc,
                         ctx0 := List.replicate s.params.bsMax 0, ctxv := false, phase := .keyed,
                         outLen := 0, err := .ok }))

/-- 43_context_and_binding.md R139, R140: BEGINENC opens an encryption session with the drawn Context in phase KEYED, whatever CTX_LEN and CTX_IN hold, and is EngineMisuse in every other phase. The value of the draw is free. EngineMisuse rests on the spec's decision D4, the draw on D6; the counter of draws is the model's own field, log 4. -/
def Obligations.BeginencOutcome : Prop :=
  ∀ (m : Mode) (s : State),
    (s.phase ≠ .keyed → exec (.beginenc m) s = .next { s with err := .engineMisuse, outLen := 0 }) ∧
    (s.Inv → s.phase = .keyed →
      ∃ t : State, exec (.beginenc m) s = .next t ∧
        t = { s with mode := m, dir := .enc, ctx0 := t.ctx0, chain := t.chain,
                     buf := List.replicate s.params.bsMax 0, occ := 0, ctxv := true, phase := .active,
                     outLen := 0, err := .ok, draws := s.draws + 1 } ∧
        t.ctx0.take s.blockSize = Config.draw s.draws s.blockSize ∧
        t.chain.take s.blockSize = Config.draw s.draws s.blockSize ∧
        t.ctx0.length = s.params.bsMax ∧ t.chain.length = s.params.bsMax)

/-- 43_context_and_binding.md R139, R141: the three outcomes of BEGINENCX. EngineMisuse rests on the spec's decision D4. -/
def Obligations.BeginencxOutcome : Prop :=
  ∀ (m : Mode) (s : State),
    (s.phase ≠ .keyed → exec (.beginencx m) s = .next { s with err := .engineMisuse, outLen := 0 }) ∧
    (s.phase = .keyed → s.ctxLen ≠ s.blockSize →
      exec (.beginencx m) s = .next { s with err := .invalidContextLength, outLen := 0 }) ∧
    (s.Inv → s.phase = .keyed → s.ctxLen = s.blockSize →
      ∃ t : State, exec (.beginencx m) s = .next t ∧
        t = { s with mode := m, dir := .enc, ctx0 := t.ctx0, chain := t.chain,
                     buf := List.replicate s.params.bsMax 0, occ := 0, ctxv := true, phase := .active,
                     outLen := 0, err := .ok } ∧
        t.ctx0.take s.blockSize = s.ctxIn.take s.blockSize ∧
        t.chain.take s.blockSize = s.ctxIn.take s.blockSize ∧
        t.ctx0.length = s.params.bsMax ∧ t.chain.length = s.params.bsMax)

/-- 43_context_and_binding.md R139, R142: the three outcomes of BEGINDEC. EngineMisuse rests on the spec's decision D4. -/
def Obligations.BegindecOutcome : Prop :=
  ∀ (m : Mode) (s : State),
    (s.phase ≠ .keyed → exec (.begindec m) s = .next { s with err := .engineMisuse, outLen := 0 }) ∧
    (s.phase = .keyed → s.ctxLen ≠ s.blockSize →
      exec (.begindec m) s = .next { s with err := .invalidContextLength, outLen := 0 }) ∧
    (s.Inv → s.phase = .keyed → s.ctxLen = s.blockSize →
      ∃ t : State, exec (.begindec m) s = .next t ∧
        t = { s with mode := m, dir := .dec, ctx0 := t.ctx0, chain := t.chain,
                     buf := List.replicate s.params.bsMax 0, occ := 0, ctxv := false, phase := .active,
                     outLen := 0, err := .ok } ∧
        t.ctx0.take s.blockSize = s.ctxIn.take s.blockSize ∧
        t.chain.take s.blockSize = s.ctxIn.take s.blockSize ∧
        t.ctx0.length = s.params.bsMax ∧ t.chain.length = s.params.bsMax)

/-- 43_context_and_binding.md R143: a BEGIN command that fails in phase KEYED changes nothing but ERR and OUT_LEN, and the same command with a Context of the right length then opens a session under the same binding. It is the spec's decision D15. -/
def Obligations.FailedBeginKeepsKeyBinding : Prop :=
  ∀ (i : Instr) (m : Mode) (s t : State), i = .beginenc m ∨ i = .beginencx m ∨ i = .begindec m →
    s.Inv → s.phase = .keyed → exec i s = .next t → t.err ≠ .ok →
    t = { s with err := t.err, outLen := 0 } ∧
      ∀ ctx : Bytes, ctx.length = s.blockSize →
        ∃ u : State, exec i (setCtx ctx t) = .next u ∧ u.err = .ok ∧ u.phase = .active ∧
          u.key = s.key ∧ u.alg = s.alg

/-- 40_engine.md R98: at the end of an encryption session, whatever chunks it accepted, CTXV = 1 and CTX_OUT reads the Context of BEGIN; at the end of a decryption session CTXV = 0 and CTX_OUT reads zeros. That a supplied Context reads back too is the spec's decision D10. -/
def Obligations.ContextReadableThroughSession : Prop :=
  ∀ (i : Instr) (m : Mode) (s t u v : State) (cs : List Chunk) (o : Bytes) (cap : Nat),
    i = .beginenc m ∨ i = .beginencx m ∨ i = .begindec m →
    s.Inv → exec i s = .next t → t.err = .ok → feed cs t = some (o, u) → exec .finish (setCap cap u) = .next v →
    v.phase = .done ∧ v.ctx0 = t.ctx0 ∧ v.ctxv = t.ctxv ∧ ctxOut v = ctxOut t ∧
      (i ≠ .begindec m → v.ctxv = true ∧ (ctxOut v).take s.blockSize = t.chainUsed) ∧
      (i = .begindec m → v.ctxv = false ∧ ctxOut v = List.replicate s.params.bsMax 0)

/-! ### UPDATE -/

/-- UPDATE on an accepted chunk (40_engine.md R90, R91, R92): how many blocks it processes, with the hold-back of mode CP direction DEC, how much it writes, and what it retains. -/
def Obligations.UpdateProcessesWholeBlocks : Prop :=
  ∀ (s : State) (chunk : Bytes), UpdateReady s chunk →
    ∃ (t : State) (o : Bytes) (nb : Nat), exec .update s = .next t ∧
      nb = (if s.mode = .cp ∧ s.dir = .dec then
              (if s.occ + s.inLen = 0 then 0 else (s.occ + s.inLen - 1) / s.blockSize)
            else (s.occ + s.inLen) / s.blockSize) ∧
      t = { s with out := t.out, chain := t.chain, buf := t.buf, occ := s.occ + s.inLen - nb * s.blockSize,
                   outLen := nb * s.blockSize, err := .ok } ∧
      outputRun t = some o ∧ o.length = nb * s.blockSize ∧
      t.retained = (s.retained ++ chunk).drop (nb * s.blockSize)

/-- An empty chunk is legal, needs `OUT_CAP ≥ B`, and changes nothing but ERR and OUT_LEN (40_engine.md R90, corner cases). -/
def Obligations.EmptyChunkChangesNothing : Prop :=
  ∀ s : State, s.Inv → s.phase = .active → s.placement.apartForUpdate = true → s.inLen = 0 →
    s.blockSize ≤ s.outCap → exec .update s = .next { s with err := .ok, outLen := 0 }

/-- 60_exceptions.md R168: UPDATE fails with BufferTooSmall exactly when `OUT_CAP < IN_LEN + B`, leaves the state as it was, and takes the same chunk with a larger buffer (the spec's decision D19); FINISH exactly when `OUT_CAP < B`, and the session is over (decision D11); neither writes OUT. -/
def Obligations.BufferTooSmallExactlyBelowMinimum : Prop :=
  ∀ (s : State) (chunk : Bytes), s.Inv → s.phase = .active → s.placement.apartForUpdate = true →
    inOperand s = some chunk →
    (∃ t : State, exec .update s = .next t ∧
      (t.err = .bufferTooSmall ↔ s.outCap < s.inLen + s.blockSize) ∧
      (t.err = .bufferTooSmall → t = { s with err := .bufferTooSmall, outLen := 0 } ∧
        ∀ cap, s.inLen + s.blockSize ≤ cap → cap < 2 ^ s.params.lenW →
          ∃ u : State, exec .update (setCap cap t) = .next u ∧ u.err = .ok)) ∧
    (∃ t : State, exec .finish s = .next t ∧
      (t.err = .bufferTooSmall ↔ s.outCap < s.blockSize) ∧
      (t.err = .bufferTooSmall → t.phase = .done ∧ t.outLen = 0 ∧ t.out = s.out))

/-- The run of an UPDATE is at most `IN_LEN + B - 1` bytes, so it fits the capacity (40_engine.md R93). -/
def Obligations.UpdateOutputFitsCapacity : Prop :=
  ∀ s t : State, s.Inv → s.phase = .active → exec .update s = .next t →
    t.outLen + 1 ≤ s.inLen + s.blockSize ∧ (t.err = .ok → t.outLen ≤ s.outCap)

/-- 41_chained_padded.md R110 under UPDATE: each output block is `E` of the input block against the output block before it, the chaining state before the first; the last output block is the next chaining state. -/
def Obligations.UpdateEncryptsChained : Prop :=
  ∀ (s : State) (chunk : Bytes), UpdateReady s chunk → s.mode = .cp → s.dir = .enc →
    ∃ (t : State) (o : Bytes) (nb : Nat), exec .update s = .next t ∧ outputRun t = some o ∧
      o.length = nb * s.blockSize ∧ nb = (s.occ + s.inLen) / s.blockSize ∧
      (∀ j, j < nb → blockAt s.blockSize o j =
        s.E (xorBytes (blockAt s.blockSize (s.retained ++ chunk) j) (prevBlock s.blockSize s.chainUsed o j))) ∧
      t.chainUsed = prevBlock s.blockSize s.chainUsed o nb

/-- 41_chained_padded.md R111 under UPDATE: each output block is `D` of the input block against the input block before it, the chaining state before the first; the last input block processed is the next chaining state. -/
def Obligations.UpdateDecryptsChained : Prop :=
  ∀ (s : State) (chunk : Bytes), UpdateReady s chunk → s.mode = .cp → s.dir = .dec →
    ∃ (t : State) (o : Bytes) (nb : Nat), exec .update s = .next t ∧ outputRun t = some o ∧
      o.length = nb * s.blockSize ∧ nb = (s.occ + s.inLen - 1) / s.blockSize ∧
      (∀ j, j < nb → blockAt s.blockSize o j =
        xorBytes (s.D (blockAt s.blockSize (s.retained ++ chunk) j))
          (prevBlock s.blockSize s.chainUsed (s.retained ++ chunk) j)) ∧
      t.chainUsed = prevBlock s.blockSize s.chainUsed (s.retained ++ chunk) nb

/-- 42_counter.md R125 under UPDATE, in both directions: output block `j` is the input block against `E` of the counter `j` further on, and the counter moves on by one a block. That the counter is the whole block and wraps is the spec's decision D14, log 14. -/
def Obligations.UpdateCounter : Prop :=
  ∀ (s : State) (chunk : Bytes), UpdateReady s chunk → s.mode = .ctr →
    ∃ (t : State) (o : Bytes) (nb : Nat), exec .update s = .next t ∧ outputRun t = some o ∧
      o.length = nb * s.blockSize ∧ nb = (s.occ + s.inLen) / s.blockSize ∧
      (∀ j, j < nb → blockAt s.blockSize o j =
        xorBytes (blockAt s.blockSize (s.retained ++ chunk) j)
          (s.E (int2be ((be2int s.chainUsed + j) % 256 ^ s.blockSize) s.blockSize))) ∧
      t.chainUsed = int2be ((be2int s.chainUsed + nb) % 256 ^ s.blockSize) s.blockSize

/-- The frame of UPDATE (40_engine.md R90 "Flags written", R106; 20_memory.md R51, R52): it writes CHAIN, BUF, OCC, OUT_LEN and ERR; of OUT only the processed blocks, from index 0 on; of IN nothing. That a failed UPDATE leaves the session as it was is the spec's decision D19. -/
def Obligations.UpdateFrame : Prop :=
  ∀ s t : State, s.Inv → exec .update s = .next t →
    t = { s with out := t.out, chain := t.chain, buf := t.buf, occ := t.occ, outLen := t.outLen, err := t.err } ∧
      (t.err ≠ .ok → t = { s with outLen := 0, err := t.err }) ∧
      (∀ (chunk : Bytes) (a : Nat), t.err = .ok → inOperand s = some chunk →
        updateBlocks s chunk * s.blockSize ≤ a → Memory.read t.out a = Memory.read s.out a)

/-! ### FINISH -/

/-- 40_engine.md R97: a FINISH accepted in phase ACTIVE ends the session and clears KEY, CHAIN, BUF and OCC whatever its result, and every UPDATE or FINISH after it is EngineMisuse. The failing case is the spec's decision D11, the clearing D7. -/
def Obligations.FinishIsTerminal : Prop :=
  ∀ s : State, s.phase = .active → s.placement.apartForUpdate = true →
    ∃ t : State, exec .finish s = .next t ∧ t.phase = .done ∧ t.key = [] ∧
      t.chain = List.replicate s.params.bsMax 0 ∧ t.buf = List.replicate s.params.bsMax 0 ∧ t.occ = 0 ∧
      exec .update t = .next { t with err := .engineMisuse, outLen := 0 } ∧
      exec .finish t = .next { t with err := .engineMisuse, outLen := 0 }

/-- 41_chained_padded.md R112: FINISH of a Chained-Padded encryption writes one block, `E` of the retained bytes with `p = B - OCC` bytes of value `p` behind them against CHAIN. -/
def Obligations.FinishPadsLastBlock : Prop :=
  ∀ s : State, FinishReady s → s.mode = .cp → s.dir = .enc →
    ∃ t : State, exec .finish s = .next t ∧ t.phase = .done ∧ t.err = .ok ∧ t.outLen = s.blockSize ∧
      outputRun t = some (s.E (xorBytes
        (s.retained ++ List.replicate (s.blockSize - s.occ) (BitVec.ofNat 8 (s.blockSize - s.occ))) s.chainUsed))

/-- 41_chained_padded.md R113, R115: FINISH of a Chained-Padded decryption succeeds exactly when one whole block is retained and decrypts to a block that ends in a padding, all of whose bytes are checked; it then emits the block minus its padding, and otherwise nothing, with BadPadding. BadPadding for a retained remainder that is no block is the spec's decision D13, OUT untouched after BadPadding is D12, log 14. -/
def Obligations.FinishStripsPadding : Prop :=
  ∀ (s : State) (x : Bytes), FinishReady s → s.mode = .cp → s.dir = .dec →
    x = xorBytes (s.D s.retained) s.chainUsed →
    (s.occ = s.blockSize ∧ EndsInPadding s.blockSize x →
      ∃ t : State, exec .finish s = .next t ∧ t.phase = .done ∧ t.err = .ok ∧
        outputRun t = some (x.take (s.blockSize - (byteAt x (s.blockSize - 1)).toNat)) ∧
        t.outLen = s.blockSize - (byteAt x (s.blockSize - 1)).toNat) ∧
    (¬ (s.occ = s.blockSize ∧ EndsInPadding s.blockSize x) →
      ∃ t : State, exec .finish s = .next t ∧ t.phase = .done ∧ t.err = .badPadding ∧ t.outLen = 0 ∧
        t.out = s.out)

/-- 42_counter.md R127: FINISH in mode CTR, in both directions, emits exactly the retained bytes against the first bytes of the next keystream block. -/
def Obligations.FinishEmitsTail : Prop :=
  ∀ s : State, FinishReady s → s.mode = .ctr →
    ∃ t : State, exec .finish s = .next t ∧ t.phase = .done ∧ t.err = .ok ∧ t.outLen = s.occ ∧
      outputRun t = some (xorBytes s.retained ((s.E s.chainUsed).take s.occ))

/-- The frame of FINISH (40_engine.md R95 "Flags written", R106): it writes PHASE, KEY, CHAIN, BUF, OCC, OUT_LEN and ERR; of OUT only `OUT[0..OUT_LEN)` on success, nothing on failure; IN not at all. The failing case rests on the spec's decisions D7, D11 and D12. -/
def Obligations.FinishFrame : Prop :=
  ∀ s t : State, s.Inv → exec .finish s = .next t →
    t = { s with out := t.out, phase := t.phase, key := t.key, chain := t.chain, buf := t.buf, occ := t.occ,
                 outLen := t.outLen, err := t.err } ∧
      (∀ a, t.outLen ≤ a → Memory.read t.out a = Memory.read s.out a) ∧
      (t.err ≠ .ok → t.out = s.out ∧ t.outLen = 0) ∧ t.outLen ≤ s.blockSize

/-! ### Reset -/

/-- 43_context_and_binding.md R146 and 70_reset_and_hazards.md R190, R191: the RESET command, in every phase, puts every register at the value of 10_state.md R40 and leaves the caller's buffers, the parameters and the random source alone; the reset input does the same. Reset is the spec's decisions D7 and D16; what it does to the model's own fields is log 12. -/
def Obligations.ResetRestoresRegisters : Prop :=
  ∀ s : State, ∃ t : State, exec .reset s = .next t ∧
    t.phase = .idle ∧ t.alg = 0 ∧ t.mode = .cp ∧ t.dir = .enc ∧ t.key = [] ∧
    t.ctx0 = List.replicate s.params.bsMax 0 ∧ t.chain = List.replicate s.params.bsMax 0 ∧
    t.buf = List.replicate s.params.bsMax 0 ∧ t.occ = 0 ∧ t.err = .ok ∧ t.ctxv = false ∧ t.outLen = 0 ∧
    t.inLen = 0 ∧ t.outCap = 0 ∧ t.keyLen = 0 ∧ t.ctxLen = 0 ∧
    t.keyIn = List.replicate s.params.keyMax 0 ∧ t.ctxIn = List.replicate s.params.bsMax 0 ∧
    t.params = s.params ∧ t.inp = s.inp ∧ t.out = s.out ∧ t.draws = s.draws ∧
    ∀ rest : List HostOp, s.params.wf = true →
      step { s with host := .resetInput :: rest } = .next { t with host := rest }

/-- 10_state.md R40: the values after reset, the derived registers among them. The values are the spec's decisions D7 and, for the widths, D3. -/
def Obligations.ResetStateValues : Prop :=
  State.reset.phase = .idle ∧ State.reset.alg = 0 ∧ State.reset.mode = .cp ∧ State.reset.dir = .enc ∧
  State.reset.key = [] ∧ State.reset.ctx0 = List.replicate 16 0 ∧ State.reset.chain = List.replicate 16 0 ∧
  State.reset.buf = List.replicate 16 0 ∧ State.reset.occ = 0 ∧ State.reset.err = .ok ∧
  State.reset.ctxv = false ∧ State.reset.outLen = 0 ∧ State.reset.inLen = 0 ∧ State.reset.outCap = 0 ∧
  State.reset.keyLen = 0 ∧ State.reset.ctxLen = 0 ∧ State.reset.keyIn = List.replicate 32 0 ∧
  State.reset.ctxIn = List.replicate 16 0 ∧ statusWord State.reset = 0 ∧ infoWord State.reset = 0 ∧
  ctxOut State.reset = List.replicate 16 0

/-! ### The invariant and the whole machine -/

/-- The invariant holds after reset (10_state.md R38), of every well-formed instance. The form of the padded byte fields in it is the model's, logs 5 and 11. -/
def Obligations.ResetMeetsInvariant : Prop :=
  State.reset.Inv ∧ ∀ p : Params, p.wf = true → (State.atReset p).Inv

/-- Every step keeps the invariant, whatever the host does (10_state.md R38 items 1, 2, 4, 5; the widths of R20; the canonical form of the data spaces). The form of the padded byte fields in it is the model's, logs 5 and 11. -/
def Obligations.StepKeepsInvariant : Prop :=
  ∀ s t : State, s.Inv → step s = .next t → t.Inv

/-- 60_exceptions.md R176: the transition table. An illegal word raises IllegalCommand and stays; a command not allowed in its phase raises EngineMisuse and stays; an allowed one never does, leads to its target phase when it ends with OK and stays when it fails, except FINISH, which always leads to DONE. Most cells are the spec's decisions D2, D4 and D11. -/
def Obligations.LifecycleTable : Prop :=
  (∀ (s : State) (w : Word), IllegalWord s.params.algTable w →
    runCommand w s = .next { s with err := .illegalCommand, outLen := 0 }) ∧
  (∀ (i : Instr) (s : State), i.wf s.params.algTable = true → HostReady i s →
    (allowedIn i s.phase = false → exec i s = .next { s with err := .engineMisuse, outLen := 0 }) ∧
    (allowedIn i s.phase = true → ∃ t : State, exec i s = .next t ∧ t.err ≠ .engineMisuse ∧
      (t.err = .ok → t.phase = targetPhase i) ∧
      (t.err ≠ .ok → t.phase = if i = .finish then .done else s.phase)))

/-- 60_exceptions.md R174: the error reported is the first in the order IllegalCommand, EngineMisuse, the command's length check, BadPadding. The order is the spec's decision D18. -/
def Obligations.ErrorPriority : Prop :=
  (∀ (s t : State) (w : Word), IllegalWord s.params.algTable w → runCommand w s = .next t →
    t.err = .illegalCommand) ∧
  (∀ (i : Instr) (s t : State), exec i s = .next t →
    (i.wf s.params.algTable = false → t.err = .illegalCommand) ∧
    (i.wf s.params.algTable = true → allowedIn i s.phase = false → t.err = .engineMisuse) ∧
    (i.wf s.params.algTable = true → allowedIn i s.phase = true →
      (∀ e, lengthError i s = some e → t.err = e) ∧
      (lengthError i s = none →
        t.err = .ok ∨ (t.err = .badPadding ∧ i = .finish ∧ s.mode = .cp ∧ s.dir = .dec))))

/-- 60_exceptions.md R170 and 20_memory.md R53: a command that ends with an error leaves OUT_LEN = 0 and OUT as it was, and changes nothing else but ERR, apart from FINISH's terminal effect in phase ACTIVE. It rests on the spec's decisions D4, D7, D11, D12, D15 and D19. -/
def Obligations.FailedCommandsChangeNothingElse : Prop :=
  ∀ (i : Instr) (s t : State), exec i s = .next t → t.err ≠ .ok →
    t.outLen = 0 ∧ t.out = s.out ∧
      (i ≠ .finish ∨ s.phase ≠ .active → t = { s with err := t.err, outLen := 0 }) ∧
      (i = .finish → s.phase = .active →
        t = { s with phase := .done, key := [], chain := List.replicate s.params.bsMax 0,
                     buf := List.replicate s.params.bsMax 0, occ := 0, err := t.err, outLen := 0 })

/-- No command writes OUT at or behind OUT_LEN, and no command's OUT_LEN is above the capacity (20_memory.md R52; 40_engine.md R104; 60_exceptions.md R178). -/
def Obligations.OutputStaysInCapacity : Prop :=
  ∀ (i : Instr) (s t : State), s.Inv → exec i s = .next t →
    t.outLen ≤ s.outCap ∧ (∀ a, t.outLen ≤ a → Memory.read t.out a = Memory.read s.out a) ∧
      (∀ a, a < t.outLen → (Memory.read t.out a).isSome = true)

/-- Which commands write which registers (10_state.md R21, R22, R23, R25, R27, R30, R41; 43_context_and_binding.md R138), and what no command changes during a session. What commands do to the model's own fields is logs 1, 4, 6 and 12. -/
def Obligations.RegisterWriters : Prop :=
  ∀ (i : Instr) (s t : State), exec i s = .next t →
    (t.params = s.params ∧ t.inp = s.inp ∧ t.placement = s.placement ∧ t.host = s.host ∧ t.rdata = s.rdata) ∧
    (i ≠ .reset → t.inLen = s.inLen ∧ t.outCap = s.outCap ∧ t.keyLen = s.keyLen ∧ t.ctxLen = s.ctxLen ∧
      t.keyIn = s.keyIn ∧ t.ctxIn = s.ctxIn) ∧
    (t.alg ≠ s.alg → (∃ a, i = .bindkey a) ∨ i = .reset) ∧
    (t.key ≠ s.key → (∃ a, i = .bindkey a) ∨ i = .finish ∨ i = .reset) ∧
    (t.ctx0 ≠ s.ctx0 ∨ t.mode ≠ s.mode ∨ t.dir ≠ s.dir →
      (∃ a, i = .bindkey a) ∨ (∃ m, i = .beginenc m ∨ i = .beginencx m ∨ i = .begindec m) ∨ i = .reset) ∧
    (t.chain ≠ s.chain ∨ t.buf ≠ s.buf ∨ t.occ ≠ s.occ →
      (∃ m, i = .beginenc m ∨ i = .beginencx m ∨ i = .begindec m) ∨ i = .update ∨ i = .finish ∨ i = .reset) ∧
    (t.out ≠ s.out → i = .update ∨ i = .finish) ∧
    (t.draws ≠ s.draws → ∃ m, i = .beginenc m) ∧
    (t.phase = .keyed → s.phase ≠ .keyed → ∃ a, i = .bindkey a) ∧
    (s.phase = .active → t.phase = .active →
      t.alg = s.alg ∧ t.key = s.key ∧ t.ctx0 = s.ctx0 ∧ t.mode = s.mode ∧ t.dir = s.dir)

/-- CTXV is set by a successful BEGINENC or BEGINENCX, cleared by a successful BINDKEY or BEGINDEC and by RESET, and kept by UPDATE, FINISH and every failing command (10_state.md R28). -/
def Obligations.CtxvFollowsItsRule : Prop :=
  ∀ (i : Instr) (s t : State), exec i s = .next t →
    (t.err ≠ .ok → t.ctxv = s.ctxv) ∧
    (t.err = .ok → (∃ m, i = .beginenc m ∨ i = .beginencx m) → t.ctxv = true) ∧
    (t.err = .ok → (∃ a, i = .bindkey a) ∨ (∃ m, i = .begindec m) ∨ i = .reset → t.ctxv = false) ∧
    (i = .update ∨ i = .finish → t.ctxv = s.ctxv)

/-- Every command writes ERR and OUT_LEN and none reads them: two states that differ only there have the same outcome (10_state.md R28, 60_exceptions.md R175). -/
def Obligations.ResultOfLastCommandIsForgotten : Prop :=
  ∀ (i : Instr) (s : State) (e : Err) (n : Nat), exec i { s with err := e, outLen := n } = exec i s

/-- The engine never reads OUT (20_memory.md R52): with other contents of OUT a command has the same outcome but for the bytes it did not write. -/
def Obligations.OutputBufferIsNeverRead : Prop :=
  ∀ (i : Instr) (s t : State) (o : Memory), s.Inv → exec i s = .next t →
    ∃ o' : Memory, exec i { s with out := o } = .next { t with out := o' } ∧
      (∀ a, a < t.outLen → Memory.read o' a = Memory.read t.out a) ∧
      (∀ a, t.outLen ≤ a → Memory.read o' a = Memory.read o a)

/-- Only UPDATE reads IN, a failing UPDATE reads none of it, and every other command ignores IN_LEN (20_memory.md R51; RESET clears IN_LEN, R40). -/
def Obligations.InputIsReadByUpdateOnly : Prop :=
  ∀ (i : Instr) (s t : State) (m : Memory) (n : Nat), exec i s = .next t →
    (i ≠ .update → i ≠ .reset → exec i { s with inp := m, inLen := n } = .next { t with inp := m, inLen := n }) ∧
    (i = .reset → exec i { s with inp := m, inLen := n } = .next { t with inp := m }) ∧
    (i = .update → t.err ≠ .ok → exec i { s with inp := m } = .next { t with inp := m })

/-- In mode CTR the two directions are the same function (42_counter.md R128). -/
def Obligations.CounterDirectionsAgree : Prop :=
  ∀ (i : Instr) (s t : State) (d : Dir), i = .update ∨ i = .finish → s.mode = .ctr → exec i s = .next t →
    exec i { s with dir := d } = .next { t with dir := d }

/-- 42_counter.md R126: the counter advance adds one to the big-endian value of the whole block modulo `256^B` and keeps its length; so it wraps from `ff…ff` to `00…00`. It is the spec's decision D14, log 14. -/
def Obligations.CounterIncrementWraps : Prop :=
  (∀ c : Bytes, (incCounter c).length = c.length ∧
    be2int (incCounter c) = (be2int c + 1) % 256 ^ c.length) ∧
  (∀ n : Nat, incCounter (List.replicate n 0xff) = List.replicate n 0x00) ∧
  (∀ s t : Bytes, s.length = t.length → be2int s = be2int t → s = t)

/-- Nothing stops a well-formed engine whose host keeps its obligations: every step has a next state (70_reset_and_hazards.md R204, 40_engine.md R104). Refusing overlapping buffers and faulting on input that was not lent are logs 6 and 5. -/
def Obligations.EveryStepCompletes : Prop :=
  ∀ (s : State) (chunk : Bytes), s.params.wf = true → s.placement = .disjoint → inOperand s = some chunk →
    ∃ t : State, step s = .next t

/-! ### Sessions -/

/-- 40_engine.md R100, "the defining correctness property": two partitions of one message, fed with sufficient capacities to one open session, end with the same code and the same output (and the same CTX_OUT where they encrypt), and every UPDATE of both ends with OK. -/
def Obligations.StepSizeIndependence : Prop :=
  ∀ (s : State) (cs ds : List Chunk) (cap : Nat), SessionReady s cap →
    CapacitiesSuffice s cs → CapacitiesSuffice s ds → messageOf cs = messageOf ds →
    (∃ r : SessionResult, session cs cap s = some r ∧ session ds cap s = some r) ∧
      (feed cs s).isSome = true ∧ (feed ds s).isSome = true

/-- The whole-message functions (40_engine.md R101): a fresh session computes CPenc, CPdec or CTRx of its message, whatever the chunks, and hands over what CTX_OUT reads if it encrypts (70_reset_and_hazards.md R205); where CPdec fails, FINISH reports BadPadding and the blocks before the last have been written. The functions are the spec's derivation; it rests on the decisions D12, D13 and D14. -/
def Obligations.SessionComputesWholeMessage : Prop :=
  ∀ (s : State) (cs : List Chunk) (cap : Nat), SessionReady s cap → s.occ = 0 → CapacitiesSuffice s cs →
    (s.mode = .cp → s.dir = .enc →
      session cs cap s = some { err := .ok, output := cpEncWhole s.E s.blockSize s.chainUsed (messageOf cs),
                                  context := some (ctxOut s) }) ∧
    (s.mode = .cp → s.dir = .dec → CpDecAccepts s.D s.blockSize s.chainUsed (messageOf cs) →
      session cs cap s = some { err := .ok, output := cpDecWhole s.D s.blockSize s.chainUsed (messageOf cs),
                                  context := none }) ∧
    (s.mode = .cp → s.dir = .dec → ¬ CpDecAccepts s.D s.blockSize s.chainUsed (messageOf cs) →
      session cs cap s = some { err := .badPadding, output := cpDecFront s.D s.blockSize s.chainUsed (messageOf cs),
                                  context := none }) ∧
    (s.mode = .ctr →
      session cs cap s = some { err := .ok, output := ctrWhole s.E s.blockSize s.chainUsed (messageOf cs),
                                  context := sessionContext s })

/-- The output length laws (40_engine.md R102) of a fresh session that ends with OK, whatever the Block Primitive, the external one included (`session_eq`). The exact formulas are the spec's derivation. -/
def Obligations.OutputLengthLaws : Prop :=
  ∀ (P : Prim) (s : State) (cs : List Chunk) (cap : Nat) (o : Bytes) (ctx : Option Bytes), KeepsLength P →
    SessionReady s cap → s.occ = 0 → CapacitiesSuffice s cs →
    sessionOf P cs cap s = some { err := .ok, output := o, context := ctx } →
    (s.mode = .cp → s.dir = .enc →
      o.length = ((messageOf cs).length / s.blockSize + 1) * s.blockSize ∧
      (messageOf cs).length < o.length ∧ o.length ≤ (messageOf cs).length + s.blockSize) ∧
    (s.mode = .cp → s.dir = .dec →
      o.length < (messageOf cs).length ∧ (messageOf cs).length ≤ o.length + s.blockSize) ∧
    (s.mode = .ctr → o.length = (messageOf cs).length)

/-- 40_engine.md R103: decryption undoes encryption, on the whole-message functions, for every `E` and `D` that keep lengths. The CP case rests on 10_state.md R35, a premise; the CTR case needs nothing of `D`. -/
def Obligations.WholeMessageRoundTrip : Prop :=
  ∀ (E D : Bytes → Bytes) (bs : Nat) (c msg : Bytes), (∀ x, (E x).length = x.length) → 1 ≤ bs → bs ≤ 128 →
    c.length = bs →
    (Inverts D E bs →
      CpDecAccepts D bs c (cpEncWhole E bs c msg) ∧ cpDecWhole D bs c (cpEncWhole E bs c msg) = msg) ∧
    ctrWhole E bs c (ctrWhole E bs c msg) = msg

/-- The round trip on the engine (40_engine.md R103 with R100), whatever the Block Primitive: what one fresh session encrypts, in any chunks, another fresh session under the same key, mode and Context decrypts, in any chunks. The CP case rests on 10_state.md R35, a premise. -/
def Obligations.EngineRoundTrip : Prop :=
  ∀ (P : Prim) (s r : State) (cs ds : List Chunk) (capS capR : Nat) (o : Bytes) (ctx : Option Bytes),
    KeepsLength P →
    SessionReady s capS → SessionReady r capR → s.occ = 0 → r.occ = 0 →
    r.params = s.params → r.alg = s.alg → r.key = s.key → r.mode = s.mode → r.chainUsed = s.chainUsed →
    s.dir = .enc → r.dir = .dec →
    (s.mode = .cp → Inverts (s.decryptBlock P) (s.encryptBlock P) s.blockSize) →
    CapacitiesSuffice s cs → CapacitiesSuffice r ds →
    sessionOf P cs capS s = some { err := .ok, output := o, context := ctx } → messageOf ds = o →
    sessionOf P ds capR r = some { err := .ok, output := messageOf cs, context := none }

/-- 41_chained_padded.md R114 (and 10_state.md R38 item 3): in a Chained-Padded decryption the UPDATE commands succeed; OCC is then 0 exactly for an empty ciphertext and `B` exactly for a positive multiple of `B`, else the remainder; unless it is `B`, FINISH ends with BadPadding. BadPadding as the code is the spec's decision D13. -/
def Obligations.HoldBackOccupancy : Prop :=
  ∀ (s : State) (cs : List Chunk) (cap : Nat), SessionReady s cap → s.mode = .cp → s.dir = .dec → s.occ = 0 →
    CapacitiesSuffice s cs →
    ∃ (o : Bytes) (t : State), feed cs s = some (o, t) ∧ t.phase = .active ∧
      (t.occ = 0 ↔ messageOf cs = []) ∧
      (t.occ = s.blockSize ↔ messageOf cs ≠ [] ∧ (messageOf cs).length % s.blockSize = 0) ∧
      (t.occ ≠ s.blockSize → t.occ = (messageOf cs).length % s.blockSize) ∧
      o.length = (messageOf cs).length - t.occ ∧
      (t.occ ≠ s.blockSize → session cs cap s = some { err := .badPadding, output := o, context := none })

/-- A wrong Context in a Chained-Padded decryption of two or more blocks (41_chained_padded.md R117), whatever `D` is: the verdict is the same, and the first plaintext block is off by the difference of the Contexts and nothing else. It is the spec's derivation. -/
def Obligations.WrongContextDamagesFirstBlockOnly : Prop :=
  ∀ (D : Bytes → Bytes) (bs : Nat) (c c' ct : Bytes), (∀ x, (D x).length = x.length) → 1 ≤ bs →
    c.length = bs → c'.length = bs → 2 * bs ≤ ct.length →
    (CpDecAccepts D bs c' ct ↔ CpDecAccepts D bs c ct) ∧
    (CpDecAccepts D bs c ct →
      cpDecWhole D bs c' ct =
        xorBytes ((cpDecWhole D bs c ct).take bs) (xorBytes c c') ++ (cpDecWhole D bs c ct).drop bs)

/-- The deterministic part of 41_chained_padded.md R118: a change of one ciphertext block flips the same bits of the next plaintext block, whatever `D` is. It is the spec's derivation. -/
def Obligations.CorruptionFlipsNextBlock : Prop :=
  ∀ (D : Bytes → Bytes) (bs j : Nat) (c ct ct' : Bytes), (∀ x, (D x).length = x.length) →
    (j + 2) * bs ≤ ct.length → ct'.length = ct.length →
    blockAt bs ct' (j + 1) = blockAt bs ct (j + 1) →
    plainBlock D bs c ct' (j + 1) =
      xorBytes (plainBlock D bs c ct (j + 1)) (xorBytes (blockAt bs ct j) (blockAt bs ct' j))

/-- "and therefore (both being functions on a finite set) `E(K, D(K, Y)) = Y`" (10_state.md R35). It is the spec's derivation. -/
def Obligations.EncryptUndoesDecrypt : Prop :=
  ∀ (E D : Bytes → Bytes) (bs : Nat), (∀ x, (E x).length = x.length) → (∀ x, (D x).length = x.length) →
    Inverts D E bs → ∀ y : Bytes, y.length = bs → E (D y) = y

/-! ### One-shot pseudo-operations -/

/-- 44_oneshot.md R159 with R157: on an engine with no session open, a one-shot operation whose operands are good returns the whole-message function of its message, which is what every streaming session returns, and delivers it at the front of the caller's buffer; a decryption that fails its padding check delivers nothing. The expansion is the spec's decision D17; the state of the wrapper is log 15. -/
def Obligations.OneShotComputesWholeMessage : Prop :=
  ∀ (s : State) (a : AlgId) (d : AlgDesc) (key ctx msg : Bytes) (m : Mode) (cap : Nat),
    s.Inv → s.phase ≠ .active → s.params.algTable.lookup a = some d → key.length ∈ d.keyLens →
    key.length < 2 ^ 32 → ctx.length = d.blockSize → msg.length + d.blockSize < 2 ^ s.params.lenW →
    let E := Config.blackbox.enc a key
    let D := Config.blackbox.dec a key
    let encWhole := fun c => match m with
      | .cp => cpEncWhole E d.blockSize c msg
      | .ctr => ctrWhole E d.blockSize c msg
    (needCap m .enc d.blockSize msg.length ≤ cap →
      (∃ r, oneShot .encx a key m ctx msg cap s = .next r ∧ r.err = .ok ∧ r.context = some ctx ∧
        r.delivered = encWhole ctx ∧ r.state.out = Memory.writeBytes s.out 0 (encWhole ctx) ∧
        r.state.phase = .done) ∧
      (∃ r, oneShot .enc a key m ctx msg cap s = .next r ∧ r.err = .ok ∧
        r.context = some (Config.draw s.draws d.blockSize) ∧
        r.delivered = encWhole (Config.draw s.draws d.blockSize) ∧
        r.state.out = Memory.writeBytes s.out 0 (encWhole (Config.draw s.draws d.blockSize)) ∧
        r.state.phase = .done)) ∧
    (needCap m .dec d.blockSize msg.length ≤ cap →
      ∃ r, oneShot .dec a key m ctx msg cap s = .next r ∧ r.context = none ∧ r.state.phase = .done ∧
        (m = .ctr → r.err = .ok ∧ r.delivered = ctrWhole E d.blockSize ctx msg) ∧
        (m = .cp → CpDecAccepts D d.blockSize ctx msg →
          r.err = .ok ∧ r.delivered = cpDecWhole D d.blockSize ctx msg) ∧
        (m = .cp → ¬ CpDecAccepts D d.blockSize ctx msg → r.err = .badPadding ∧ r.delivered = []) ∧
        r.state.out = Memory.writeBytes s.out 0 r.delivered)

/-- 44_oneshot.md R158: the errors of a one-shot operation in the order they are detected, the engine in no session before; on every error the caller's buffer is unchanged. The order is the spec's decision D17. Keys and Contexts of 2^32 bytes or more are left out: which count is written for them is the model's choice, log 18. -/
def Obligations.OneShotErrorsInOrder : Prop :=
  ∀ (s : State) (r : Role) (a : AlgId) (key ctx msg : Bytes) (m : Mode) (cap : Nat),
    s.Inv → s.phase ≠ .active → key.length < 2 ^ 32 → ctx.length < 2 ^ 32 →
    (∀ x, oneShot r a key m ctx msg cap s = .next x → x.err ≠ .ok →
      x.delivered = [] ∧ x.state.out = s.out ∧ x.err ≠ .engineMisuse) ∧
    (s.params.algTable.lookup a = none →
      ∃ x, oneShot r a key m ctx msg cap s = .next x ∧ x.err = .illegalCommand) ∧
    (∀ d, s.params.algTable.lookup a = some d →
      (key.length ∉ d.keyLens →
        ∃ x, oneShot r a key m ctx msg cap s = .next x ∧ x.err = .invalidKeyLength) ∧
      (key.length ∈ d.keyLens → r ≠ .enc → ctx.length ≠ d.blockSize →
        ∃ x, oneShot r a key m ctx msg cap s = .next x ∧ x.err = .invalidContextLength ∧
          x.state.phase = .keyed) ∧
      (key.length ∈ d.keyLens → (r ≠ .enc → ctx.length = d.blockSize) →
        cap < needCap m r.dir d.blockSize msg.length →
        ∃ x, oneShot r a key m ctx msg cap s = .next x ∧ x.err = .bufferTooSmall ∧ x.state.phase = .idle) ∧
      (∀ x, key.length ∈ d.keyLens → (r ≠ .enc → ctx.length = d.blockSize) →
        needCap m r.dir d.blockSize msg.length ≤ cap → oneShot r a key m ctx msg cap s = .next x →
        x.err = .ok ∨ (x.err = .badPadding ∧ r = .dec ∧ m = .cp)))

/-- A one-shot operation delivers at most `need` bytes, exactly `need` of them when it encrypts or in mode CTR (44_oneshot.md R156, R157). The reading of the capacity is conflict C3, the expansion decision D17. -/
def Obligations.OneShotFitsItsCapacity : Prop :=
  ∀ (s : State) (r : Role) (a : AlgId) (d : AlgDesc) (key ctx msg : Bytes) (m : Mode) (cap : Nat)
    (x : OneShotResult), s.Inv → s.params.algTable.lookup a = some d →
    oneShot r a key m ctx msg cap s = .next x → x.err = .ok →
    x.delivered.length ≤ needCap m r.dir d.blockSize msg.length ∧
      needCap m r.dir d.blockSize msg.length ≤ cap ∧
      (m = .ctr ∨ r ≠ .dec → x.delivered.length = needCap m r.dir d.blockSize msg.length)

/-! ### The result of a session -/

/-- 70_reset_and_hazards.md R205: the result of a session. A command that fails in phase ACTIVE, FINISH apart, changes nothing of it (a failed UPDATE by the spec's decision D19); it hands over what CTX_OUT reads if it encrypts, and nothing if it decrypts; the FINISH that ends it is the last line it depends on; ended by RESET, never ended or not open, it has none. That a failed BINDKEY or BEGIN leaves the session open is decision D4. -/
def Obligations.SessionResultEndsAtFinish : Prop :=
  ∀ (s : State) (ls : List Line),
    (s.phase ≠ .active → sessionRun ls s = none) ∧
    (∀ (l : Line) (t : State), s.phase = .active → l.instr ≠ .finish → exec l.instr (l.setup s) = .next t →
      t.err ≠ .ok → sessionRun (l :: ls) s = sessionRun ls s) ∧
    (∀ r : SessionResult, sessionRun ls s = some r →
      r.context = (if s.dir = .enc then some (ctxOut s) else none) ∧
        ∀ ms : List Line, sessionRun (ls ++ ms) s = some r) ∧
    ((∀ l ∈ ls, l.instr ≠ .finish) → sessionRun ls s = none ∧ ∀ ms : List Line, sessionRun (ls ++ .reset :: ms) s = none)
end

