-- ==== Sys2Proof/Laws/Bytes.lean ====
section
/-! SUPPORT. The laws of byte strings: lengths, exclusive or, big-endian numbers, registers wider than their used bytes, windows. -/

namespace Sys2Proof.Machine

@[simp] theorem rep_length (v : Byte) (n : Nat) : (rep v n).length = n := by simp [rep]

@[simp] theorem rep_zero (v : Byte) : rep v 0 = [] := rfl

theorem byteAt_rep (v : Byte) (n i : Nat) : byteAt (rep v n) i = if i < n then v else 0 := by
  simp only [byteAt, rep, List.getD_eq_getElem?_getD, List.getElem?_replicate]
  split <;> rfl

@[simp] theorem xorBytes_length (s t : Bytes) : (xorBytes s t).length = min s.length t.length := by
  simp [xorBytes]

@[simp] theorem xorBytes_nil_left (t : Bytes) : xorBytes [] t = [] := rfl

theorem xorBytes_cons (a b : Byte) (s t : Bytes) :
    xorBytes (a :: s) (b :: t) = (a ^^^ b) :: xorBytes s t := rfl

/-- Exclusive or twice with one string is the identity (40_engine.md R105 (4)). -/
theorem xorBytes_cancel (s t : Bytes) (h : s.length ≤ t.length) : xorBytes (xorBytes s t) t = s := by
  induction s generalizing t with
  | nil => rfl
  | cons a s ih =>
    cases t with
    | nil => simp at h
    | cons b t =>
      simp only [xorBytes_cons, List.cons.injEq]
      exact ⟨by rw [BitVec.xor_assoc, BitVec.xor_self, BitVec.xor_zero], ih t (by simpa using h)⟩

theorem xorBytes_comm (s t : Bytes) : xorBytes s t = xorBytes t s := by
  simp only [xorBytes]
  rw [List.zipWith_comm]
  congr
  funext a b
  exact BitVec.xor_comm _ _

theorem xorBytes_assoc (s t u : Bytes) : xorBytes (xorBytes s t) u = xorBytes s (xorBytes t u) := by
  induction s generalizing t u with
  | nil => rfl
  | cons a s ih =>
    cases t with
    | nil => rfl
    | cons b t =>
      cases u with
      | nil => rfl
      | cons c u => simp only [xorBytes_cons, ih, BitVec.xor_assoc]

theorem xorBytes_cancel_left (s t : Bytes) (h : t.length ≤ s.length) : xorBytes s (xorBytes s t) = t := by
  rw [xorBytes_comm s t, xorBytes_comm]
  exact xorBytes_cancel t s h

theorem xorBytes_append (s t u v : Bytes) (h : s.length = u.length) :
    xorBytes (s ++ t) (u ++ v) = xorBytes s u ++ xorBytes t v := by
  simp only [xorBytes]
  exact List.zipWith_append h

theorem xorBytes_take (s t : Bytes) (n : Nat) :
    (xorBytes s t).take n = xorBytes (s.take n) (t.take n) := by
  simp [xorBytes, List.take_zipWith]

theorem xorBytes_drop (s t : Bytes) (n : Nat) :
    (xorBytes s t).drop n = xorBytes (s.drop n) (t.drop n) := by
  simp [xorBytes, List.drop_zipWith]

theorem byteAt_xorBytes (s t : Bytes) (i : Nat) (hs : i < s.length) (ht : i < t.length) :
    byteAt (xorBytes s t) i = byteAt s i ^^^ byteAt t i := by
  simp [byteAt, xorBytes, List.getD_eq_getElem?_getD, hs, ht]

/-! ### Big-endian numbers (00_scope.md R11) -/

@[simp] theorem int2be_length (v n : Nat) : (int2be v n).length = n := by
  induction n with
  | zero => rfl
  | succ n ih => simp [int2be, ih]

theorem be2int_lt (s : Bytes) : be2int s < 256 ^ s.length := by
  induction s with
  | nil => simp [be2int]
  | cons b s ih =>
    have hb : b.toNat < 256 := b.isLt
    simp only [be2int, List.length_cons, Nat.pow_succ]
    calc b.toNat * 256 ^ s.length + be2int s
        < b.toNat * 256 ^ s.length + 256 ^ s.length := by omega
      _ = (b.toNat + 1) * 256 ^ s.length := by ring
      _ ≤ 256 * 256 ^ s.length := Nat.mul_le_mul_right _ hb
      _ = 256 ^ s.length * 256 := Nat.mul_comm _ _

theorem be2int_int2be (v n : Nat) : be2int (int2be v n) = v % 256 ^ n := by
  induction n with
  | zero => simp [int2be, be2int, Nat.mod_one]
  | succ n ih =>
    simp only [int2be, be2int, int2be_length, ih, BitVec.toNat_ofNat]
    have h := Nat.mod_mul (x := v) (a := 256 ^ n) (b := 256)
    rw [← Nat.pow_succ] at h
    rw [h, show (2 : Nat) ^ 8 = 256 from rfl, Nat.mul_comm, Nat.add_comm]

theorem int2be_mod (v n : Nat) : int2be (v % 256 ^ n) n = int2be v n := by
  have key : ∀ k, k ≤ n → int2be (v % 256 ^ n) k = int2be v k := by
    intro k
    induction k with
    | zero => intro _; rfl
    | succ k ih =>
      intro hk
      simp only [int2be, List.cons.injEq]
      refine ⟨?_, ih (by omega)⟩
      apply BitVec.eq_of_toNat_eq
      simp only [BitVec.toNat_ofNat]
      have hd : 256 ^ n = 256 ^ k * 256 ^ (n - k) := by rw [← Nat.pow_add]; congr 1; omega
      rw [hd, Nat.mod_mul_right_div_self]
      have h256 : 256 ∣ 256 ^ (n - k) := by
        have : n - k = (n - k - 1) + 1 := by omega
        rw [this, Nat.pow_succ]; exact Nat.dvd_mul_left _ _
      exact Nat.mod_mod_of_dvd _ h256
  exact key n le_rfl

theorem int2be_be2int (s : Bytes) : int2be (be2int s) s.length = s := by
  induction s with
  | nil => rfl
  | cons b s ih =>
    have hs := be2int_lt s
    have hp : 0 < 256 ^ s.length := Nat.pow_pos (by norm_num)
    simp only [List.length_cons, int2be, be2int, List.cons.injEq]
    constructor
    · rw [Nat.mul_comm, Nat.mul_add_div hp, Nat.div_eq_of_lt hs]
      simp
    · have h2 : (b.toNat * 256 ^ s.length + be2int s) % 256 ^ s.length = be2int s := by
        rw [Nat.mul_comm, Nat.mul_add_mod, Nat.mod_eq_of_lt hs]
      rw [← int2be_mod, h2, ih]

/-! ### Registers wider than what they hold -/

@[simp] theorem padTo_length (n : Nat) (s : Bytes) : (padTo n s).length = n := by
  simp only [padTo, List.length_append, List.length_take, rep_length]; omega

theorem padTo_take (n k : Nat) (s : Bytes) (hk : s.length = k) (hn : k ≤ n) :
    (padTo n s).take k = s := by
  subst hk
  simp only [padTo, List.take_of_length_le hn]
  simp

theorem splice_length (reg v : Bytes) (h : v.length ≤ reg.length) :
    (splice reg v).length = reg.length := by
  simp only [splice, List.length_append, List.length_drop]; omega

@[simp] theorem splice_take (reg v : Bytes) : (splice reg v).take v.length = v := by
  simp [splice]

theorem splice_take_self (reg : Bytes) (n : Nat) : splice reg (reg.take n) = reg := by
  simp only [splice, List.length_take]
  rcases Nat.le_total n reg.length with h | h
  · rw [Nat.min_eq_left h, List.take_append_drop]
  · rw [Nat.min_eq_right h]; simp [List.take_of_length_le h]

/-! ### Windows of 32-bit registers (10_state.md R30) -/

theorem setWindowFrom_length (k : Nat) (v : Word) (i : Nat) (s : Bytes) :
    (setWindowFrom k v i s).length = s.length := by
  induction s generalizing i with
  | nil => rfl
  | cons b s ih => simp [setWindowFrom, ih]

@[simp] theorem setWindow_length (s : Bytes) (k : Nat) (v : Word) : (setWindow s k v).length = s.length :=
  setWindowFrom_length k v 0 s

theorem byteAt_setWindowFrom (k : Nat) (v : Word) (i j : Nat) (s : Bytes) (hj : j < s.length) :
    byteAt (setWindowFrom k v i s) j =
      if (i + j) / 4 = k then v.extractLsb' (8 * ((i + j) % 4)) 8 else byteAt s j := by
  induction s generalizing i j with
  | nil => simp at hj
  | cons b s ih =>
    cases j with
    | zero => simp [setWindowFrom, byteAt]
    | succ j =>
      have := ih (i + 1) j (by simpa using hj)
      simp only [byteAt, setWindowFrom, List.getD_cons_succ] at this ⊢
      rw [this, show i + 1 + j = i + (j + 1) by omega]

theorem byteAt_setWindow (s : Bytes) (k j : Nat) (v : Word) (hj : j < s.length) :
    byteAt (setWindow s k v) j =
      if j / 4 = k then v.extractLsb' (8 * (j % 4)) 8 else byteAt s j := by
  have := byteAt_setWindowFrom k v 0 j s hj
  simpa [setWindow] using this

end Sys2Proof.Machine
end

