-- ==== Sys2Proof/Laws/Encoding.lean ====
section
/-! SUPPORT. The laws of the command word: the fields of an assembled word, a word from its fields, which words the decoder rejects (30_encoding.md R70 to R74). -/

namespace Sys2Proof
open Sys2Proof.Machine

/-- The bits of an assembled word, field by field (30_encoding.md R70). -/
theorem getLsbD_assemble (a : AlgId) (m : BitVec 1) (o : BitVec 4) (i : Nat) :
    (assemble a m o).getLsbD i =
      if i < 4 then o.getLsbD i else if i < 5 then m.getLsbD (i - 4) else if i < 8 then false
      else if i < 12 then a.getLsbD (i - 8) else false := by
  have h1 := BitVec.getLsbD_append (x := (0 : BitVec 20) ++ a ++ (0 : BitVec 3) ++ m) (y := o) (i := i)
  have h2 := BitVec.getLsbD_append (x := (0 : BitVec 20) ++ a ++ (0 : BitVec 3)) (y := m) (i := i - 4)
  have h3 := BitVec.getLsbD_append (x := (0 : BitVec 20) ++ a) (y := (0 : BitVec 3)) (i := i - 4 - 1)
  have h4 := BitVec.getLsbD_append (x := (0 : BitVec 20)) (y := a) (i := i - 4 - 1 - 3)
  refine h1.trans ?_
  rw [h2, h3, h4]
  simp only [show (i - 4 < 1) = (i < 5) by apply propext; omega,
    show (i - 4 - 1 < 3) = (i < 8) by apply propext; omega,
    show i - 4 - 1 - 3 = i - 8 by omega, show (i - 8 < 4) = (i < 12) by apply propext; omega, BitVec.ofNat_eq_ofNat, BitVec.getLsbD_zero]

@[simp] theorem opField_assemble (a : AlgId) (m : BitVec 1) (o : BitVec 4) : opField (assemble a m o) = o := by
  apply BitVec.eq_of_getLsbD_eq; intro i hi
  simp [opField, getLsbD_assemble, hi]

@[simp] theorem modeField_assemble (a : AlgId) (m : BitVec 1) (o : BitVec 4) : modeField (assemble a m o) = m := by
  apply BitVec.eq_of_getLsbD_eq; intro i hi
  obtain rfl : i = 0 := by omega
  simp only [modeField, BitVec.getLsbD_extractLsb', getLsbD_assemble]; simp

@[simp] theorem algField_assemble (a : AlgId) (m : BitVec 1) (o : BitVec 4) : algField (assemble a m o) = a := by
  apply BitVec.eq_of_getLsbD_eq; intro i hi
  simp [algField, getLsbD_assemble, hi, show ¬ 8 + i < 4 by omega, show ¬ 8 + i < 5 by omega,
    show ¬ 8 + i < 8 by omega, show 8 + i < 12 by omega]

@[simp] theorem reservedLow_assemble (a : AlgId) (m : BitVec 1) (o : BitVec 4) :
    reservedLow (assemble a m o) = 0 := by
  apply BitVec.eq_of_getLsbD_eq; intro i hi
  simp [reservedLow, getLsbD_assemble, show ¬ 5 + i < 4 by omega, show ¬ 5 + i < 5 by omega,
    show 5 + i < 8 by omega]

@[simp] theorem reservedHigh_assemble (a : AlgId) (m : BitVec 1) (o : BitVec 4) :
    reservedHigh (assemble a m o) = 0 := by
  apply BitVec.eq_of_getLsbD_eq; intro i hi
  simp [reservedHigh, getLsbD_assemble, show ¬ 12 + i < 4 by omega, show ¬ 12 + i < 5 by omega,
    show ¬ 12 + i < 8 by omega, show ¬ 12 + i < 12 by omega]

theorem modeOfBit_bit (m : Mode) : modeOfBit m.bit = m := by cases m <;> rfl
theorem bit_modeOfBit (b : BitVec 1) : (modeOfBit b).bit = b := by
  revert b; decide

/-- A word with its reserved bits 0 is assembled from its fields. -/
theorem assemble_fields (w : Word) (hl : reservedLow w = 0) (hh : reservedHigh w = 0) :
    assemble (algField w) (modeField w) (opField w) = w := by
  have hl' : ∀ j, j < 3 → w.getLsbD (5 + j) = false := fun j hj => by
    have := congrArg (fun x => x.getLsbD j) hl
    simpa [reservedLow, hj] using this
  have hh' : ∀ j, j < 20 → w.getLsbD (12 + j) = false := fun j hj => by
    have := congrArg (fun x => x.getLsbD j) hh
    simpa [reservedHigh, hj] using this
  apply BitVec.eq_of_getLsbD_eq
  intro i hi
  rw [getLsbD_assemble]
  split
  · rename_i h; simp [opField, h]
  · split
    · obtain rfl : i = 4 := by omega
      simp [modeField]
    · split
      · rw [← hl' (i - 5) (by omega)]; congr 1; omega
      · split
        · simp only [algField, BitVec.getLsbD_extractLsb', show i - 8 < 4 by omega, decide_true, Bool.true_and]
          congr 1; omega
        · rw [← hh' (i - 12) (by omega)]; congr 1; omega

theorem wordBits_op (w : Word) : wordBits w 3 0 = (opField w).toNat := by
  simp [wordBits, opField, BitVec.extractLsb'_toNat]
theorem wordBits_mode (w : Word) : wordBits w 4 4 = (modeField w).toNat := by
  simp [wordBits, modeField, BitVec.extractLsb'_toNat, Nat.shiftRight_eq_div_pow]
theorem wordBits_alg (w : Word) : wordBits w 11 8 = (algField w).toNat := by
  simp [wordBits, algField, BitVec.extractLsb'_toNat, Nat.shiftRight_eq_div_pow]
theorem wordBits_low (w : Word) : wordBits w 7 5 = (reservedLow w).toNat := by
  simp [wordBits, reservedLow, BitVec.extractLsb'_toNat, Nat.shiftRight_eq_div_pow]
theorem wordBits_high (w : Word) : wordBits w 31 12 = (reservedHigh w).toNat := by
  simp [wordBits, reservedHigh, BitVec.extractLsb'_toNat, Nat.shiftRight_eq_div_pow]

theorem bv_ne_zero (n : Nat) (x : BitVec n) : x ≠ 0 ↔ x.toNat ≠ 0 := by
  rw [Ne, Ne, ← BitVec.toNat_inj]; simp

/-- The words the decoder rejects are the words 30_encoding.md R74 calls illegal. -/
theorem illegalWord_iff_decode (t : AlgTable) (w : Word) : IllegalWord t w ↔ ∃ e, decode t w = .error e := by
  unfold IllegalWord decode
  simp only [wordBits_op, wordBits_mode, wordBits_alg, wordBits_low, wordBits_high, bv_ne_zero]
  generalize hlo : (reservedLow w).toNat = lo
  generalize hhi : (reservedHigh w).toNat = hi
  have hop := (opField w).isLt
  have hm := (modeField w).isLt
  by_cases hr : lo ≠ 0 ∨ hi ≠ 0
  · simp only [if_pos hr]; simp [hr]
  · simp only [if_neg hr]
    simp only [decodeK, decodeM, decodeP, bv_ne_zero]
    rw [BitVec.ofNat_toNat, BitVec.setWidth_eq]
    generalize (opField w).toNat = op at *
    generalize (modeField w).toNat = mo at *
    have hm : mo = 0 ∨ mo = 1 := by omega
    have : op = 0 ∨ op = 1 ∨ op = 2 ∨ op = 3 ∨ op = 4 ∨ op = 5 ∨ op = 6 ∨ op = 7 ∨ 8 ≤ op := by omega
    rcases this with h|h|h|h|h|h|h|h|h
    all_goals cases hlk : List.lookup (algField w) t
    all_goals by_cases ha : (algField w).toNat = 0
    all_goals rcases hm with rfl | rfl
    all_goals first
      | (subst h; simp [hr, ha, -List.lookup_eq_none_iff])
      | (split <;> first | omega | simp [h])

end Sys2Proof
end

