-- ==== Sys2Proof/Laws/Memory.lean ====
section
/-! SUPPORT. The laws of the data spaces: read after write, writes leave every other index alone, every operation keeps the canonical form. -/

namespace Sys2Proof.Machine

/-- Every index of a data space is above `k`. -/
def Memory.above (k : Nat) (m : Memory) : Prop := ∀ c ∈ m, k < c.1

theorem Memory.wf_cons (a : Nat) (b : Byte) (m : Memory) :
    Memory.wf ((a, b) :: m) = true ↔ Memory.above a m ∧ Memory.wf m = true := by
  induction m generalizing a b with
  | nil => simp [Memory.wf, Memory.above]
  | cons c m ih =>
    obtain ⟨a', b'⟩ := c
    rw [Memory.wf, Bool.and_eq_true, decide_eq_true_eq]
    constructor
    · rintro ⟨hlt, hw⟩
      refine ⟨?_, hw⟩
      intro c hc
      rcases List.mem_cons.1 hc with rfl | hc
      · exact hlt
      · exact Nat.lt_trans hlt (((ih a' b').1 hw).1 c hc)
    · rintro ⟨ha, hw⟩
      exact ⟨ha (a', b') (by simp), hw⟩

theorem Memory.above_write (k i : Nat) (v : Byte) (m : Memory) (hk : k < i) (h : Memory.above k m) :
    Memory.above k (Memory.write m i v) := by
  induction m with
  | nil => intro c hc; simp [Memory.write] at hc; subst hc; exact hk
  | cons c m ih =>
    obtain ⟨a, b⟩ := c
    have ha : k < a := h (a, b) (by simp)
    have hm : Memory.above k m := fun c hc => h c (by simp [hc])
    rw [Memory.write]
    split
    · intro c hc
      rcases List.mem_cons.1 hc with rfl | hc
      · exact hk
      · exact h c hc
    · split
      · intro c hc
        rcases List.mem_cons.1 hc with rfl | hc
        · exact hk
        · exact hm c hc
      · intro c hc
        rcases List.mem_cons.1 hc with rfl | hc
        · exact ha
        · exact ih hm c hc

theorem Memory.wf_write (m : Memory) (i : Nat) (v : Byte) (h : Memory.wf m = true) :
    Memory.wf (Memory.write m i v) = true := by
  induction m with
  | nil => rfl
  | cons c m ih =>
    obtain ⟨a, b⟩ := c
    obtain ⟨ha, hm⟩ := (Memory.wf_cons a b m).1 h
    rw [Memory.write]
    split
    · rename_i hlt
      refine (Memory.wf_cons _ _ _).2 ⟨?_, h⟩
      intro c hc
      rcases List.mem_cons.1 hc with rfl | hc
      · exact hlt
      · exact Nat.lt_trans hlt (ha c hc)
    · split
      · rename_i heq
        exact (Memory.wf_cons _ _ _).2 ⟨heq ▸ ha, hm⟩
      · exact (Memory.wf_cons _ _ _).2 ⟨Memory.above_write _ _ _ _ (by omega) ha, ih hm⟩

theorem Memory.wf_writeBytes (m : Memory) (off : Nat) (s : Bytes) (h : Memory.wf m = true) :
    Memory.wf (Memory.writeBytes m off s) = true := by
  induction s generalizing m off with
  | nil => exact h
  | cons b s ih => exact ih _ _ (Memory.wf_write _ _ _ h)

theorem Memory.wf_ofBytes (s : Bytes) : Memory.wf (Memory.ofBytes s) = true :=
  Memory.wf_writeBytes [] 0 s rfl

theorem Memory.read_above (k i : Nat) (m : Memory) (h : Memory.above k m) (hi : i ≤ k) :
    Memory.read m i = none := by
  induction m with
  | nil => rfl
  | cons c m ih =>
    obtain ⟨a, b⟩ := c
    have ha : k < a := h (a, b) (by simp)
    rw [Memory.read, if_neg (by omega)]
    exact ih (fun c hc => h c (by simp [hc]))

theorem Memory.read_write_self (m : Memory) (i : Nat) (v : Byte) :
    Memory.read (Memory.write m i v) i = some v := by
  induction m with
  | nil => simp [Memory.write, Memory.read]
  | cons c m ih =>
    obtain ⟨a, b⟩ := c
    rw [Memory.write]
    split
    · simp [Memory.read]
    · split
      · simp [Memory.read]
      · rename_i _ hne
        rw [Memory.read, if_neg hne, ih]

theorem Memory.read_write_other (m : Memory) (i j : Nat) (v : Byte) (h : j ≠ i) :
    Memory.read (Memory.write m i v) j = Memory.read m j := by
  induction m with
  | nil => simp [Memory.write, Memory.read, h]
  | cons c m ih =>
    obtain ⟨a, b⟩ := c
    rw [Memory.write]
    split
    · rw [Memory.read, if_neg h]
    · split
      · rename_i _ heq
        subst heq
        simp [Memory.read, h]
      · simp [Memory.read, ih]

/-- A read after a run of bytes was written: the byte of the run where it lies, the old byte elsewhere. -/
theorem Memory.read_writeBytes (m : Memory) (off : Nat) (s : Bytes) (i : Nat) :
    Memory.read (Memory.writeBytes m off s) i =
      if off ≤ i ∧ i < off + s.length then s[i - off]? else Memory.read m i := by
  induction s generalizing m off with
  | nil => simp [Memory.writeBytes]
  | cons b s ih =>
    rw [Memory.writeBytes, ih]
    by_cases h1 : off + 1 ≤ i ∧ i < off + 1 + s.length
    · rw [if_pos h1, if_pos (by simp only [List.length_cons]; omega)]
      rw [show i - off = (i - (off + 1)) + 1 by omega, List.getElem?_cons_succ]
    · rw [if_neg h1]
      by_cases h2 : i = off
      · subst h2
        rw [Memory.read_write_self, if_pos (by simp), Nat.sub_self, List.getElem?_cons_zero]
      · rw [Memory.read_write_other _ _ _ _ h2, if_neg (by simp only [List.length_cons]; omega)]

/-- An index outside the run reads as before. -/
theorem Memory.read_writeBytes_outside (m : Memory) (off : Nat) (s : Bytes) (i : Nat)
    (h : i < off ∨ off + s.length ≤ i) :
    Memory.read (Memory.writeBytes m off s) i = Memory.read m i := by
  rw [Memory.read_writeBytes, if_neg (by omega)]

theorem Memory.readBytes_eq_some (m : Memory) (off : Nat) (s : Bytes)
    (h : ∀ i, i < s.length → Memory.read m (off + i) = s[i]?) :
    Memory.readBytes m off s.length = some s := by
  induction s generalizing off with
  | nil => rfl
  | cons b s ih =>
    have h0 := h 0 (by simp)
    have hs := ih (off + 1) (fun i hi => by
      have := h (i + 1) (by simpa using hi)
      rw [show off + 1 + i = off + (i + 1) by omega, this, List.getElem?_cons_succ])
    simp only [Nat.add_zero, List.getElem?_cons_zero] at h0
    rw [List.length_cons, Memory.readBytes, h0, hs]

/-- The run just written reads back. -/
theorem Memory.readBytes_writeBytes (m : Memory) (off : Nat) (s : Bytes) :
    Memory.readBytes (Memory.writeBytes m off s) off s.length = some s := by
  apply Memory.readBytes_eq_some
  intro i hi
  rw [Memory.read_writeBytes, if_pos (by omega), Nat.add_sub_cancel_left]

theorem Memory.readBytes_ofBytes (s : Bytes) :
    Memory.readBytes (Memory.ofBytes s) 0 s.length = some s :=
  Memory.readBytes_writeBytes [] 0 s

theorem Memory.readBytes_length (m : Memory) (off n : Nat) (s : Bytes)
    (h : Memory.readBytes m off n = some s) : s.length = n := by
  induction n generalizing off s with
  | zero => simp [Memory.readBytes] at h; subst h; rfl
  | succ n ih =>
    rw [Memory.readBytes] at h
    split at h
    · rename_i b t _ ht
      cases h
      simp [ih _ _ ht]
    · cases h

end Sys2Proof.Machine
end

