-- ==== Sys2Proof/Laws/Modes.lean ====
section
/-! SUPPORT. The laws of the chaining-state machine: lengths, the block loop cut in two, and what it computes block by block in each mode. -/

namespace Sys2Proof.Machine

/-- The Block Primitive maps a block to one of the same length (10_state.md R33). -/
theorem blackbox_enc_length (a : AlgId) (k x : Bytes) : (Config.blackbox.enc a k x).length = x.length := by
  simp [Config.blackbox]

theorem blackbox_dec_length (a : AlgId) (k x : Bytes) : (Config.blackbox.dec a k x).length = x.length := by
  simp [Config.blackbox]

theorem blackbox_keepsLength : KeepsLength Config.blackbox := ⟨blackbox_enc_length, blackbox_dec_length⟩

@[simp] theorem State.E_length (s : State) (x : Bytes) : (s.E x).length = x.length :=
  blackbox_enc_length _ _ _

@[simp] theorem State.D_length (s : State) (x : Bytes) : (s.D x).length = x.length :=
  blackbox_dec_length _ _ _

@[simp] theorem draw_length (n len : Nat) : (Config.draw n len).length = len := by
  simp [Config.draw]

@[simp] theorem incCounter_length (c : Bytes) : (incCounter c).length = c.length := by
  simp [incCounter]

section
variable (E D : Bytes → Bytes) (m : Mode) (d : Dir) (bs : Nat)

/-- Both results of a block step are a block wide. -/
theorem blockStep_length (hE : ∀ x, (E x).length = x.length) (hD : ∀ x, (D x).length = x.length)
    (chain x : Bytes) (hc : chain.length = bs) (hx : x.length = bs) :
    (blockStep E D m d chain x).1.length = bs ∧ (blockStep E D m d chain x).2.length = bs := by
  cases m <;> cases d <;>
    simp [blockStep, cpEncStep, cpDecStep, ctrStep, hE, hD, hc, hx]

/-- The output run of `nb` blocks is `nb` blocks long, and the last chaining state a block wide. -/
theorem blockLoop_length (hE : ∀ x, (E x).length = x.length) (hD : ∀ x, (D x).length = x.length)
    (nb : Nat) (chain t : Bytes) (hc : chain.length = bs) (ht : nb * bs ≤ t.length) :
    (blockLoop E D m d bs nb chain t).1.length = nb * bs ∧
      (blockLoop E D m d bs nb chain t).2.length = bs := by
  induction nb generalizing chain t with
  | zero => simp [blockLoop, hc]
  | succ nb ih =>
    rw [Nat.succ_mul] at ht
    have hx : (t.take bs).length = bs := by simp; omega
    obtain ⟨h1, h2⟩ := blockStep_length E D m d bs hE hD chain (t.take bs) hc hx
    obtain ⟨i1, i2⟩ := ih (blockStep E D m d chain (t.take bs)).2 (t.drop bs) h2 (by simp; omega)
    refine ⟨?_, i2⟩
    rw [blockLoop, List.length_append, h1, i1, Nat.succ_mul, Nat.add_comm]

/-- Bytes behind the blocks the loop processes do not matter. -/
theorem blockLoop_append (nb : Nat) (chain t u : Bytes) (ht : nb * bs ≤ t.length) :
    blockLoop E D m d bs nb chain (t ++ u) = blockLoop E D m d bs nb chain t := by
  induction nb generalizing chain t with
  | zero => rfl
  | succ nb ih =>
    rw [Nat.succ_mul] at ht
    have h1 : (t ++ u).take bs = t.take bs := List.take_append_of_le_length (by omega)
    have h2 : (t ++ u).drop bs = t.drop bs ++ u := List.drop_append_of_le_length (by omega)
    rw [blockLoop, blockLoop, h1, h2, ih _ (t.drop bs) (by simp; omega)]

/-- The loop over `a + b` blocks is the loop over the first `a`, then over the next `b` with the chaining state the first left. -/
theorem blockLoop_add (a b : Nat) (chain t : Bytes) :
    blockLoop E D m d bs (a + b) chain t =
      ((blockLoop E D m d bs a chain t).1 ++
          (blockLoop E D m d bs b (blockLoop E D m d bs a chain t).2 (t.drop (a * bs))).1,
        (blockLoop E D m d bs b (blockLoop E D m d bs a chain t).2 (t.drop (a * bs))).2) := by
  induction a generalizing chain t with
  | zero => simp [blockLoop]
  | succ a ih =>
    have hd : (t.drop bs).drop (a * bs) = t.drop ((a + 1) * bs) := by
      rw [List.drop_drop, Nat.succ_mul, Nat.add_comm]
    rw [Nat.succ_add, blockLoop, ih, blockLoop, hd]
    simp

end

/-! ### Blocks of a string -/

theorem blockAt_zero (bs : Nat) (s : Bytes) : blockAt bs s 0 = s.take bs := by simp [blockAt]

theorem blockAt_succ (bs : Nat) (s : Bytes) (j : Nat) : blockAt bs s (j + 1) = blockAt bs (s.drop bs) j := by
  rw [blockAt, blockAt, List.drop_drop, Nat.succ_mul, Nat.add_comm]

theorem blockAt_length (bs : Nat) (s : Bytes) (j : Nat) (h : (j + 1) * bs ≤ s.length) :
    (blockAt bs s j).length = bs := by
  rw [Nat.succ_mul] at h
  simp only [blockAt, List.length_take, List.length_drop]; omega

theorem blockAt_append_left (bs : Nat) (s t : Bytes) (j : Nat) (h : (j + 1) * bs ≤ s.length) :
    blockAt bs (s ++ t) j = blockAt bs s j := by
  rw [Nat.succ_mul] at h
  rw [blockAt, blockAt, List.drop_append_of_le_length (by omega),
    List.take_append_of_le_length (by simp; omega)]

/-- A block in the second part of a concatenation, the first part being a block wide. -/
theorem blockAt_append_block (bs : Nat) (x t : Bytes) (j : Nat) (hx : x.length = bs) :
    blockAt bs (x ++ t) (j + 1) = blockAt bs t j := by
  rw [blockAt_succ, ← hx, List.drop_left]

/-! ### The loop block by block -/

/-- Mode CP, direction ENC: every output block is `E` of the input block against the block before it (41_chained_padded.md R110). -/
theorem cpEnc_loop_block (E D : Bytes → Bytes) (bs : Nat) (hE : ∀ x, (E x).length = x.length)
    (nb : Nat) (chain t : Bytes) (hc : chain.length = bs) (ht : nb * bs ≤ t.length) :
    (∀ j, j < nb → blockAt bs (blockLoop E D .cp .enc bs nb chain t).1 j =
        E (xorBytes (blockAt bs t j) (prevBlock bs chain (blockLoop E D .cp .enc bs nb chain t).1 j))) ∧
      (blockLoop E D .cp .enc bs nb chain t).2 =
        prevBlock bs chain (blockLoop E D .cp .enc bs nb chain t).1 nb := by
  induction nb generalizing chain t with
  | zero => exact ⟨fun j hj => absurd hj (Nat.not_lt_zero j), rfl⟩
  | succ nb ih =>
    rw [Nat.succ_mul] at ht
    have hx : (t.take bs).length = bs := by simp; omega
    have hy : (E (xorBytes (t.take bs) chain)).length = bs := by simp [hE, hx, hc]
    obtain ⟨h1, h2⟩ := ih (E (xorBytes (t.take bs) chain)) (t.drop bs) hy (by simp; omega)
    simp only [blockLoop, blockStep, cpEncStep]
    generalize (blockLoop E D .cp .enc bs nb (E (xorBytes (t.take bs) chain)) (t.drop bs)) = r at h1 h2 ⊢
    have hprev : ∀ j, prevBlock bs chain (E (xorBytes (t.take bs) chain) ++ r.1) (j + 1) =
        prevBlock bs (E (xorBytes (t.take bs) chain)) r.1 j := by
      intro j
      cases j with
      | zero => rw [prevBlock, prevBlock, blockAt_zero, List.take_left' hy]
      | succ j => rw [prevBlock, prevBlock, blockAt_append_block _ _ _ _ hy]
    refine ⟨?_, by rw [hprev, h2]⟩
    intro j hj
    cases j with
    | zero => rw [blockAt_zero, blockAt_zero, prevBlock, List.take_left' hy]
    | succ j => rw [hprev, blockAt_append_block _ _ _ _ hy, blockAt_succ, h1 j (by omega)]

/-- Mode CP, direction DEC: every output block is `D` of the input block against the input block before it (41_chained_padded.md R111). -/
theorem cpDec_loop_block (E D : Bytes → Bytes) (bs : Nat) (hD : ∀ x, (D x).length = x.length)
    (nb : Nat) (chain t : Bytes) (hc : chain.length = bs) (ht : nb * bs ≤ t.length) :
    (∀ j, j < nb → blockAt bs (blockLoop E D .cp .dec bs nb chain t).1 j = plainBlock D bs chain t j) ∧
      (blockLoop E D .cp .dec bs nb chain t).2 = prevBlock bs chain t nb := by
  induction nb generalizing chain t with
  | zero => exact ⟨fun j hj => absurd hj (Nat.not_lt_zero j), rfl⟩
  | succ nb ih =>
    rw [Nat.succ_mul] at ht
    have hx : (t.take bs).length = bs := by simp; omega
    have hy : (xorBytes (D (t.take bs)) chain).length = bs := by simp [hD, hx, hc]
    obtain ⟨h1, h2⟩ := ih (t.take bs) (t.drop bs) hx (by simp; omega)
    simp only [blockLoop, blockStep, cpDecStep]
    generalize (blockLoop E D .cp .dec bs nb (t.take bs) (t.drop bs)) = r at h1 h2 ⊢
    have hprev : ∀ j, prevBlock bs chain t (j + 1) = prevBlock bs (t.take bs) (t.drop bs) j := by
      intro j
      cases j with
      | zero => rw [prevBlock, prevBlock, blockAt_zero]
      | succ j => rw [prevBlock, prevBlock, blockAt_succ]
    refine ⟨?_, by rw [hprev, h2]⟩
    intro j hj
    cases j with
    | zero => rw [blockAt_zero, plainBlock, blockAt_zero, prevBlock, List.take_left' hy]
    | succ j =>
      rw [blockAt_append_block _ _ _ _ hy, h1 j (by omega), plainBlock, plainBlock, hprev, blockAt_succ]

/-- The counter after `n` increments (42_counter.md R126, R130). -/
theorem incCounter_eq (c : Bytes) : incCounter c = int2be (be2int c + 1) c.length := by
  rw [incCounter, int2be_mod]

/-- Mode CTR: block `j` is the input block against keystream block `j` counted from the chaining state (42_counter.md R125, R130). -/
theorem ctr_loop_block (E D : Bytes → Bytes) (d : Dir) (bs : Nat) (hE : ∀ x, (E x).length = x.length)
    (nb : Nat) (chain t : Bytes) (hc : chain.length = bs) (ht : nb * bs ≤ t.length) :
    (∀ j, j < nb → blockAt bs (blockLoop E D .ctr d bs nb chain t).1 j =
        xorBytes (blockAt bs t j) (keystreamBlock E bs chain j)) ∧
      (blockLoop E D .ctr d bs nb chain t).2 = int2be ((be2int chain + nb) % 256 ^ bs) bs := by
  have hstep : ∀ c x, blockStep E D .ctr d c x = ctrStep E c x := by intro c x; cases d <;> rfl
  induction nb generalizing chain t with
  | zero =>
    refine ⟨fun j hj => absurd hj (Nat.not_lt_zero j), ?_⟩
    rw [int2be_mod, Nat.add_zero, ← hc, int2be_be2int]; rfl
  | succ nb ih =>
    rw [Nat.succ_mul] at ht
    have hx : (t.take bs).length = bs := by simp; omega
    have hy : (xorBytes (t.take bs) (E chain)).length = bs := by simp [hE, hx, hc]
    have hi : (incCounter chain).length = bs := by simp [hc]
    obtain ⟨h1, h2⟩ := ih (incCounter chain) (t.drop bs) hi (by simp; omega)
    simp only [blockLoop, hstep, ctrStep]
    generalize (blockLoop E D .ctr d bs nb (incCounter chain) (t.drop bs)) = r at h1 h2 ⊢
    have hval : ∀ k, int2be ((be2int (incCounter chain) + k) % 256 ^ bs) bs =
        int2be ((be2int chain + (k + 1)) % 256 ^ bs) bs := by
      intro k
      rw [incCounter_eq, be2int_int2be, hc, Nat.mod_add_mod, Nat.add_assoc, Nat.add_comm 1 k]
    refine ⟨?_, by rw [h2, hval]⟩
    intro j hj
    cases j with
    | zero =>
      rw [blockAt_zero, blockAt_zero, keystreamBlock, int2be_mod, Nat.add_zero, List.take_left' hy]
      rw [← hc, int2be_be2int]
    | succ j => rw [blockAt_append_block _ _ _ _ hy, h1 j (by omega), blockAt_succ, keystreamBlock, keystreamBlock, hval]

/-! ### How many blocks -/

theorem blockCount_mul_le (m : Mode) (d : Dir) (bs t : Nat) : blockCount m d bs t * bs ≤ t := by
  cases m <;> cases d <;> simp only [blockCount]
  · exact Nat.div_mul_le_self _ _
  · split
    · simp
    · exact Nat.le_trans (Nat.div_mul_le_self _ _) (Nat.sub_le _ _)
  · exact Nat.div_mul_le_self _ _
  · exact Nat.div_mul_le_self _ _

/-- What is left behind the processed blocks meets the bound of 10_state.md R24. -/
theorem blockCount_rest (m : Mode) (d : Dir) (bs t : Nat) (hb : 0 < bs) :
    if m = .cp ∧ d = .dec then t - blockCount m d bs t * bs ≤ bs
    else t - blockCount m d bs t * bs < bs := by
  have key : ∀ n, n - n / bs * bs < bs := fun n => by
    have := Nat.mod_lt n hb
    have h2 := Nat.div_add_mod n bs
    rw [Nat.mul_comm] at h2
    omega
  cases m <;> cases d <;> simp only [blockCount]
  · simpa using key t
  · simp only [and_self, if_true]
    split
    · omega
    · have := key (t - 1); omega
  · simpa using key t
  · simpa using key t

end Sys2Proof.Machine
end

