-- ==== Sys2Proof/Laws/Params.lean ====
section
/-! SUPPORT. What a well-formed instance gives: the bounds on the block size and the key lengths of a descriptor it names (00_scope.md R6, R7). -/

namespace Sys2Proof.Machine

theorem lookup_mem (t : AlgTable) (a : AlgId) (d : AlgDesc) (h : t.lookup a = some d) : (a, d) ∈ t := by
  induction t with
  | nil => simp at h
  | cons e t ih =>
    obtain ⟨b, d'⟩ := e
    rw [List.lookup_cons] at h
    split at h
    · rename_i hb
      cases h
      rw [beq_iff_eq] at hb
      simp [hb]
    · simp [ih h]

theorem Params.desc_wf (p : Params) (a : AlgId) (d : AlgDesc) (hp : p.wf = true)
    (h : p.algTable.lookup a = some d) : d.wf p = true := by
  simp only [Params.wf, Bool.and_eq_true, List.all_eq_true] at hp
  exact hp.1 _ (lookup_mem _ _ _ h)

theorem AlgDesc.wf_bounds (p : Params) (d : AlgDesc) (h : d.wf p = true) :
    1 ≤ d.blockSize ∧ d.blockSize ≤ 128 ∧ d.blockSize ≤ p.bsMax ∧
      ∀ k ∈ d.keyLens, 1 ≤ k ∧ k ≤ p.keyMax := by
  simp only [AlgDesc.wf, Bool.and_eq_true, decide_eq_true_eq, List.all_eq_true] at h
  obtain ⟨⟨hb, hm⟩, hk⟩ := h
  simp only [List.contains_iff_mem, List.mem_cons, List.not_mem_nil, or_false] at hb
  refine ⟨by omega, by omega, hm, hk⟩

theorem State.blockSize_of_desc (s : State) (d : AlgDesc) (h : s.desc = some d) :
    s.blockSize = d.blockSize := by
  simp [State.blockSize, h]

/-- Outside phase IDLE the block size is 1 to 128 and fits the block-wide registers. -/
theorem State.Inv.blockSize_bounds {s : State} (h : s.Inv) (hp : s.phase ≠ .idle) :
    1 ≤ s.blockSize ∧ s.blockSize ≤ 128 ∧ s.blockSize ≤ s.params.bsMax := by
  obtain ⟨d, hd⟩ := Option.isSome_iff_exists.1 (h.alg_known hp)
  rw [s.blockSize_of_desc d hd]
  obtain ⟨h1, h2, h3, -⟩ := AlgDesc.wf_bounds _ _ (Params.desc_wf _ _ _ h.params_wf hd)
  exact ⟨h1, h2, h3⟩

/-- In an open session the chaining state is a block wide. -/
theorem State.Inv.chainUsed_length {s : State} (h : s.Inv) (hp : s.phase ≠ .idle) :
    s.chainUsed.length = s.blockSize := by
  have := h.blockSize_bounds hp
  simp only [State.chainUsed, List.length_take, h.chain_width]; omega

/-- In an open session OCC is at most `B`. -/
theorem State.Inv.occ_le {s : State} (h : s.Inv) (hp : s.phase = .active) : s.occ ≤ s.blockSize := by
  have := h.in_session hp
  rw [State.occWithinBound] at this
  split at this <;> omega

/-- The retained bytes are `OCC` many. -/
theorem State.Inv.retained_length {s : State} (h : s.Inv) : s.retained.length = s.occ := by
  simp only [State.retained, List.length_take, h.buf_width]
  rcases hp : s.phase with _ | _ | _ | _
  · rw [h.before_session (.inl hp)]; simp
  · rw [h.before_session (.inr hp)]; simp
  · have h1 := h.occ_le hp
    have h2 := h.blockSize_bounds (by rw [hp]; decide)
    omega
  · rw [(h.after_session hp).1]; simp

end Sys2Proof.Machine
end

