-- ==== Sys2Proof/Laws/State.lean ====
section
/-! SUPPORT. One lemma per field per named update of State, true by rfl, so that no later proof unfolds an update. -/

namespace Sys2Proof.Machine

section
variable (s : State)

@[simp] theorem raise_params (e : Err) : (raise e s).params = s.params := rfl
@[simp] theorem raise_phase (e : Err) : (raise e s).phase = s.phase := rfl
@[simp] theorem raise_alg (e : Err) : (raise e s).alg = s.alg := rfl
@[simp] theorem raise_mode (e : Err) : (raise e s).mode = s.mode := rfl
@[simp] theorem raise_dir (e : Err) : (raise e s).dir = s.dir := rfl
@[simp] theorem raise_key (e : Err) : (raise e s).key = s.key := rfl
@[simp] theorem raise_ctx0 (e : Err) : (raise e s).ctx0 = s.ctx0 := rfl
@[simp] theorem raise_chain (e : Err) : (raise e s).chain = s.chain := rfl
@[simp] theorem raise_buf (e : Err) : (raise e s).buf = s.buf := rfl
@[simp] theorem raise_occ (e : Err) : (raise e s).occ = s.occ := rfl
@[simp] theorem raise_err (e : Err) : (raise e s).err = e := rfl
@[simp] theorem raise_ctxv (e : Err) : (raise e s).ctxv = s.ctxv := rfl
@[simp] theorem raise_outLen (e : Err) : (raise e s).outLen = 0 := rfl
@[simp] theorem raise_inLen (e : Err) : (raise e s).inLen = s.inLen := rfl
@[simp] theorem raise_outCap (e : Err) : (raise e s).outCap = s.outCap := rfl
@[simp] theorem raise_keyLen (e : Err) : (raise e s).keyLen = s.keyLen := rfl
@[simp] theorem raise_ctxLen (e : Err) : (raise e s).ctxLen = s.ctxLen := rfl
@[simp] theorem raise_keyIn (e : Err) : (raise e s).keyIn = s.keyIn := rfl
@[simp] theorem raise_ctxIn (e : Err) : (raise e s).ctxIn = s.ctxIn := rfl
@[simp] theorem raise_inp (e : Err) : (raise e s).inp = s.inp := rfl
@[simp] theorem raise_out (e : Err) : (raise e s).out = s.out := rfl
@[simp] theorem raise_placement (e : Err) : (raise e s).placement = s.placement := rfl
@[simp] theorem raise_host (e : Err) : (raise e s).host = s.host := rfl
@[simp] theorem raise_rdata (e : Err) : (raise e s).rdata = s.rdata := rfl
@[simp] theorem raise_draws (e : Err) : (raise e s).draws = s.draws := rfl

@[simp] theorem openSession_params (m : Mode) (d : Dir) (c : Bytes) : (openSession m d c s).params = s.params := rfl
@[simp] theorem openSession_phase (m : Mode) (d : Dir) (c : Bytes) : (openSession m d c s).phase = .active := rfl
@[simp] theorem openSession_alg (m : Mode) (d : Dir) (c : Bytes) : (openSession m d c s).alg = s.alg := rfl
@[simp] theorem openSession_mode (m : Mode) (d : Dir) (c : Bytes) : (openSession m d c s).mode = m := rfl
@[simp] theorem openSession_dir (m : Mode) (d : Dir) (c : Bytes) : (openSession m d c s).dir = d := rfl
@[simp] theorem openSession_key (m : Mode) (d : Dir) (c : Bytes) : (openSession m d c s).key = s.key := rfl
@[simp] theorem openSession_ctx0 (m : Mode) (d : Dir) (c : Bytes) : (openSession m d c s).ctx0 = padTo s.params.bsMax c := rfl
@[simp] theorem openSession_chain (m : Mode) (d : Dir) (c : Bytes) : (openSession m d c s).chain = padTo s.params.bsMax c := rfl
@[simp] theorem openSession_buf (m : Mode) (d : Dir) (c : Bytes) : (openSession m d c s).buf = rep 0 s.params.bsMax := rfl
@[simp] theorem openSession_occ (m : Mode) (d : Dir) (c : Bytes) : (openSession m d c s).occ = 0 := rfl
@[simp] theorem openSession_err (m : Mode) (d : Dir) (c : Bytes) : (openSession m d c s).err = .ok := rfl
@[simp] theorem openSession_ctxv (m : Mode) (d : Dir) (c : Bytes) : (openSession m d c s).ctxv = decide (d = .enc) := rfl
@[simp] theorem openSession_outLen (m : Mode) (d : Dir) (c : Bytes) : (openSession m d c s).outLen = 0 := rfl
@[simp] theorem openSession_inLen (m : Mode) (d : Dir) (c : Bytes) : (openSession m d c s).inLen = s.inLen := rfl
@[simp] theorem openSession_outCap (m : Mode) (d : Dir) (c : Bytes) : (openSession m d c s).outCap = s.outCap := rfl
@[simp] theorem openSession_keyLen (m : Mode) (d : Dir) (c : Bytes) : (openSession m d c s).keyLen = s.keyLen := rfl
@[simp] theorem openSession_ctxLen (m : Mode) (d : Dir) (c : Bytes) : (openSession m d c s).ctxLen = s.ctxLen := rfl
@[simp] theorem openSession_keyIn (m : Mode) (d : Dir) (c : Bytes) : (openSession m d c s).keyIn = s.keyIn := rfl
@[simp] theorem openSession_ctxIn (m : Mode) (d : Dir) (c : Bytes) : (openSession m d c s).ctxIn = s.ctxIn := rfl
@[simp] theorem openSession_inp (m : Mode) (d : Dir) (c : Bytes) : (openSession m d c s).inp = s.inp := rfl
@[simp] theorem openSession_out (m : Mode) (d : Dir) (c : Bytes) : (openSession m d c s).out = s.out := rfl
@[simp] theorem openSession_placement (m : Mode) (d : Dir) (c : Bytes) : (openSession m d c s).placement = s.placement := rfl
@[simp] theorem openSession_host (m : Mode) (d : Dir) (c : Bytes) : (openSession m d c s).host = s.host := rfl
@[simp] theorem openSession_rdata (m : Mode) (d : Dir) (c : Bytes) : (openSession m d c s).rdata = s.rdata := rfl
@[simp] theorem openSession_draws (m : Mode) (d : Dir) (c : Bytes) : (openSession m d c s).draws = s.draws := rfl

@[simp] theorem bindKey_params (a : AlgId) : (bindKey a s).params = s.params := rfl
@[simp] theorem bindKey_phase (a : AlgId) : (bindKey a s).phase = .keyed := rfl
@[simp] theorem bindKey_alg (a : AlgId) : (bindKey a s).alg = a := rfl
@[simp] theorem bindKey_mode (a : AlgId) : (bindKey a s).mode = .cp := rfl
@[simp] theorem bindKey_dir (a : AlgId) : (bindKey a s).dir = .enc := rfl
@[simp] theorem bindKey_key (a : AlgId) : (bindKey a s).key = keyOperand s := rfl
@[simp] theorem bindKey_ctx0 (a : AlgId) : (bindKey a s).ctx0 = rep 0 s.params.bsMax := rfl
@[simp] theorem bindKey_chain (a : AlgId) : (bindKey a s).chain = s.chain := rfl
@[simp] theorem bindKey_buf (a : AlgId) : (bindKey a s).buf = s.buf := rfl
@[simp] theorem bindKey_occ (a : AlgId) : (bindKey a s).occ = s.occ := rfl
@[simp] theorem bindKey_err (a : AlgId) : (bindKey a s).err = .ok := rfl
@[simp] theorem bindKey_ctxv (a : AlgId) : (bindKey a s).ctxv = false := rfl
@[simp] theorem bindKey_outLen (a : AlgId) : (bindKey a s).outLen = 0 := rfl
@[simp] theorem bindKey_inLen (a : AlgId) : (bindKey a s).inLen = s.inLen := rfl
@[simp] theorem bindKey_outCap (a : AlgId) : (bindKey a s).outCap = s.outCap := rfl
@[simp] theorem bindKey_keyLen (a : AlgId) : (bindKey a s).keyLen = s.keyLen := rfl
@[simp] theorem bindKey_ctxLen (a : AlgId) : (bindKey a s).ctxLen = s.ctxLen := rfl
@[simp] theorem bindKey_keyIn (a : AlgId) : (bindKey a s).keyIn = s.keyIn := rfl
@[simp] theorem bindKey_ctxIn (a : AlgId) : (bindKey a s).ctxIn = s.ctxIn := rfl
@[simp] theorem bindKey_inp (a : AlgId) : (bindKey a s).inp = s.inp := rfl
@[simp] theorem bindKey_out (a : AlgId) : (bindKey a s).out = s.out := rfl
@[simp] theorem bindKey_placement (a : AlgId) : (bindKey a s).placement = s.placement := rfl
@[simp] theorem bindKey_host (a : AlgId) : (bindKey a s).host = s.host := rfl
@[simp] theorem bindKey_rdata (a : AlgId) : (bindKey a s).rdata = s.rdata := rfl
@[simp] theorem bindKey_draws (a : AlgId) : (bindKey a s).draws = s.draws := rfl

@[simp] theorem closeSession_params : (closeSession s).params = s.params := rfl
@[simp] theorem closeSession_phase : (closeSession s).phase = .done := rfl
@[simp] theorem closeSession_alg : (closeSession s).alg = s.alg := rfl
@[simp] theorem closeSession_mode : (closeSession s).mode = s.mode := rfl
@[simp] theorem closeSession_dir : (closeSession s).dir = s.dir := rfl
@[simp] theorem closeSession_key : (closeSession s).key = [] := rfl
@[simp] theorem closeSession_ctx0 : (closeSession s).ctx0 = s.ctx0 := rfl
@[simp] theorem closeSession_chain : (closeSession s).chain = rep 0 s.params.bsMax := rfl
@[simp] theorem closeSession_buf : (closeSession s).buf = rep 0 s.params.bsMax := rfl
@[simp] theorem closeSession_occ : (closeSession s).occ = 0 := rfl
@[simp] theorem closeSession_err : (closeSession s).err = s.err := rfl
@[simp] theorem closeSession_ctxv : (closeSession s).ctxv = s.ctxv := rfl
@[simp] theorem closeSession_outLen : (closeSession s).outLen = s.outLen := rfl
@[simp] theorem closeSession_inLen : (closeSession s).inLen = s.inLen := rfl
@[simp] theorem closeSession_outCap : (closeSession s).outCap = s.outCap := rfl
@[simp] theorem closeSession_keyLen : (closeSession s).keyLen = s.keyLen := rfl
@[simp] theorem closeSession_ctxLen : (closeSession s).ctxLen = s.ctxLen := rfl
@[simp] theorem closeSession_keyIn : (closeSession s).keyIn = s.keyIn := rfl
@[simp] theorem closeSession_ctxIn : (closeSession s).ctxIn = s.ctxIn := rfl
@[simp] theorem closeSession_inp : (closeSession s).inp = s.inp := rfl
@[simp] theorem closeSession_out : (closeSession s).out = s.out := rfl
@[simp] theorem closeSession_placement : (closeSession s).placement = s.placement := rfl
@[simp] theorem closeSession_host : (closeSession s).host = s.host := rfl
@[simp] theorem closeSession_rdata : (closeSession s).rdata = s.rdata := rfl
@[simp] theorem closeSession_draws : (closeSession s).draws = s.draws := rfl

@[simp] theorem acceptChunk_params (P : Prim) (chunk : Bytes) : (acceptChunk P chunk s).params = s.params := rfl
@[simp] theorem acceptChunk_phase (P : Prim) (chunk : Bytes) : (acceptChunk P chunk s).phase = s.phase := rfl
@[simp] theorem acceptChunk_alg (P : Prim) (chunk : Bytes) : (acceptChunk P chunk s).alg = s.alg := rfl
@[simp] theorem acceptChunk_mode (P : Prim) (chunk : Bytes) : (acceptChunk P chunk s).mode = s.mode := rfl
@[simp] theorem acceptChunk_dir (P : Prim) (chunk : Bytes) : (acceptChunk P chunk s).dir = s.dir := rfl
@[simp] theorem acceptChunk_key (P : Prim) (chunk : Bytes) : (acceptChunk P chunk s).key = s.key := rfl
@[simp] theorem acceptChunk_ctx0 (P : Prim) (chunk : Bytes) : (acceptChunk P chunk s).ctx0 = s.ctx0 := rfl
@[simp] theorem acceptChunk_chain (P : Prim) (chunk : Bytes) : (acceptChunk P chunk s).chain = splice s.chain (updateRun P s chunk).2 := rfl
@[simp] theorem acceptChunk_buf (P : Prim) (chunk : Bytes) : (acceptChunk P chunk s).buf = splice s.buf (updateRest s chunk) := rfl
@[simp] theorem acceptChunk_occ (P : Prim) (chunk : Bytes) : (acceptChunk P chunk s).occ = (updateRest s chunk).length := rfl
@[simp] theorem acceptChunk_err (P : Prim) (chunk : Bytes) : (acceptChunk P chunk s).err = .ok := rfl
@[simp] theorem acceptChunk_ctxv (P : Prim) (chunk : Bytes) : (acceptChunk P chunk s).ctxv = s.ctxv := rfl
@[simp] theorem acceptChunk_outLen (P : Prim) (chunk : Bytes) : (acceptChunk P chunk s).outLen = updateBlocks s chunk * s.blockSize := rfl
@[simp] theorem acceptChunk_inLen (P : Prim) (chunk : Bytes) : (acceptChunk P chunk s).inLen = s.inLen := rfl
@[simp] theorem acceptChunk_outCap (P : Prim) (chunk : Bytes) : (acceptChunk P chunk s).outCap = s.outCap := rfl
@[simp] theorem acceptChunk_keyLen (P : Prim) (chunk : Bytes) : (acceptChunk P chunk s).keyLen = s.keyLen := rfl
@[simp] theorem acceptChunk_ctxLen (P : Prim) (chunk : Bytes) : (acceptChunk P chunk s).ctxLen = s.ctxLen := rfl
@[simp] theorem acceptChunk_keyIn (P : Prim) (chunk : Bytes) : (acceptChunk P chunk s).keyIn = s.keyIn := rfl
@[simp] theorem acceptChunk_ctxIn (P : Prim) (chunk : Bytes) : (acceptChunk P chunk s).ctxIn = s.ctxIn := rfl
@[simp] theorem acceptChunk_inp (P : Prim) (chunk : Bytes) : (acceptChunk P chunk s).inp = s.inp := rfl
@[simp] theorem acceptChunk_out (P : Prim) (chunk : Bytes) : (acceptChunk P chunk s).out = Memory.writeBytes s.out 0 (updateRun P s chunk).1 := rfl
@[simp] theorem acceptChunk_placement (P : Prim) (chunk : Bytes) : (acceptChunk P chunk s).placement = s.placement := rfl
@[simp] theorem acceptChunk_host (P : Prim) (chunk : Bytes) : (acceptChunk P chunk s).host = s.host := rfl
@[simp] theorem acceptChunk_rdata (P : Prim) (chunk : Bytes) : (acceptChunk P chunk s).rdata = s.rdata := rfl
@[simp] theorem acceptChunk_draws (P : Prim) (chunk : Bytes) : (acceptChunk P chunk s).draws = s.draws := rfl

@[simp] theorem resetRegisters_params : (resetRegisters s).params = s.params := rfl
@[simp] theorem resetRegisters_phase : (resetRegisters s).phase = .idle := rfl
@[simp] theorem resetRegisters_alg : (resetRegisters s).alg = 0 := rfl
@[simp] theorem resetRegisters_mode : (resetRegisters s).mode = .cp := rfl
@[simp] theorem resetRegisters_dir : (resetRegisters s).dir = .enc := rfl
@[simp] theorem resetRegisters_key : (resetRegisters s).key = [] := rfl
@[simp] theorem resetRegisters_ctx0 : (resetRegisters s).ctx0 = rep 0 s.params.bsMax := rfl
@[simp] theorem resetRegisters_chain : (resetRegisters s).chain = rep 0 s.params.bsMax := rfl
@[simp] theorem resetRegisters_buf : (resetRegisters s).buf = rep 0 s.params.bsMax := rfl
@[simp] theorem resetRegisters_occ : (resetRegisters s).occ = 0 := rfl
@[simp] theorem resetRegisters_err : (resetRegisters s).err = .ok := rfl
@[simp] theorem resetRegisters_ctxv : (resetRegisters s).ctxv = false := rfl
@[simp] theorem resetRegisters_outLen : (resetRegisters s).outLen = 0 := rfl
@[simp] theorem resetRegisters_inLen : (resetRegisters s).inLen = 0 := rfl
@[simp] theorem resetRegisters_outCap : (resetRegisters s).outCap = 0 := rfl
@[simp] theorem resetRegisters_keyLen : (resetRegisters s).keyLen = 0 := rfl
@[simp] theorem resetRegisters_ctxLen : (resetRegisters s).ctxLen = 0 := rfl
@[simp] theorem resetRegisters_keyIn : (resetRegisters s).keyIn = rep 0 s.params.keyMax := rfl
@[simp] theorem resetRegisters_ctxIn : (resetRegisters s).ctxIn = rep 0 s.params.bsMax := rfl
@[simp] theorem resetRegisters_inp : (resetRegisters s).inp = s.inp := rfl
@[simp] theorem resetRegisters_out : (resetRegisters s).out = s.out := rfl
@[simp] theorem resetRegisters_placement : (resetRegisters s).placement = s.placement := rfl
@[simp] theorem resetRegisters_host : (resetRegisters s).host = s.host := rfl
@[simp] theorem resetRegisters_rdata : (resetRegisters s).rdata = s.rdata := rfl
@[simp] theorem resetRegisters_draws : (resetRegisters s).draws = s.draws := rfl

@[simp] theorem setIn_params (chunk : Bytes) : (setIn chunk s).params = s.params := rfl
@[simp] theorem setIn_phase (chunk : Bytes) : (setIn chunk s).phase = s.phase := rfl
@[simp] theorem setIn_alg (chunk : Bytes) : (setIn chunk s).alg = s.alg := rfl
@[simp] theorem setIn_mode (chunk : Bytes) : (setIn chunk s).mode = s.mode := rfl
@[simp] theorem setIn_dir (chunk : Bytes) : (setIn chunk s).dir = s.dir := rfl
@[simp] theorem setIn_key (chunk : Bytes) : (setIn chunk s).key = s.key := rfl
@[simp] theorem setIn_ctx0 (chunk : Bytes) : (setIn chunk s).ctx0 = s.ctx0 := rfl
@[simp] theorem setIn_chain (chunk : Bytes) : (setIn chunk s).chain = s.chain := rfl
@[simp] theorem setIn_buf (chunk : Bytes) : (setIn chunk s).buf = s.buf := rfl
@[simp] theorem setIn_occ (chunk : Bytes) : (setIn chunk s).occ = s.occ := rfl
@[simp] theorem setIn_err (chunk : Bytes) : (setIn chunk s).err = s.err := rfl
@[simp] theorem setIn_ctxv (chunk : Bytes) : (setIn chunk s).ctxv = s.ctxv := rfl
@[simp] theorem setIn_outLen (chunk : Bytes) : (setIn chunk s).outLen = s.outLen := rfl
@[simp] theorem setIn_inLen (chunk : Bytes) : (setIn chunk s).inLen = lenValue s.params chunk.length := rfl
@[simp] theorem setIn_outCap (chunk : Bytes) : (setIn chunk s).outCap = s.outCap := rfl
@[simp] theorem setIn_keyLen (chunk : Bytes) : (setIn chunk s).keyLen = s.keyLen := rfl
@[simp] theorem setIn_ctxLen (chunk : Bytes) : (setIn chunk s).ctxLen = s.ctxLen := rfl
@[simp] theorem setIn_keyIn (chunk : Bytes) : (setIn chunk s).keyIn = s.keyIn := rfl
@[simp] theorem setIn_ctxIn (chunk : Bytes) : (setIn chunk s).ctxIn = s.ctxIn := rfl
@[simp] theorem setIn_inp (chunk : Bytes) : (setIn chunk s).inp = Memory.ofBytes chunk := rfl
@[simp] theorem setIn_out (chunk : Bytes) : (setIn chunk s).out = s.out := rfl
@[simp] theorem setIn_placement (chunk : Bytes) : (setIn chunk s).placement = s.placement := rfl
@[simp] theorem setIn_host (chunk : Bytes) : (setIn chunk s).host = s.host := rfl
@[simp] theorem setIn_rdata (chunk : Bytes) : (setIn chunk s).rdata = s.rdata := rfl
@[simp] theorem setIn_draws (chunk : Bytes) : (setIn chunk s).draws = s.draws := rfl

@[simp] theorem setCap_params (cap : Nat) : (setCap cap s).params = s.params := rfl
@[simp] theorem setCap_phase (cap : Nat) : (setCap cap s).phase = s.phase := rfl
@[simp] theorem setCap_alg (cap : Nat) : (setCap cap s).alg = s.alg := rfl
@[simp] theorem setCap_mode (cap : Nat) : (setCap cap s).mode = s.mode := rfl
@[simp] theorem setCap_dir (cap : Nat) : (setCap cap s).dir = s.dir := rfl
@[simp] theorem setCap_key (cap : Nat) : (setCap cap s).key = s.key := rfl
@[simp] theorem setCap_ctx0 (cap : Nat) : (setCap cap s).ctx0 = s.ctx0 := rfl
@[simp] theorem setCap_chain (cap : Nat) : (setCap cap s).chain = s.chain := rfl
@[simp] theorem setCap_buf (cap : Nat) : (setCap cap s).buf = s.buf := rfl
@[simp] theorem setCap_occ (cap : Nat) : (setCap cap s).occ = s.occ := rfl
@[simp] theorem setCap_err (cap : Nat) : (setCap cap s).err = s.err := rfl
@[simp] theorem setCap_ctxv (cap : Nat) : (setCap cap s).ctxv = s.ctxv := rfl
@[simp] theorem setCap_outLen (cap : Nat) : (setCap cap s).outLen = s.outLen := rfl
@[simp] theorem setCap_inLen (cap : Nat) : (setCap cap s).inLen = s.inLen := rfl
@[simp] theorem setCap_outCap (cap : Nat) : (setCap cap s).outCap = lenValue s.params cap := rfl
@[simp] theorem setCap_keyLen (cap : Nat) : (setCap cap s).keyLen = s.keyLen := rfl
@[simp] theorem setCap_ctxLen (cap : Nat) : (setCap cap s).ctxLen = s.ctxLen := rfl
@[simp] theorem setCap_keyIn (cap : Nat) : (setCap cap s).keyIn = s.keyIn := rfl
@[simp] theorem setCap_ctxIn (cap : Nat) : (setCap cap s).ctxIn = s.ctxIn := rfl
@[simp] theorem setCap_inp (cap : Nat) : (setCap cap s).inp = s.inp := rfl
@[simp] theorem setCap_out (cap : Nat) : (setCap cap s).out = s.out := rfl
@[simp] theorem setCap_placement (cap : Nat) : (setCap cap s).placement = s.placement := rfl
@[simp] theorem setCap_host (cap : Nat) : (setCap cap s).host = s.host := rfl
@[simp] theorem setCap_rdata (cap : Nat) : (setCap cap s).rdata = s.rdata := rfl
@[simp] theorem setCap_draws (cap : Nat) : (setCap cap s).draws = s.draws := rfl

@[simp] theorem setKey_params (key : Bytes) : (setKey key s).params = s.params := rfl
@[simp] theorem setKey_phase (key : Bytes) : (setKey key s).phase = s.phase := rfl
@[simp] theorem setKey_alg (key : Bytes) : (setKey key s).alg = s.alg := rfl
@[simp] theorem setKey_mode (key : Bytes) : (setKey key s).mode = s.mode := rfl
@[simp] theorem setKey_dir (key : Bytes) : (setKey key s).dir = s.dir := rfl
@[simp] theorem setKey_key (key : Bytes) : (setKey key s).key = s.key := rfl
@[simp] theorem setKey_ctx0 (key : Bytes) : (setKey key s).ctx0 = s.ctx0 := rfl
@[simp] theorem setKey_chain (key : Bytes) : (setKey key s).chain = s.chain := rfl
@[simp] theorem setKey_buf (key : Bytes) : (setKey key s).buf = s.buf := rfl
@[simp] theorem setKey_occ (key : Bytes) : (setKey key s).occ = s.occ := rfl
@[simp] theorem setKey_err (key : Bytes) : (setKey key s).err = s.err := rfl
@[simp] theorem setKey_ctxv (key : Bytes) : (setKey key s).ctxv = s.ctxv := rfl
@[simp] theorem setKey_outLen (key : Bytes) : (setKey key s).outLen = s.outLen := rfl
@[simp] theorem setKey_inLen (key : Bytes) : (setKey key s).inLen = s.inLen := rfl
@[simp] theorem setKey_outCap (key : Bytes) : (setKey key s).outCap = s.outCap := rfl
@[simp] theorem setKey_keyLen (key : Bytes) : (setKey key s).keyLen = key.length % 2 ^ 32 := rfl
@[simp] theorem setKey_ctxLen (key : Bytes) : (setKey key s).ctxLen = s.ctxLen := rfl
@[simp] theorem setKey_keyIn (key : Bytes) : (setKey key s).keyIn = (splice s.keyIn key).take s.params.keyMax := rfl
@[simp] theorem setKey_ctxIn (key : Bytes) : (setKey key s).ctxIn = s.ctxIn := rfl
@[simp] theorem setKey_inp (key : Bytes) : (setKey key s).inp = s.inp := rfl
@[simp] theorem setKey_out (key : Bytes) : (setKey key s).out = s.out := rfl
@[simp] theorem setKey_placement (key : Bytes) : (setKey key s).placement = s.placement := rfl
@[simp] theorem setKey_host (key : Bytes) : (setKey key s).host = s.host := rfl
@[simp] theorem setKey_rdata (key : Bytes) : (setKey key s).rdata = s.rdata := rfl
@[simp] theorem setKey_draws (key : Bytes) : (setKey key s).draws = s.draws := rfl

@[simp] theorem setCtx_params (ctx : Bytes) : (setCtx ctx s).params = s.params := rfl
@[simp] theorem setCtx_phase (ctx : Bytes) : (setCtx ctx s).phase = s.phase := rfl
@[simp] theorem setCtx_alg (ctx : Bytes) : (setCtx ctx s).alg = s.alg := rfl
@[simp] theorem setCtx_mode (ctx : Bytes) : (setCtx ctx s).mode = s.mode := rfl
@[simp] theorem setCtx_dir (ctx : Bytes) : (setCtx ctx s).dir = s.dir := rfl
@[simp] theorem setCtx_key (ctx : Bytes) : (setCtx ctx s).key = s.key := rfl
@[simp] theorem setCtx_ctx0 (ctx : Bytes) : (setCtx ctx s).ctx0 = s.ctx0 := rfl
@[simp] theorem setCtx_chain (ctx : Bytes) : (setCtx ctx s).chain = s.chain := rfl
@[simp] theorem setCtx_buf (ctx : Bytes) : (setCtx ctx s).buf = s.buf := rfl
@[simp] theorem setCtx_occ (ctx : Bytes) : (setCtx ctx s).occ = s.occ := rfl
@[simp] theorem setCtx_err (ctx : Bytes) : (setCtx ctx s).err = s.err := rfl
@[simp] theorem setCtx_ctxv (ctx : Bytes) : (setCtx ctx s).ctxv = s.ctxv := rfl
@[simp] theorem setCtx_outLen (ctx : Bytes) : (setCtx ctx s).outLen = s.outLen := rfl
@[simp] theorem setCtx_inLen (ctx : Bytes) : (setCtx ctx s).inLen = s.inLen := rfl
@[simp] theorem setCtx_outCap (ctx : Bytes) : (setCtx ctx s).outCap = s.outCap := rfl
@[simp] theorem setCtx_keyLen (ctx : Bytes) : (setCtx ctx s).keyLen = s.keyLen := rfl
@[simp] theorem setCtx_ctxLen (ctx : Bytes) : (setCtx ctx s).ctxLen = ctx.length % 2 ^ 32 := rfl
@[simp] theorem setCtx_keyIn (ctx : Bytes) : (setCtx ctx s).keyIn = s.keyIn := rfl
@[simp] theorem setCtx_ctxIn (ctx : Bytes) : (setCtx ctx s).ctxIn = (splice s.ctxIn ctx).take s.params.bsMax := rfl
@[simp] theorem setCtx_inp (ctx : Bytes) : (setCtx ctx s).inp = s.inp := rfl
@[simp] theorem setCtx_out (ctx : Bytes) : (setCtx ctx s).out = s.out := rfl
@[simp] theorem setCtx_placement (ctx : Bytes) : (setCtx ctx s).placement = s.placement := rfl
@[simp] theorem setCtx_host (ctx : Bytes) : (setCtx ctx s).host = s.host := rfl
@[simp] theorem setCtx_rdata (ctx : Bytes) : (setCtx ctx s).rdata = s.rdata := rfl
@[simp] theorem setCtx_draws (ctx : Bytes) : (setCtx ctx s).draws = s.draws := rfl

@[simp] theorem stage_params : (stage s).params = s.params := rfl
@[simp] theorem stage_phase : (stage s).phase = s.phase := rfl
@[simp] theorem stage_alg : (stage s).alg = s.alg := rfl
@[simp] theorem stage_mode : (stage s).mode = s.mode := rfl
@[simp] theorem stage_dir : (stage s).dir = s.dir := rfl
@[simp] theorem stage_key : (stage s).key = s.key := rfl
@[simp] theorem stage_ctx0 : (stage s).ctx0 = s.ctx0 := rfl
@[simp] theorem stage_chain : (stage s).chain = s.chain := rfl
@[simp] theorem stage_buf : (stage s).buf = s.buf := rfl
@[simp] theorem stage_occ : (stage s).occ = s.occ := rfl
@[simp] theorem stage_err : (stage s).err = s.err := rfl
@[simp] theorem stage_ctxv : (stage s).ctxv = s.ctxv := rfl
@[simp] theorem stage_outLen : (stage s).outLen = s.outLen := rfl
@[simp] theorem stage_inLen : (stage s).inLen = s.inLen := rfl
@[simp] theorem stage_outCap : (stage s).outCap = s.outCap := rfl
@[simp] theorem stage_keyLen : (stage s).keyLen = s.keyLen := rfl
@[simp] theorem stage_ctxLen : (stage s).ctxLen = s.ctxLen := rfl
@[simp] theorem stage_keyIn : (stage s).keyIn = s.keyIn := rfl
@[simp] theorem stage_ctxIn : (stage s).ctxIn = s.ctxIn := rfl
@[simp] theorem stage_inp : (stage s).inp = s.inp := rfl
@[simp] theorem stage_out : (stage s).out = [] := rfl
@[simp] theorem stage_placement : (stage s).placement = .disjoint := rfl
@[simp] theorem stage_host : (stage s).host = s.host := rfl
@[simp] theorem stage_rdata : (stage s).rdata = s.rdata := rfl
@[simp] theorem stage_draws : (stage s).draws = s.draws := rfl

end

end Sys2Proof.Machine
end

