-- ==== Sys2Proof/Laws/Exec.lean ====
section
/-! SUPPORT. What each meaning can do, said once: the cases of its outcome, with every guard. -/

namespace Sys2Proof.Machine

/-- BINDKEY ends in one of four next states (43_context_and_binding.md R136). -/
theorem execBindkey_cases (a : AlgId) (s : State) :
    (s.params.algTable.lookup a = none ∧ execBindkey a s = .next (raise .illegalCommand s)) ∨
    ∃ d, s.params.algTable.lookup a = some d ∧
      ((s.phase = .active ∧ execBindkey a s = .next (raise .engineMisuse s)) ∨
        (s.phase ≠ .active ∧ s.keyLen ∈ d.keyLens ∧ execBindkey a s = .next (bindKey a s)) ∨
        (s.phase ≠ .active ∧ s.keyLen ∉ d.keyLens ∧ execBindkey a s = .next (raise .invalidKeyLength s))) := by
  rw [execBindkey]
  cases h : s.params.algTable.lookup a with
  | none => exact .inl ⟨rfl, rfl⟩
  | some d =>
    refine .inr ⟨d, rfl, ?_⟩
    by_cases hp : s.phase = .active
    · exact .inl ⟨hp, by simp only [if_pos hp]⟩
    · by_cases hk : s.keyLen ∈ d.keyLens
      · exact .inr (.inl ⟨hp, hk, by simp only [if_neg hp, if_pos hk]⟩)
      · exact .inr (.inr ⟨hp, hk, by simp only [if_neg hp, if_neg hk]⟩)

/-- BEGINENC ends in one of two next states (43_context_and_binding.md R140). -/
theorem execBeginenc_cases (m : Mode) (s : State) :
    (s.phase = .keyed ∧ execBeginenc m s =
        .next { openSession m .enc (Config.draw s.draws s.blockSize) s with draws := s.draws + 1 }) ∨
      (s.phase ≠ .keyed ∧ execBeginenc m s = .next (raise .engineMisuse s)) := by
  rw [execBeginenc, beginencWith]
  by_cases hp : s.phase = .keyed
  · exact .inl ⟨hp, by rw [if_pos hp]⟩
  · exact .inr ⟨hp, by rw [if_neg hp]⟩

/-- A BEGIN command with a supplied Context ends in one of three next states (43_context_and_binding.md R141, R142). -/
theorem beginWithContext_cases (m : Mode) (d : Dir) (s : State) :
    (s.phase = .keyed ∧ s.ctxLen = s.blockSize ∧
        beginWithContext m d s = .next (openSession m d (ctxOperand s) s)) ∨
      (s.phase = .keyed ∧ s.ctxLen ≠ s.blockSize ∧
        beginWithContext m d s = .next (raise .invalidContextLength s)) ∨
      (s.phase ≠ .keyed ∧ beginWithContext m d s = .next (raise .engineMisuse s)) := by
  rw [beginWithContext]
  by_cases hp : s.phase = .keyed
  · by_cases hc : s.ctxLen = s.blockSize
    · exact .inl ⟨hp, hc, by rw [if_pos hp, if_pos hc]⟩
    · exact .inr (.inl ⟨hp, hc, by rw [if_pos hp, if_neg hc]⟩)
  · exact .inr (.inr ⟨hp, by rw [if_neg hp]⟩)

/-- UPDATE is refused, faults, or ends in one of three next states (40_engine.md R90). -/
theorem updateWith_cases (P : Prim) (s : State) :
    (s.placement.apartForUpdate = false ∧ updateWith P s = .refused .overlappingBuffers) ∨
      (s.placement.apartForUpdate = true ∧ s.phase ≠ .active ∧
        updateWith P s = .next (raise .engineMisuse s)) ∨
      (s.placement.apartForUpdate = true ∧ s.phase = .active ∧ s.outCap < s.inLen + s.blockSize ∧
        updateWith P s = .next (raise .bufferTooSmall s)) ∨
      (s.placement.apartForUpdate = true ∧ s.phase = .active ∧ s.inLen + s.blockSize ≤ s.outCap ∧
        inOperand s = none ∧ updateWith P s = .fault .inputNotLent) ∨
      (∃ chunk, s.placement.apartForUpdate = true ∧ s.phase = .active ∧ s.inLen + s.blockSize ≤ s.outCap ∧
        inOperand s = some chunk ∧ updateWith P s = .next (acceptChunk P chunk s)) := by
  rw [updateWith]
  cases ha : s.placement.apartForUpdate with
  | false => exact .inl ⟨rfl, rfl⟩
  | true =>
    by_cases hp : s.phase = .active
    · by_cases hc : s.outCap < s.inLen + s.blockSize
      · exact .inr (.inr (.inl ⟨rfl, hp, hc, by simp [hp, hc]⟩))
      · cases hi : inOperand s with
        | none => exact .inr (.inr (.inr (.inl ⟨rfl, hp, by omega, rfl, by simp [hp, hc]⟩)))
        | some chunk =>
          exact .inr (.inr (.inr (.inr ⟨chunk, rfl, hp, by omega, rfl, by simp [hp, hc]⟩)))
    · exact .inr (.inl ⟨rfl, hp, by simp [hp]⟩)

/-- UPDATE accepts a chunk when the checks pass (40_engine.md R90). -/
theorem updateWith_accepts (P : Prim) (s : State) (chunk : Bytes) (ha : s.placement.apartForUpdate = true)
    (hp : s.phase = .active) (hc : s.inLen + s.blockSize ≤ s.outCap) (hi : inOperand s = some chunk) :
    updateWith P s = .next (acceptChunk P chunk s) := by
  rw [updateWith, ha, hi]
  simp [hp, Nat.not_lt.2 hc]

/-- FINISH is refused or ends in one of two next states (40_engine.md R95). -/
theorem finishWith_cases (P : Prim) (s : State) :
    (s.placement.apartForFinish = false ∧ finishWith P s = .refused .overlappingBuffers) ∨
      (s.placement.apartForFinish = true ∧ s.phase ≠ .active ∧
        finishWith P s = .next (raise .engineMisuse s)) ∨
      (s.placement.apartForFinish = true ∧ s.phase = .active ∧
        finishWith P s = .next (deliver (finishResult P s) s)) := by
  rw [finishWith]
  cases ha : s.placement.apartForFinish with
  | false => exact .inl ⟨rfl, rfl⟩
  | true =>
    by_cases hp : s.phase = .active
    · exact .inr (.inr ⟨rfl, hp, by simp [hp]⟩)
    · exact .inr (.inl ⟨rfl, hp, by simp [hp]⟩)

/-- The end-of-stream function answers bytes or BadPadding (40_engine.md R96). -/
theorem finishMode_cases (E D : Bytes → Bytes) (m : Mode) (d : Dir) (bs : Nat) (chain tail : Bytes) :
    (∃ bytes, finishMode E D m d bs chain tail = .ok bytes) ∨
      (m = .cp ∧ d = .dec ∧ finishMode E D m d bs chain tail = .error .badPadding) := by
  cases m <;> cases d <;> simp only [finishMode]
  · exact .inl ⟨_, rfl⟩
  · rw [finishCpDec]
    split
    · exact .inr ⟨trivial, trivial, rfl⟩
    · split
      · exact .inl ⟨_, rfl⟩
      · exact .inr ⟨trivial, trivial, rfl⟩
  · exact .inl ⟨_, rfl⟩
  · exact .inl ⟨_, rfl⟩

/-- FINISH emits at most `B` bytes (40_engine.md R95, R96). -/
theorem finishMode_length (E D : Bytes → Bytes) (m : Mode) (d : Dir) (bs : Nat) (chain tail bytes : Bytes)
    (hE : ∀ x, (E x).length = x.length) (hc : chain.length = bs) (ht : tail.length ≤ bs)
    (h : finishMode E D m d bs chain tail = .ok bytes) : bytes.length ≤ bs := by
  have hctr : (finishCtr E chain tail).length ≤ bs := by
    rw [finishCtr]; split
    · exact Nat.zero_le _
    · simp only [xorBytes_length]; omega
  cases m <;> cases d <;> simp only [finishMode] at h
  · cases h; simp [finishCpEnc, hE, hc]
  · rw [finishCpDec] at h
    split at h
    · cases h
    · split at h
      · cases h
        simp only [List.length_take, xorBytes_length, hc]; omega
      · cases h
  · cases h; exact hctr
  · cases h; exact hctr

/-- The working string of an accepted chunk is the retained bytes and the chunk (40_engine.md R91). -/
theorem workString_length (s : State) (chunk : Bytes) :
    (workString s chunk).length = s.retained.length + chunk.length := by
  simp [workString]

/-- The lengths of what UPDATE computes in an open session (40_engine.md R90). -/
theorem updateRun_length (P : Prim) (hP : KeepsLength P) (s : State) (chunk : Bytes) (h : s.Inv) (hp : s.phase = .active) :
    (updateRun P s chunk).1.length = updateBlocks s chunk * s.blockSize ∧
      (updateRun P s chunk).2.length = s.blockSize := by
  apply blockLoop_length
  · intro x; exact hP.enc _ _ _
  · intro x; exact hP.dec _ _ _
  · exact h.chainUsed_length (by rw [hp]; decide)
  · exact blockCount_mul_le _ _ _ _

/-- UPDATE reads exactly `IN_LEN` bytes (20_memory.md R51). -/
theorem inOperand_length (s : State) (c : Bytes) (h : inOperand s = some c) : c.length = s.inLen :=
  Memory.readBytes_length _ _ _ _ h

/-- The Context operand is a block wide (30_encoding.md R72). -/
theorem ctxOperand_length (s : State) (hi : s.Inv) (hp : s.phase ≠ .idle) : (ctxOperand s).length = s.blockSize := by
  have := hi.blockSize_bounds hp
  have := hi.ctxIn_width
  simp [ctxOperand]; omega

/-- Buffers that lie apart for UPDATE lie apart for FINISH (20_memory.md R57). -/
theorem apartForFinish_of_apartForUpdate {p : Placement} (ha : p.apartForUpdate = true) : p.apartForFinish = true := by
  simp [Placement.apartForUpdate] at ha; simp [Placement.apartForFinish, ha]

/-- UPDATE below the documented capacity (40_engine.md R93). -/
theorem updateWith_short (P : Prim) (s : State) (ha : s.placement.apartForUpdate = true) (hp : s.phase = .active) (hc : s.outCap < s.inLen + s.blockSize) : updateWith P s = .next (raise .bufferTooSmall s) := by
  rw [updateWith, ha]; simp [hp, hc]

/-- UPDATE on a ready state accepts the chunk (40_engine.md R90). -/
theorem updateWith_ready (P : Prim) (s : State) (c : Bytes) (h : UpdateReady s c) :
    updateWith P s = .next (acceptChunk P c s) :=
  updateWith_accepts _ _ _ h.apart h.active h.capacity h.lent

/-- The working string of a ready state has `OCC + IN_LEN` bytes (40_engine.md R91). -/
theorem workString_length_of_ready (s : State) (c : Bytes) (h : UpdateReady s c) : (workString s c).length = s.occ + s.inLen := by
  rw [workString_length, h.inv.retained_length, inOperand_length _ _ h.lent]

/-- The run an accepted chunk leaves in OUT (20_memory.md R52). -/
theorem outputRun_acceptChunk (P : Prim) (hP : KeepsLength P) (s : State) (c : Bytes) (h : UpdateReady s c) : outputRun (acceptChunk P c s) = some (updateRun P s c).1 := by
  have hl := (updateRun_length P hP s c h.inv h.active).1
  simp only [outputRun, acceptChunk]
  rw [← hl]
  exact Memory.readBytes_writeBytes _ _ _

/-- The chaining state an accepted chunk leaves (10_state.md R25). -/
theorem chainUsed_acceptChunk (P : Prim) (hP : KeepsLength P) (s : State) (c : Bytes) (h : UpdateReady s c) : (acceptChunk P c s).chainUsed = (updateRun P s c).2 := by
  have hl := (updateRun_length P hP s c h.inv h.active).2
  show (splice s.chain (updateRun P s c).2).take s.blockSize = _
  rw [← hl]; exact splice_take _ _

/-- FINISH on a ready state delivers what the end-of-stream function answers (40_engine.md R95, R96). -/
theorem finishWith_ready (P : Prim) (s : State) (h : FinishReady s) :
    finishWith P s =
      .next (deliver (finishMode (s.encryptBlock P) (s.decryptBlock P) s.mode s.dir s.blockSize s.chainUsed s.retained) s) := by
  have := h.capacity
  simp [finishWith, h.apart, h.active, finishResult, Nat.not_lt.2 this]

/-- The run FINISH leaves in OUT (20_memory.md R52). -/
theorem outputRun_deliver (b : Bytes) (s : State) : outputRun (deliver (.ok b) s) = some b := Memory.readBytes_writeBytes _ _ _

/-- The padding check of the engine is the condition of 41_chained_padded.md R113, byte by byte (R115). -/
theorem padOk_iff_endsInPadding (bs : Nat) (x : Bytes) (hx : x.length = bs) : padOk bs x = true ↔ EndsInPadding bs x := by
  subst hx
  simp only [padOk, EndsInPadding, Bool.and_eq_true, decide_eq_true_eq, List.all_eq_true, beq_iff_eq, and_assoc]
  generalize hp : (byteAt x (x.length - 1)).toNat = p
  generalize byteAt x (x.length - 1) = v
  refine and_congr_right fun h1 => and_congr_right fun h2 => ?_
  constructor
  · intro h i hi hl
    apply h
    rw [List.mem_drop_iff_getElem]
    refine ⟨i - (x.length - p), by omega, ?_⟩
    simp [byteAt, hl, show x.length - p + (i - (x.length - p)) = i by omega]
  · intro h b hb
    rw [List.mem_drop_iff_getElem] at hb
    obtain ⟨i, hi, rfl⟩ := hb
    have := h (x.length - p + i) (by omega) (by omega)
    rw [← this]; simp [byteAt, show x.length - p + i < x.length by omega]

/-- Everything a command that answers a next state can have done: it raised an error, or it took the one effect its rule gives it. -/
theorem exec_cases (i : Instr) (s t : State) (he : exec i s = .next t) :
    (∃ e, t = raise e s ∧ e ≠ .ok ∧ e ≠ .badPadding ∧ (i = .finish → s.phase ≠ .active)) ∨
    (∃ a d, i = .bindkey a ∧ s.params.algTable.lookup a = some d ∧ s.phase ≠ .active ∧ s.keyLen ∈ d.keyLens ∧ t = bindKey a s) ∨
    (∃ m, i = .beginenc m ∧ s.phase = .keyed ∧ t = { openSession m .enc (Config.draw s.draws s.blockSize) s with draws := s.draws + 1 }) ∨
    (∃ m, i = .beginencx m ∧ s.phase = .keyed ∧ s.ctxLen = s.blockSize ∧ t = openSession m .enc (ctxOperand s) s) ∨
    (∃ m, i = .begindec m ∧ s.phase = .keyed ∧ s.ctxLen = s.blockSize ∧ t = openSession m .dec (ctxOperand s) s) ∨
    (∃ c, i = .update ∧ s.phase = .active ∧ s.placement.apartForUpdate = true ∧ s.inLen + s.blockSize ≤ s.outCap ∧ inOperand s = some c ∧ t = acceptChunk Config.blackbox c s) ∨
    (i = .finish ∧ s.phase = .active ∧ s.placement.apartForFinish = true ∧ t = deliver (finishResult Config.blackbox s) s) ∨
    (i = .reset ∧ t = resetRegisters s) := by
  cases i with
  | bindkey a =>
    rw [show exec (.bindkey a) s = execBindkey a s from rfl] at he
    rcases execBindkey_cases a s with ⟨_, h1⟩ | ⟨d, hd, ⟨_, h1⟩ | ⟨hp, hk, h1⟩ | ⟨_, _, h1⟩⟩ <;> rw [h1] at he <;> cases he
    · exact .inl ⟨_, rfl, by simp, by simp, by simp⟩
    · exact .inl ⟨_, rfl, by simp, by simp, by simp⟩
    · simp [hd, hp, hk]
    · exact .inl ⟨_, rfl, by simp, by simp, by simp⟩
  | beginenc m =>
    rw [show exec (.beginenc m) s = execBeginenc m s from rfl] at he
    rcases execBeginenc_cases m s with ⟨hp, h1⟩ | ⟨_, h1⟩ <;> rw [h1] at he <;> cases he
    · simp [hp]
    · exact .inl ⟨_, rfl, by simp, by simp, by simp⟩
  | beginencx m =>
    rw [show exec (.beginencx m) s = beginWithContext m .enc s from rfl] at he
    rcases beginWithContext_cases m .enc s with ⟨hp, hc, h1⟩ | ⟨_, _, h1⟩ | ⟨_, h1⟩ <;> rw [h1] at he <;> cases he
    · simp [hp, hc]
    · exact .inl ⟨_, rfl, by simp, by simp, by simp⟩
    · exact .inl ⟨_, rfl, by simp, by simp, by simp⟩
  | begindec m =>
    rw [show exec (.begindec m) s = beginWithContext m .dec s from rfl] at he
    rcases beginWithContext_cases m .dec s with ⟨hp, hc, h1⟩ | ⟨_, _, h1⟩ | ⟨_, h1⟩ <;> rw [h1] at he <;> cases he
    · simp [hp, hc]
    · exact .inl ⟨_, rfl, by simp, by simp, by simp⟩
    · exact .inl ⟨_, rfl, by simp, by simp, by simp⟩
  | update =>
    rcases updateWith_cases Config.blackbox s with ⟨_, h'⟩ | ⟨_, h1, h'⟩ | ⟨_, _, hc, h'⟩ | ⟨_, _, _, _, h'⟩ | ⟨c, h1, h2, h3, h4, h'⟩ <;>
      rw [show exec .update s = updateWith Config.blackbox s from rfl, h'] at he <;> cases he
    · exact .inl ⟨_, rfl, by simp, by simp, by simp⟩
    · exact .inl ⟨_, rfl, by simp, by simp, by simp⟩
    · simp [h1, h2, h3, h4]
  | finish =>
    rcases finishWith_cases Config.blackbox s with ⟨_, h'⟩ | ⟨_, h1, h'⟩ | ⟨h0, hp, h'⟩ <;>
      rw [show exec .finish s = finishWith Config.blackbox s from rfl, h'] at he <;> cases he
    · left; exact ⟨_, rfl, by simp, by simp, fun _ => h1⟩
    · simp [hp, h0]
  | reset => cases he; simp

end Sys2Proof.Machine
end

