-- ==== Sys2Proof/Laws/Invariant.lean ====
section
/-! SUPPORT. Each named update of the state keeps the invariant of 10_state.md R38, said once for each. -/

namespace Sys2Proof.Machine

/-- The run of an accepted chunk is shorter than the chunk and a block, and fits the capacity (40_engine.md R93). -/
theorem acceptChunk_outLen_le (P : Prim) (s : State) (c : Bytes) (hu : UpdateReady s c) :
    (acceptChunk P c s).outLen + 1 ≤ s.inLen + s.blockSize ∧
      (acceptChunk P c s).outLen ≤ s.outCap := by
  have hb := hu.inv.blockSize_bounds (by simp [hu.active])
  have hc := hu.capacity
  have hw := workString_length_of_ready s c hu
  have hm := blockCount_mul_le s.mode s.dir s.blockSize (workString s c).length
  rw [← updateBlocks, hw] at hm
  have hin := hu.inv.in_session hu.active
  have hol : (acceptChunk P c s).outLen = updateBlocks s c * s.blockSize := rfl
  rw [hol]
  have key : updateBlocks s c * s.blockSize + 1 ≤ s.inLen + s.blockSize := by
    rw [State.occWithinBound] at hin
    by_cases hcd : s.mode = .cp ∧ s.dir = .dec
    · rw [if_pos hcd] at hin
      rw [updateBlocks, hcd.1, hcd.2, hw] at hm ⊢
      simp only [blockCount] at hm ⊢
      split
      · omega
      · have := Nat.div_mul_le_self (s.occ + s.inLen - 1) s.blockSize
        omega
    · rw [if_neg hcd] at hin; omega
  exact ⟨key, by omega⟩

/-- Right after reset the invariant holds, of every well-formed instance. -/
theorem atReset_meets_inv (p : Params) (h : p.wf = true) : (State.atReset p).Inv := by
  constructor <;> simp [State.atReset, h, Memory.wf]

/-- `raise` keeps the invariant. -/
theorem raise_keeps_inv (e) (s : State) (h : s.Inv) : (raise e s).Inv := by
  have := h.outLen_fits
  exact { h with outLen_fits := by simp }

/-- An accepted BINDKEY keeps the invariant. -/
theorem bindKey_keeps_inv (a : AlgId) (d) (s : State) (h : s.Inv) (hd : s.params.algTable.lookup a = some d) (hk : s.keyLen ∈ d.keyLens) (hp : s.phase ≠ .active) :
    (bindKey a s).Inv := by
  have hw := AlgDesc.wf_bounds _ _ (Params.desc_wf _ _ _ h.params_wf hd)
  have hocc : s.occ = 0 := by
    cases hph : s.phase
    · exact h.before_session (.inl hph)
    · exact h.before_session (.inr hph)
    · exact absurd hph hp
    · exact (h.after_session hph).1
  refine { h with ctx0_width := by simp [bindKey], outLen_fits := by simp [bindKey], before_session := fun _ => hocc, after_session := by simp [bindKey], in_session := by simp [bindKey], alg_known := fun _ => by show (s.params.algTable.lookup a).isSome = true; simp [hd], key_accepted := fun _ => ⟨d, hd, ?_⟩, ctxv_session := by simp [bindKey] }
  have := (hw.2.2.2 _ hk).2
  have h2 := h.keyIn_width
  have : (bindKey a s).key.length = s.keyLen := by simp [bindKey, keyOperand]; omega
  rw [this]; exact hk

/-- `Open` keeps the invariant. -/
theorem openSession_keeps_inv (m d c) (s : State) (h : s.Inv) (hp : s.phase = .keyed) : (openSession m d c s).Inv := by
  have hb := h.blockSize_bounds (by simp [hp])
  refine { h with ctx0_width := by simp, chain_width := by simp, buf_width := by simp [openSession], outLen_fits := by simp, before_session := by simp, after_session := by simp, in_session := fun _ => ?_, alg_known := fun _ => h.alg_known (by simp [hp]), key_accepted := fun _ => h.key_accepted (.inl hp), ctxv_session := ?_ }
  · show State.occWithinBound _
    have : (openSession m d c s).blockSize = s.blockSize := rfl
    simp only [State.occWithinBound, this]
    simp; intro _; omega
  · simp [openSession]

/-- An accepted UPDATE keeps the invariant. -/
theorem acceptChunk_keeps_inv (P : Prim) (hP : KeepsLength P) (s : State) (c : Bytes) (hu : UpdateReady s c) : (acceptChunk P c s).Inv := by
  have h := hu.inv
  have hb := h.blockSize_bounds (by simp [hu.active])
  have hl := updateRun_length P hP s c h hu.active
  have hr := blockCount_rest s.mode s.dir s.blockSize (workString s c).length hb.1
  have hlen : (updateRest s c).length = (workString s c).length - updateBlocks s c * s.blockSize := by simp [updateRest]
  rw [← updateBlocks, ← hlen] at hr
  have hle : (updateRest s c).length ≤ s.blockSize := by split at hr <;> omega
  have ho := (acceptChunk_outLen_le P s c hu).2
  refine { h with chain_width := ?_, buf_width := ?_, outLen_fits := ?_, out_wf := Memory.wf_writeBytes _ _ _ h.out_wf, before_session := ?_, after_session := ?_, in_session := fun _ => ?_ }
  · show (splice _ _).length = _
    rw [splice_length]; exact h.chain_width
    rw [hl.2, h.chain_width]; exact hb.2.2
  · show (splice _ _).length = _
    rw [splice_length]; exact h.buf_width
    rw [h.buf_width]; omega
  · exact lt_of_le_of_lt ho h.outCap_fits
  · intro hp; have : (acceptChunk P c s).phase = s.phase := rfl
    rw [this, hu.active] at hp; simp at hp
  · intro hp; have : (acceptChunk P c s).phase = s.phase := rfl
    rw [this, hu.active] at hp; simp at hp
  · exact hr

/-- The terminal effect of FINISH keeps the invariant. -/
theorem closeSession_keeps_inv (s : State) (h : s.Inv) (hp : s.phase = .active) : (closeSession s).Inv := by
  refine { h with chain_width := by simp [closeSession], buf_width := by simp [closeSession], before_session := fun _ => rfl, after_session := fun _ => ⟨rfl, rfl, rfl, rfl⟩, in_session := by simp [closeSession], alg_known := fun _ => h.alg_known (by simp [hp]), key_accepted := by simp [closeSession], ctxv_session := fun hv => ⟨.inr rfl, (h.ctxv_session hv).2⟩ }

/-- FINISH keeps the invariant. -/
theorem deliver_keeps_inv (P : Prim) (hP : KeepsLength P) (s : State) (h : s.Inv) (hp : s.phase = .active) : (deliver (finishResult P s) s).Inv := by
  have hc := closeSession_keeps_inv s h hp
  cases hres : finishResult P s with
  | error e => exact raise_keeps_inv _ _ hc
  | ok b =>
    refine { hc with outLen_fits := ?_, out_wf := Memory.wf_writeBytes _ _ _ h.out_wf }
    simp only [finishResult] at hres
    split at hres
    · cases hres
    · have := finishMode_length _ _ _ _ _ _ _ _ (by intro x; exact hP.enc _ _ _) (h.chainUsed_length (by simp [hp])) (by rw [h.retained_length]; exact h.occ_le hp) hres
      have := h.outCap_fits
      show b.length < _
      simp only [deliver, closeSession]; omega

/-- The reset of every register keeps the invariant. -/
theorem resetRegisters_keeps_inv (s : State) (h : s.Inv) : (resetRegisters s).Inv := by
  refine { atReset_meets_inv s.params h.params_wf with inp_wf := h.inp_wf, out_wf := h.out_wf }

/-- A register write keeps the invariant. -/
theorem writeReg_keeps_inv (s : State) (r : Reg) (v : Word) (h' : s.Inv) : (writeReg s r v).Inv := by
  have hl : ∀ v, lenValue s.params v < 2 ^ s.params.lenW := fun v => Nat.mod_lt _ (Nat.two_pow_pos _)
  have hv := v.isLt
  cases r
  all_goals first
          | exact h'
          | exact { h' with inLen_fits := hl _ }
          | exact { h' with outCap_fits := hl _ }
          | exact { h' with keyLen_fits := hv }
          | exact { h' with ctxLen_fits := hv }
          | exact { h' with keyIn_width := by simp [writeReg, h'.keyIn_width] }
          | exact { h' with ctxIn_width := by simp [writeReg, h'.ctxIn_width] }

end Sys2Proof.Machine
end

