-- ==== Sys2Proof/Laws/PerInstr.lean ====
section
/-! SUPPORT. Statements made for every command, one lemma per constructor. -/

namespace Sys2Proof.Laws.ReservedBits

/-- The word of a command has its reserved bits `[7:5]` and `[31:12]` 0 and its opcode in 0x1 to 0x7 (30_encoding.md R70, R73). -/
def Statement (i : Instr) : Prop :=
  reservedLow (encode i) = 0 ∧ reservedHigh (encode i) = 0 ∧ 1 ≤ (opField (encode i)).toNat ∧ (opField (encode i)).toNat ≤ 7

theorem bindkey (alg : AlgId) : Statement (.bindkey alg) := by simp [Statement, encode]

theorem beginenc (mode : Mode) : Statement (.beginenc mode) := by simp [Statement, encode]

theorem beginencx (mode : Mode) : Statement (.beginencx mode) := by simp [Statement, encode]

theorem begindec (mode : Mode) : Statement (.begindec mode) := by simp [Statement, encode]

theorem update : Statement .update := by simp [Statement, encode]

theorem finish : Statement .finish := by simp [Statement, encode]

theorem reset : Statement .reset := by simp [Statement, encode]

end Sys2Proof.Laws.ReservedBits
end

