-- ==== Sys2Proof/Laws/Registers.lean ====
section
/-! SUPPORT. The laws of what the host reads: windows byte by byte, the register map, STATUS and INFO as numbers (10_state.md R28 to R31). -/

namespace Sys2Proof.Machine

/-- The two ways to name byte `j` of a register agree. -/
theorem extractLsb_eq_byteOfWord (v : Word) (j : Nat) : v.extractLsb' (8*j) 8 = byteOfWord v j := by
  apply BitVec.eq_of_toNat_eq
  simp [byteOfWord, BitVec.extractLsb'_toNat, Nat.shiftRight_eq_div_pow, Nat.pow_mul]

/-- Byte `j` of window word `k` is byte `4k + j` of the window (10_state.md R30). -/
theorem byteOfWord_windowWord (s : Bytes) (k j : Nat) (hj : j < 4) : byteOfWord (windowWord s k) j = byteAt s (4*k+j) := by
  rw [← extractLsb_eq_byteOfWord]
  apply BitVec.eq_of_getLsbD_eq; intro i hi
  have hw : ∀ n, (windowWord s k).getLsbD n = if n < 8 then (byteAt s (4*k)).getLsbD n else if n - 8 < 8 then (byteAt s (4*k+1)).getLsbD (n-8) else if n - 8 - 8 < 8 then (byteAt s (4*k+2)).getLsbD (n-8-8) else (byteAt s (4*k+3)).getLsbD (n-8-8-8) := by
    intro n
    have h1 := BitVec.getLsbD_append (x := byteAt s (4 * k + 3) ++ byteAt s (4 * k + 2) ++ byteAt s (4 * k + 1)) (y := byteAt s (4 * k)) (i := n)
    have h2 := BitVec.getLsbD_append (x := byteAt s (4 * k + 3) ++ byteAt s (4 * k + 2)) (y := byteAt s (4 * k + 1)) (i := n - 8)
    have h3 := BitVec.getLsbD_append (x := byteAt s (4 * k + 3)) (y := byteAt s (4 * k + 2)) (i := n - 8 - 8)
    exact h1.trans (by rw [h2, h3])
  rw [BitVec.getLsbD_extractLsb', hw]
  simp only [hi, decide_true, Bool.true_and]
  have : j = 0 ∨ j = 1 ∨ j = 2 ∨ j = 3 := by omega
  rcases this with rfl | rfl | rfl | rfl
  · simp [hi]
  · simp [hi]
  · rw [if_neg (by omega), if_neg (by omega), if_pos (by omega)]; congr 1; omega
  · rw [if_neg (by omega), if_neg (by omega), if_neg (by omega)]; congr 1; omega

/-- The register map above the single registers (10_state.md R29). -/
theorem regOf_window (p : Params) (n : Nat) (h : 8 ≤ n) : regOf p n = if 0x30 ≤ n ∧ n < 0x30 + windowRegs p.bsMax then .ctxOut (n - 0x30)
    else if 0x20 ≤ n ∧ n < 0x20 + windowRegs p.bsMax then .ctxIn (n - 0x20)
    else if 0x10 ≤ n ∧ n < 0x10 + windowRegs p.keyMax then .keyIn (n - 0x10)
    else .reserved := by
  obtain ⟨k, rfl⟩ := Nat.exists_eq_add_of_le h
  rw [Nat.add_comm]
  rfl

/-- STATUS as a number (10_state.md R28). -/
theorem statusWord_toNat (s : State) : (statusWord s).toNat = (if s.ctxv then 16 else 0) + s.err.code.toNat := by
  cases h : s.ctxv <;> cases h2 : s.err <;> simp [statusWord, h, h2] <;> rfl

/-- The number of two fields side by side. -/
theorem append_toNat (m n : Nat) (x : BitVec m) (y : BitVec n) : (x ++ y).toNat = x.toNat * 2^n + y.toNat := by
  rw [BitVec.toNat_append, ← Nat.shiftLeft_add_eq_or_of_lt y.isLt, Nat.shiftLeft_eq]

/-- INFO as a number (10_state.md R29, R31). -/
theorem infoWord_toNat (s : State) : (infoWord s).toNat = s.phase.code.toNat * 2^14 + (infoDir s).toNat * 2^13 + (infoMode s).toNat * 2^12 + (infoAlg s).toNat * 2^8 + (infoBlockSize s).toNat := by
  unfold infoWord
  generalize s.phase.code = a
  generalize infoDir s = b
  generalize infoMode s = c
  generalize infoAlg s = d
  generalize infoBlockSize s = e
  refine (append_toNat _ _ ((0 : BitVec 16) ++ a ++ b ++ c ++ d) e).trans ?_
  rw [append_toNat, append_toNat, append_toNat, append_toNat]
  simp; ring

end Sys2Proof.Machine
end

