-- ==== Sys2Proof/Laws/Sessions.lean ====
section
/-! SUPPORT. The laws of a session: what one accepted chunk leaves, and that a list of chunks acts as one loop over their concatenation (40_engine.md R90, R100). -/

namespace Sys2Proof.Machine

/-- The number of blocks of a longer string, when the blocks of its front are taken first (40_engine.md R90, R92). -/
theorem blockCount_add (m : Mode) (d : Dir) (bs t k : Nat) (hb : 0 < bs) (h : k = blockCount m d bs t) (u : Nat) :
    blockCount m d bs (t + u) = k + blockCount m d bs (t - k * bs + u) := by
  have hle := blockCount_mul_le m d bs t
  rw [← h] at hle
  have e : ∀ n, k * bs ≤ n → n / bs = k + (n - k * bs) / bs := by
    intro n hn
    have hk : k ≤ n / bs := (Nat.le_div_iff_mul_le hb).2 hn
    have := Nat.sub_mul_div n bs k
    rw [Nat.mul_comm] at this
    omega
  have key : (t + u) / bs = k + (t - k * bs + u) / bs := by
    rw [e _ (by omega)]; congr 2; omega
  cases m <;> cases d <;> simp only [blockCount] at h ⊢
  · exact key
  · by_cases h0 : t = 0
    · subst h0; simp at h; subst h; simp
    · rw [if_neg h0] at h
      have h1 : k * bs ≤ t - 1 := by rw [h]; exact Nat.div_mul_le_self _ _
      rw [if_neg (by omega), if_neg (by omega), e (t + u - 1) (by omega)]
      congr 2; omega
  · exact key
  · exact key

/-- What no UPDATE of a session changes (40_engine.md R106). -/
structure SameSession (s t : State) : Prop where
  params : t.params = s.params
  alg : t.alg = s.alg
  key : t.key = s.key
  mode : t.mode = s.mode
  dir : t.dir = s.dir
  ctx0 : t.ctx0 = s.ctx0
  ctxv : t.ctxv = s.ctxv
  placement : t.placement = s.placement

/-- The block size is the same. -/
theorem SameSession.blockSize {s t} (h : SameSession s t) : t.blockSize = s.blockSize := by
  simp only [State.blockSize, State.desc, h.params, h.alg]

/-- The forward primitive is the same. -/
theorem SameSession.encryptBlock {s t} (P : Prim) (h : SameSession s t) : t.encryptBlock P = s.encryptBlock P := by
  simp only [State.encryptBlock, h.key, h.alg]

/-- The inverse primitive is the same. -/
theorem SameSession.decryptBlock {s t} (P : Prim) (h : SameSession s t) : t.decryptBlock P = s.decryptBlock P := by
  simp only [State.decryptBlock, h.key, h.alg]

/-- A chunk of sufficient capacity makes UPDATE ready. -/
theorem updateReady_of_chunk (s : State) (c : Chunk) (hi : s.Inv) (hp : s.phase = .active) (ha : s.placement.apartForUpdate = true)
    (hc : c.data.length + s.blockSize ≤ c.cap) (hf : c.cap < 2 ^ s.params.lenW) : UpdateReady (setIn c.data (setCap c.cap s)) c.data := by
  have hb := hi.blockSize_bounds (by simp [hp])
  have hl : lenValue s.params c.data.length = c.data.length := Nat.mod_eq_of_lt (by omega)
  have hl2 : lenValue s.params c.cap = c.cap := Nat.mod_eq_of_lt (by omega)
  refine ⟨{ hi with inp_wf := Memory.wf_ofBytes _, inLen_fits := ?_, outCap_fits := ?_ }, hp, ha, ?_, ?_⟩
  · exact Nat.mod_lt _ (Nat.two_pow_pos _)
  · exact Nat.mod_lt _ (Nat.two_pow_pos _)
  · show Memory.readBytes (Memory.ofBytes c.data) 0 (lenValue s.params c.data.length) = _
    rw [hl]; exact Memory.readBytes_ofBytes _
  · show lenValue s.params c.data.length + s.blockSize ≤ lenValue s.params c.cap
    rw [hl, hl2]; exact hc

/-- What a session retains holds no block to process (10_state.md R24). -/
theorem blockCount_occ (s : State) (hi : s.Inv) (hp : s.phase = .active) : blockCount s.mode s.dir s.blockSize s.occ = 0 := by
  have hin := hi.in_session hp
  have hb := hi.blockSize_bounds (by simp [hp])
  simp only [State.occWithinBound] at hin
  cases hm : s.mode <;> cases hd : s.dir <;> simp [hm, hd] at hin <;> simp [blockCount]
  · omega
  · intro h; right; omega
  · omega
  · omega

/-- One accepted chunk: the run, the chaining state and the retained bytes it leaves, and that the session is the same. -/
theorem updateWith_spec (P : Prim) (hP : KeepsLength P) (s : State) (c : Bytes) (h : UpdateReady s c) :
    ∃ t, updateWith P s = .next t ∧ t.err = .ok ∧ t.Inv ∧ t.phase = .active ∧ SameSession s t ∧
      outputRun t = some (updateRun P s c).1 ∧ t.chainUsed = (updateRun P s c).2 ∧
      t.retained = updateRest s c :=
  ⟨acceptChunk P c s, updateWith_ready P s c h, rfl, acceptChunk_keeps_inv P hP s c h, h.active, ⟨rfl,rfl,rfl,rfl,rfl,rfl,rfl,rfl⟩,
    outputRun_acceptChunk P hP s c h, chainUsed_acceptChunk P hP s c h, by simp only [State.retained, acceptChunk]; exact splice_take _ _⟩

/-- A list of chunks fed to an open session: one block loop over the retained bytes and the whole message. -/
theorem feedWith_spec (P : Prim) (hP : KeepsLength P) (cs : List Chunk) (s : State) (hi : s.Inv) (hp : s.phase = .active) (ha : s.placement.apartForUpdate = true)
    (hc : CapacitiesSuffice s cs) :
    ∃ o t nb, feedWith (updateWith P) cs s = some (o, t) ∧ t.Inv ∧ t.phase = .active ∧ SameSession s t ∧
      nb = blockCount s.mode s.dir s.blockSize (s.retained ++ messageOf cs).length ∧
      blockLoop (s.encryptBlock P) (s.decryptBlock P) s.mode s.dir s.blockSize nb s.chainUsed (s.retained ++ messageOf cs) = (o, t.chainUsed) ∧
      t.retained = (s.retained ++ messageOf cs).drop (nb * s.blockSize) := by
  induction cs generalizing s with
  | nil =>
    refine ⟨[], s, 0, rfl, hi, hp, ⟨rfl,rfl,rfl,rfl,rfl,rfl,rfl,rfl⟩, ?_, rfl, by simp [messageOf]⟩
    rw [messageOf]; simp only [List.flatMap_nil, List.append_nil]
    rw [hi.retained_length, blockCount_occ s hi hp]
  | cons c cs ih =>
    have hb := hi.blockSize_bounds (by simp [hp])
    have hcc := hc c (by simp)
    have hu := updateReady_of_chunk s c hi hp ha hcc.1 hcc.2
    obtain ⟨t, h1, h2, h3, h4, h5, h6, h7, h8⟩ := updateWith_spec P hP _ _ hu
    have hs5 : SameSession s t := ⟨h5.1, h5.2, h5.3, h5.4, h5.5, h5.6, h5.7, h5.8⟩
    obtain ⟨o2, u, nb2, g1, g2, g3, g4, g5, g6, g7⟩ := ih t h3 h4 (by rw [hs5.placement]; exact ha)
      (fun c' h' => by rw [hs5.blockSize, hs5.params]; exact hc c' (by simp [h']))
    have hws : workString (setIn c.data (setCap c.cap s)) c.data = s.retained ++ c.data := rfl
    set nb1 := updateBlocks (setIn c.data (setCap c.cap s)) c.data with hnb1
    have hnb1' : nb1 = blockCount s.mode s.dir s.blockSize (s.retained ++ c.data).length := rfl
    have hm1 := blockCount_mul_le s.mode s.dir s.blockSize (s.retained ++ c.data).length
    rw [← hnb1'] at hm1
    have hrun : updateRun P (setIn c.data (setCap c.cap s)) c.data = blockLoop (s.encryptBlock P) (s.decryptBlock P) s.mode s.dir s.blockSize nb1 s.chainUsed (s.retained ++ c.data) := rfl
    have hrest : t.retained = (s.retained ++ c.data).drop (nb1 * s.blockSize) := h8
    have hmsg : s.retained ++ messageOf (c :: cs) = (s.retained ++ c.data) ++ messageOf cs := by simp [messageOf]
    rw [hs5.mode, hs5.dir, hs5.blockSize] at g5 g6
    rw [hs5.encryptBlock P, hs5.decryptBlock P] at g6
    rw [hs5.blockSize] at g7
    have hdrop : t.retained ++ messageOf cs = ((s.retained ++ c.data) ++ messageOf cs).drop (nb1 * s.blockSize) := by
      rw [hrest, List.drop_append_of_le_length hm1]
    have hcomb : blockLoop (s.encryptBlock P) (s.decryptBlock P) s.mode s.dir s.blockSize (nb1 + nb2) s.chainUsed (s.retained ++ messageOf (c :: cs)) =
        ((updateRun P (setIn c.data (setCap c.cap s)) c.data).1 ++ o2, u.chainUsed) := by
      rw [hmsg, blockLoop_add, blockLoop_append _ _ _ _ _ nb1 _ _ _ hm1, ← hrun, ← h7, ← hdrop, g6]
    refine ⟨_, u, nb1 + nb2, ?_, g2, g3, ⟨g4.1.trans hs5.1, g4.2.trans hs5.2, g4.3.trans hs5.3, g4.4.trans hs5.4, g4.5.trans hs5.5, g4.6.trans hs5.6, g4.7.trans hs5.7, g4.8.trans hs5.8⟩, ?_, hcomb, ?_⟩
    · rw [feedWith, h1]
      simp only [h2, if_true, h6, g1]
    · rw [hmsg, List.length_append, blockCount_add _ _ _ _ nb1 hb.1 hnb1', g5, hdrop]
      congr 2; simp only [List.length_drop, List.length_append]; simp only [List.length_append] at hm1; omega
    · rw [g7, hdrop, hmsg, List.drop_drop, Nat.add_mul]

/-- A sufficient capacity makes FINISH ready. -/
theorem finishReady_of_cap (t : State) (cap : Nat) (hi : t.Inv) (hp : t.phase = .active) (ha : t.placement.apartForUpdate = true)
    (h1 : t.blockSize ≤ cap) (h2 : cap < 2 ^ t.params.lenW) : FinishReady (setCap cap t) := by
  have : lenValue t.params cap = cap := Nat.mod_eq_of_lt h2
  refine ⟨{ hi with outCap_fits := Nat.mod_lt _ (Nat.two_pow_pos _) }, hp, apartForFinish_of_apartForUpdate ha, ?_⟩
  show t.blockSize ≤ lenValue t.params cap
  rw [this]; exact h1

/-- An empty run put before a result changes nothing. -/
@[simp] theorem SessionResult.after_nil (r : SessionResult) : SessionResult.after [] r = r := rfl

/-- Two runs put before a result, one after the other. -/
@[simp] theorem SessionResult.after_after (o p : Bytes) (r : SessionResult) : SessionResult.after o (SessionResult.after p r) = SessionResult.after (o ++ p) r := by
  simp [SessionResult.after]

/-- No session is open, so there is no result (70_reset_and_hazards.md R205). -/
theorem sessionRunWith_not_active (run) (ls : List Line) (s : State) (h : s.phase ≠ .active) : sessionRunWith run ls s = none := by
  cases ls <;> simp [sessionRunWith, h]

/-- An accepted UPDATE puts its run before the result of the rest. -/
theorem sessionRunWith_update (run) (chunk cap ls) (s t : State) (o : Bytes) (hp : s.phase = .active)
    (he : run .update (setIn chunk (setCap cap s)) = .next t) (ho : outputRun t = some o) :
    sessionRunWith run (.update chunk cap :: ls) s = (sessionRunWith run ls t).map (SessionResult.after o) := by
  simp [sessionRunWith, hp, Line.instr, Line.setup, he, ho]

/-- FINISH accepted in phase ACTIVE ends the run, whatever follows. -/
theorem sessionRunWith_finish (run) (cap ls) (s t : State) (o : Bytes) (hp : s.phase = .active)
    (he : run .finish (setCap cap s) = .next t) (ho : outputRun t = some o) :
    sessionRunWith run (.finish cap :: ls) s = some { err := t.err, output := o, context := sessionContext t } := by
  simp [sessionRunWith, hp, Line.instr, Line.setup, he, ho]

/-- One step of feeding chunks, inverted. -/
theorem feedWith_cons (run) (c : Chunk) (cs : List Chunk) (s u : State) (o : Bytes) (h : feedWith run (c :: cs) s = some (o, u)) :
    ∃ t o1 o2, run (setIn c.data (setCap c.cap s)) = .next t ∧ t.err = .ok ∧ outputRun t = some o1 ∧
      feedWith run cs t = some (o2, u) ∧ o = o1 ++ o2 := by
  rw [feedWith] at h
  split at h
  · next t ht =>
    split at h
    · next hk =>
      split at h
      · next o1 o2 u' h1 h2 =>
        simp only [Option.some.injEq, Prod.mk.injEq] at h
        obtain ⟨rfl, rfl⟩ := h
        exact ⟨t, o1, o2, ht, hk, h1, h2, rfl⟩
      · cases h
    · cases h
  · cases h
  · cases h

/-- The chunks of a session that are all accepted put their runs before the result of the rest. -/
theorem sessionRunWith_feed (P : Prim) (cs : List Chunk) (ls : List Line) (s t : State) (o : Bytes) (hp : s.phase = .active)
    (h : feedWith (updateWith P) cs s = some (o, t)) :
    sessionRunWith (execWith P) (cs.map (fun c => .update c.data c.cap) ++ ls) s =
      (sessionRunWith (execWith P) ls t).map (SessionResult.after o) := by
  induction cs generalizing s o with
  | nil =>
    simp only [feedWith, Option.some.injEq, Prod.mk.injEq] at h
    obtain ⟨rfl, rfl⟩ := h
    cases h : sessionRunWith (execWith P) ls s <;> simp [h]
  | cons c cs ih =>
    obtain ⟨u, o1, o2, h1, h2, h3, h4, rfl⟩ := feedWith_cons _ _ _ _ _ _ h
    have hu : u.phase = .active := by
      rcases updateWith_cases P (setIn c.data (setCap c.cap s)) with ⟨-, h'⟩ | ⟨-, hn, -⟩ | ⟨-, -, -, h'⟩ | ⟨-, -, -, -, h'⟩ | ⟨_, -, -, -, -, h'⟩
      · rw [h'] at h1; cases h1
      · exact absurd hp hn
      all_goals rw [h'] at h1; cases h1
      · exact hp
      · exact hp
    rw [List.map_cons, List.cons_append, sessionRunWith_update (execWith P) _ _ _ s u o1 hp h1 h3, ih u o2 hu h4]
    cases sessionRunWith (execWith P) ls t <;> simp

/-- The rest of a session: the block loop over the whole message, then the end-of-stream function (40_engine.md R100). -/
theorem sessionOf_spec (P : Prim) (hP : KeepsLength P) (cs : List Chunk) (cap : Nat) (s : State) (h : SessionReady s cap) (hc : CapacitiesSuffice s cs) :
    let T := s.retained ++ messageOf cs
    let nb := blockCount s.mode s.dir s.blockSize T.length
    let r := blockLoop (s.encryptBlock P) (s.decryptBlock P) s.mode s.dir s.blockSize nb s.chainUsed T
    let tail := T.drop (nb * s.blockSize)
    sessionOf P cs cap s = match finishMode (s.encryptBlock P) (s.decryptBlock P) s.mode s.dir s.blockSize r.2 tail with
      | .ok b => some { err := .ok, output := r.1 ++ b, context := sessionContext s }
      | .error _ => some { err := .badPadding, output := r.1, context := sessionContext s } := by
  intro T nb r tail
  obtain ⟨o, t, nb', g1, g2, g3, g4, g5, g6, g7⟩ := feedWith_spec P hP cs s h.inv h.active h.apart hc
  have hn : nb' = nb := g5
  subst hn
  have hr : r = (o, t.chainUsed) := g6
  have hf := finishReady_of_cap t cap g2 g3 (by rw [g4.placement]; exact h.apart) (by rw [g4.blockSize]; exact h.cap_suffices) (by rw [g4.params]; exact h.cap_fits)
  have he := finishWith_ready P _ hf
  have hfm : finishMode ((setCap cap t).encryptBlock P) ((setCap cap t).decryptBlock P) (setCap cap t).mode (setCap cap t).dir (setCap cap t).blockSize (setCap cap t).chainUsed (setCap cap t).retained = finishMode (s.encryptBlock P) (s.decryptBlock P) s.mode s.dir s.blockSize r.2 tail := by
    rw [hr]
    show finishMode (t.encryptBlock P) (t.decryptBlock P) t.mode t.dir t.blockSize t.chainUsed t.retained = _
    rw [g4.encryptBlock P, g4.decryptBlock P, g4.mode, g4.dir, g4.blockSize, g7]
  rw [hfm] at he
  have hctx : ∀ res, sessionContext (deliver res (setCap cap t)) = sessionContext s := by
    intro res
    cases res <;> simp [sessionContext, deliver, closeSession, raise, setCap, ctxOut, State.blockSize, State.desc, g4.dir, g4.ctxv, g4.ctx0, g4.params, g4.alg]
  rw [sessionOf, chunkLines, sessionRunWith_feed P cs _ s t o h.active g1]
  simp only [hr]
  rcases finishMode_cases (s.encryptBlock P) (s.decryptBlock P) s.mode s.dir s.blockSize r.2 tail with ⟨b, hb⟩ | ⟨_, _, hb⟩ <;> rw [hr] at hb <;> rw [hr, hb] at he <;> rw [hb]
  · rw [sessionRunWith_finish (execWith P) cap [] t _ b g3 he (outputRun_deliver _ _), hctx]
    simp [SessionResult.after, deliver]
  · rw [sessionRunWith_finish (execWith P) cap [] t _ [] g3 he (by simp [deliver, outputRun, Memory.readBytes]), hctx]
    simp [SessionResult.after, deliver]

/-- The commands with the external Block Primitive are the engine's. -/
theorem execWith_blackbox : execWith Config.blackbox = exec := by
  funext i s
  cases i <;> rfl

/-- The engine's own session is the one with the external Block Primitive. -/
theorem session_eq (cs : List Chunk) (cap : Nat) (s : State) : session cs cap s = sessionOf Config.blackbox cs cap s := by
  rw [session, sessionRun, sessionOf, execWith_blackbox]

/-- Feeding the engine is feeding it with the external Block Primitive. -/
theorem feed_eq (cs : List Chunk) (s : State) : feed cs s = feedWith (updateWith Config.blackbox) cs s := rfl

end Sys2Proof.Machine
end

