-- ==== Sys2Proof/Laws/WholeMessage.lean ====
section
/-! SUPPORT. The block loop against the whole-message functions of 40_engine.md R101, in each mode and direction. -/

namespace Sys2Proof.Machine

/-- A string of whole blocks is its blocks one after the other. -/
theorem blocks_flatMap (bs n : Nat) (s : Bytes) (h : s.length = n * bs) : (List.range n).flatMap (blockAt bs s) = s := by
  induction n generalizing s with
  | zero => simp at h; simp [h]
  | succ n ih =>
    rw [List.range_succ_eq_map, List.flatMap_cons, List.flatMap_map]
    have h1 := ih (s.drop bs) (by rw [List.length_drop, h, Nat.succ_mul]; omega)
    simp only [blockAt_succ, blockAt_zero]
    rw [h1, List.take_append_drop]

/-- A string of whole blocks whose blocks are known. -/
theorem eq_flatMap (bs n : Nat) (s : Bytes) (f : Nat → Bytes) (h : s.length = n * bs) (hf : ∀ j, j < n → blockAt bs s j = f j) :
    s = (List.range n).flatMap f := by
  rw [← blocks_flatMap bs n s h]
  apply List.flatMap_congr
  intro j hj; exact hf j (by simpa using hj)

/-- With `OCC = 0` nothing is retained. -/
theorem retained_of_occ_zero (s : State) (h : s.occ = 0) : s.retained = [] := by simp [State.retained, h]

/-- The loop and the end-of-stream function of mode CP direction ENC compute CPenc (40_engine.md R101). -/
theorem cpEnc_loop_whole (E D : Bytes → Bytes) (bs : Nat) (hE : ∀ x, (E x).length = x.length) (hD : ∀ x, (D x).length = x.length) (hb : 0 < bs) (c M : Bytes) (hc : c.length = bs) :
    (blockLoop E D .cp .enc bs (M.length / bs) c M).1 ++ finishCpEnc E bs (blockLoop E D .cp .enc bs (M.length / bs) c M).2 (M.drop (M.length / bs * bs)) = cpEncWhole E bs c M := by
  set nb := M.length / bs with hnb
  have hle : nb * bs ≤ M.length := Nat.div_mul_le_self _ _
  have hl := blockLoop_length E D .cp .enc bs hE hD nb c M hc hle
  obtain ⟨k1, k2⟩ := cpEnc_loop_block E D bs hE nb c M hc hle
  set o := (blockLoop E D .cp .enc bs nb c M).1
  have hmod : M.length % bs < bs := Nat.mod_lt _ hb
  have hdm := Nat.div_add_mod M.length bs
  rw [← hnb, Nat.mul_comm] at hdm
  have hplen : (padMessage bs M).length / bs = nb + 1 := by
    simp only [padMessage, List.length_append, rep_length]
    rw [show M.length + (bs - M.length % bs) = (nb + 1) * bs by rw [Nat.succ_mul]; omega]
    exact Nat.mul_div_cancel _ hb
  have hpb : ∀ j, j < nb → blockAt bs (padMessage bs M) j = blockAt bs M j := by
    intro j hj
    apply blockAt_append_left
    exact Nat.le_trans (Nat.mul_le_mul_right _ hj) hle
  have hcb : ∀ j, j < nb → cipherBlock E bs c (padMessage bs M) j = blockAt bs o j := by
    intro j
    induction j with
    | zero => intro hj; rw [k1 0 hj, cipherBlock, hpb 0 hj]; rfl
    | succ j ih => intro hj; rw [k1 (j+1) hj, cipherBlock, hpb _ hj, ih (by omega)]; rfl
  rw [cpEncWhole, hplen, List.range_succ, List.flatMap_append]
  congr 1
  · exact eq_flatMap bs nb o _ hl.1 (fun j hj => (hcb j hj).symm)
  · have hlast : blockAt bs (padMessage bs M) nb = padBlock bs (M.drop (nb * bs)) := by
      have e : (M.drop (nb * bs)).length = M.length % bs := by rw [List.length_drop]; omega
      rw [blockAt, padMessage, List.drop_append_of_le_length hle, padBlock, e]
      apply List.take_of_length_le
      rw [List.length_append, rep_length, e]; omega
    simp only [List.flatMap_cons, List.flatMap_nil, List.append_nil]
    rw [finishCpEnc, ← hlast, k2]
    cases hn : nb with
    | zero => rfl
    | succ n => rw [cipherBlock, hcb n (by omega)]; rfl

/-- The loop of mode CP direction DEC computes the front of CPdec. -/
theorem cpDec_loop_front (E D : Bytes → Bytes) (bs : Nat) (hE : ∀ x, (E x).length = x.length) (hD : ∀ x, (D x).length = x.length) (c M : Bytes) (hc : c.length = bs) :
    (blockLoop E D .cp .dec bs ((M.length - 1) / bs) c M).1 = cpDecFront D bs c M ∧ (blockLoop E D .cp .dec bs ((M.length - 1) / bs) c M).2 = prevBlock bs c M ((M.length - 1) / bs) := by
  have hle : (M.length - 1) / bs * bs ≤ M.length := Nat.le_trans (Nat.div_mul_le_self _ _) (Nat.sub_le _ _)
  have hl := blockLoop_length E D .cp .dec bs hE hD _ c M hc hle
  obtain ⟨k1, k2⟩ := cpDec_loop_block E D bs hD _ c M hc hle
  exact ⟨eq_flatMap bs _ _ _ hl.1 k1, k2⟩

/-- The loop and the end-of-stream function of mode CTR compute CTRx (40_engine.md R101). -/
theorem ctr_loop_whole (E D : Bytes → Bytes) (d : Dir) (bs : Nat) (hE : ∀ x, (E x).length = x.length) (hD : ∀ x, (D x).length = x.length) (hb : 0 < bs) (c M : Bytes) (hc : c.length = bs) :
    (blockLoop E D .ctr d bs (M.length / bs) c M).1 ++ finishCtr E (blockLoop E D .ctr d bs (M.length / bs) c M).2 (M.drop (M.length / bs * bs)) = ctrWhole E bs c M := by
  set nb := M.length / bs with hnb
  have hle : nb * bs ≤ M.length := Nat.div_mul_le_self _ _
  have hl := blockLoop_length E D .ctr d bs hE hD nb c M hc hle
  obtain ⟨k1, k2⟩ := ctr_loop_block E D d bs hE nb c M hc hle
  set o := (blockLoop E D .ctr d bs nb c M).1
  have hmod : M.length % bs < bs := Nat.mod_lt _ hb
  have hdm := Nat.div_add_mod M.length bs
  rw [← hnb, Nat.mul_comm] at hdm
  have hks : ∀ j, (keystreamBlock E bs c j).length = bs := by intro j; simp [keystreamBlock, hE]
  have hKS : ∀ n, ((List.range n).flatMap (keystreamBlock E bs c)).length = n * bs := by
    intro n; simp [List.length_flatMap, hks]
  have htl : (M.drop (nb * bs)).length = M.length % bs := by rw [List.length_drop]; omega
  have ho : o = xorBytes (M.take (nb * bs)) ((List.range nb).flatMap (keystreamBlock E bs c)) := by
    have hxl : (xorBytes (M.take (nb * bs)) ((List.range nb).flatMap (keystreamBlock E bs c))).length = nb * bs := by
      rw [xorBytes_length, hKS, List.length_take]; omega
    rw [eq_flatMap bs nb o _ hl.1 (fun j hj => rfl)]
    rw [eq_flatMap bs nb _ _ hxl (fun j hj => rfl)]
    apply List.flatMap_congr
    intro j hj
    have hj : j < nb := by simpa using hj
    rw [k1 j hj, blockAt, blockAt, xorBytes_drop, xorBytes_take]
    congr 1
    · have : (j+1) * bs ≤ nb * bs := Nat.mul_le_mul_right _ hj
      rw [Nat.succ_mul] at this
      rw [List.drop_take, List.take_take, Nat.min_eq_left (by omega)]
    · have hsp : (List.range nb).flatMap (keystreamBlock E bs c) = (List.range j).flatMap (keystreamBlock E bs c) ++ (keystreamBlock E bs c j ++ (List.range' (j+1) (nb - (j+1))).flatMap (keystreamBlock E bs c)) := by
        rw [← List.flatMap_cons (xs := List.range' (j+1) (nb - (j+1))), ← List.flatMap_append]
        congr 1
        rw [List.range_eq_range', List.range_eq_range', ← List.range'_succ, show nb - (j+1) + 1 = nb - j by omega]
        have := List.range'_append (s := 0) (m := j) (n := nb - j) (step := 1)
        simpa [show j + (nb - j) = nb by omega] using this.symm
      rw [hsp, List.drop_left' (hKS j), List.take_left' (hks j)]
  have hcd : (M.length + bs - 1) / bs = if M.length % bs = 0 then nb else nb + 1 := by
    split
    · rw [show M.length + bs - 1 = (bs - 1) + nb * bs by omega, Nat.add_mul_div_right _ _ hb, Nat.div_eq_of_lt (by omega)]; omega
    · rw [show M.length + bs - 1 = (M.length % bs - 1) + (nb + 1) * bs by rw [Nat.succ_mul]; omega, Nat.add_mul_div_right _ _ hb, Nat.div_eq_of_lt (by omega)]; omega
  rw [ctrWhole, hcd, finishCtr, htl]
  by_cases h0 : M.length % bs = 0
  · rw [if_pos h0, if_pos h0, List.append_nil, ho, List.take_of_length_le (by omega), List.take_of_length_le (by rw [hKS]; omega)]
  · rw [if_neg h0, if_neg h0, ho, k2, List.range_succ, List.flatMap_append]
    simp only [List.flatMap_cons, List.flatMap_nil, List.append_nil]
    have hk : ((List.range nb).flatMap (keystreamBlock E bs c) ++ keystreamBlock E bs c nb).take M.length =
        (List.range nb).flatMap (keystreamBlock E bs c) ++ (keystreamBlock E bs c nb).take (M.length % bs) := by
      rw [List.take_append, hKS, List.take_of_length_le (by rw [hKS]; omega), show M.length - nb * bs = M.length % bs by omega]
    rw [hk]
    have hx := xorBytes_append (M.take (nb * bs)) (M.drop (nb * bs)) ((List.range nb).flatMap (keystreamBlock E bs c)) ((keystreamBlock E bs c nb).take (M.length % bs)) (by rw [hKS, List.length_take]; omega)
    rw [List.take_append_drop] at hx
    exact hx.symm

/-- The held-back bytes are one block exactly for a positive multiple of `B` (41_chained_padded.md R114). -/
theorem cpDec_tail_length (bs : Nat) (M : Bytes) (hb : 0 < bs) :
    (M.drop ((M.length - 1) / bs * bs)).length = bs ↔ M.length ≠ 0 ∧ M.length % bs = 0 := by
  rw [List.length_drop]
  constructor
  · intro h
    have h0 : M.length ≠ 0 := by intro h0; rw [h0] at h; omega
    refine ⟨h0, ?_⟩
    have hle := Nat.div_mul_le_self (M.length - 1) bs
    have : M.length = bs + (M.length - 1) / bs * bs := by omega
    rw [this]; simp
  · rintro ⟨h0, h1⟩
    obtain ⟨k, hk⟩ := Nat.dvd_of_mod_eq_zero h1
    rw [hk] at h0 ⊢
    cases k with
    | zero => simp at h0
    | succ k =>
      have : (bs * (k+1) - 1) / bs = k := by
        rw [show bs * (k+1) - 1 = (bs - 1) + k * bs by rw [Nat.mul_succ, Nat.mul_comm]; omega, Nat.add_mul_div_right _ _ hb, Nat.div_eq_of_lt (by omega)]; omega
      rw [this, Nat.mul_succ, Nat.mul_comm]; omega

/-- The held-back block is then the last one. -/
theorem cpDec_last_index (bs : Nat) (M : Bytes) (hb : 0 < bs) (h0 : M.length ≠ 0) (h1 : M.length % bs = 0) : (M.length - 1) / bs = M.length / bs - 1 := by
  obtain ⟨k, hk⟩ := Nat.dvd_of_mod_eq_zero h1
  rw [hk] at h0 ⊢
  cases k with
    | zero => simp at h0
    | succ k =>
      rw [Nat.mul_div_cancel_left _ hb]
      rw [show bs * (k+1) - 1 = (bs - 1) + k * bs by rw [Nat.mul_succ, Nat.mul_comm]; omega, Nat.add_mul_div_right _ _ hb, Nat.div_eq_of_lt (by omega)]; omega

/-- The loop and the end-of-stream function of mode CP direction DEC compute CPdec, and fail where it fails (40_engine.md R101). -/
theorem cpDec_loop_whole (E D : Bytes → Bytes) (bs : Nat) (hE : ∀ x, (E x).length = x.length) (hD : ∀ x, (D x).length = x.length) (hb : 0 < bs) (c M : Bytes) (hc : c.length = bs) :
    let nb := blockCount .cp .dec bs M.length
    let r := blockLoop E D .cp .dec bs nb c M
    r.1 = cpDecFront D bs c M ∧
    (CpDecAccepts D bs c M → ∃ b, finishCpDec D bs r.2 (M.drop (nb * bs)) = .ok b ∧ r.1 ++ b = cpDecWhole D bs c M) ∧
    (¬ CpDecAccepts D bs c M → finishCpDec D bs r.2 (M.drop (nb * bs)) = .error .badPadding) := by
  intro nb r
  have hnb : nb = (M.length - 1) / bs := by
    show blockCount .cp .dec bs M.length = _
    simp only [blockCount]; split
    · simp [*]
    · rfl
  obtain ⟨f1, f2⟩ := cpDec_loop_front E D bs hE hD c M hc
  have hr : r = blockLoop E D .cp .dec bs ((M.length - 1) / bs) c M := by show blockLoop E D .cp .dec bs nb c M = _; rw [hnb]
  rw [← hr] at f1 f2
  have ht := cpDec_tail_length bs M hb
  rw [← hnb] at ht f2
  have hkey : M.length ≠ 0 → M.length % bs = 0 → xorBytes (D (M.drop (nb * bs))) r.2 = plainBlock D bs c M (M.length / bs - 1) ∧ (plainBlock D bs c M (M.length / bs - 1)).length = bs := by
    intro h0 h1
    have hi := cpDec_last_index bs M hb h0 h1
    have hl := ht.2 ⟨h0, h1⟩
    have hdb : M.drop (nb * bs) = blockAt bs M (M.length / bs - 1) := by
      rw [blockAt, ← hi, ← hnb, List.take_of_length_le (by omega)]
    have : xorBytes (D (M.drop (nb * bs))) r.2 = plainBlock D bs c M (M.length / bs - 1) := by
      rw [plainBlock, hdb, f2, ← hi, ← hnb]
    refine ⟨this, ?_⟩
    rw [← this, xorBytes_length, hD, hl]
    have hle : nb * bs ≤ M.length := by rw [hnb]; exact Nat.le_trans (Nat.div_mul_le_self _ _) (Nat.sub_le _ _)
    have := (blockLoop_length E D .cp .dec bs hE hD nb c M hc hle).2
    show min bs (blockLoop E D .cp .dec bs nb c M).2.length = bs
    omega
  refine ⟨f1, ?_, ?_⟩
  · rintro ⟨h0, h1, h2⟩
    obtain ⟨k1, k2⟩ := hkey h0 h1
    rw [finishCpDec, if_neg (by rw [not_not]; exact ht.2 ⟨h0, h1⟩), k1, if_pos ((padOk_iff_endsInPadding _ _ k2).2 h2)]
    refine ⟨_, rfl, ?_⟩
    rw [f1]; rfl
  · intro hn
    rw [finishCpDec]
    by_cases hl : (M.drop (nb * bs)).length = bs
    · obtain ⟨h0, h1⟩ := ht.1 hl
      obtain ⟨k1, k2⟩ := hkey h0 h1
      rw [if_neg (by rw [not_not]; exact hl), k1, if_neg]
      rw [padOk_iff_endsInPadding _ _ k2]; intro h2; exact hn ⟨h0, h1, h2⟩
    · rw [if_pos hl]

end Sys2Proof.Machine
end

