-- ==== Sys2Proof/Tests/Slice0.lean ====
section
/-! SUPPORT. Tests of single steps against the vectors of 95_test_vectors.md (the T and V numbers are that file's), the WellFormed smoke test, and for each obligation with hypotheses a witness that meets them all. -/

namespace Sys2Proof.Tests
open Sys2Proof.Machine

/-! ### The test instance and the test primitive (95_test_vectors.md section 2) -/

/-- `TOY4` beside `A128` (00_scope.md R6). -/
def toyTable : AlgTable := [(0, AlgDesc.a128), (15, { blockSize := 4, keyLens := [4] })]

def toyParams : Params := { Params.defaultInstance with algTable := toyTable }

/-- The key of every TOY4 vector. -/
def toyKey : Bytes := [0xa1, 0xb2, 0xc3, 0xd4]

/-- `E` of TOY4: rotate left one byte, then exclusive or with the key. -/
def toyE (k : Bytes) : Bytes → Bytes
  | [a, b, c, d] => [b ^^^ byteAt k 0, c ^^^ byteAt k 1, d ^^^ byteAt k 2, a ^^^ byteAt k 3]
  | x => x

/-- `D` of TOY4. -/
def toyD (k : Bytes) : Bytes → Bytes
  | [a, b, c, d] => [d ^^^ byteAt k 3, a ^^^ byteAt k 0, b ^^^ byteAt k 1, c ^^^ byteAt k 2]
  | x => x

def toyPrim : Prim where
  enc _ k x := toyE k x
  dec _ k y := toyD k y

theorem toyE_length (k x : Bytes) : (toyE k x).length = x.length := by
  unfold toyE; split <;> rfl

theorem toyD_length (k x : Bytes) : (toyD k x).length = x.length := by
  unfold toyD; split <;> rfl

theorem toyPrim_keepsLength : KeepsLength toyPrim := ⟨fun _ => toyE_length, fun _ => toyD_length⟩

/-- TOY4 has the property of 10_state.md R35, so the premise `Inverts` can be met. -/
theorem toy_inverts (k : Bytes) : Inverts (toyD k) (toyE k) 4 := by
  intro x hx
  match x, hx with
  | [a, b, c, d], _ => simp [toyE, toyD]

/-! ### States -/

/-- The test instance right after reset. -/
def base : State := State.atReset toyParams

/-- TOY4 bound (T1). -/
def bound : State := { base with phase := .keyed, alg := 15, key := toyKey }

/-- An open TOY4 session that retains `occ` bytes of `11 12 13 14`, Context `00000000`, a chunk of five bytes lent, capacity 9. -/
def opened (m : Mode) (d : Dir) (occ : Nat) : State :=
  { bound with
    phase := .active
    mode := m
    dir := d
    buf := [0x11, 0x12, 0x13, 0x14] ++ rep 0 12
    occ := occ
    ctxv := decide (d = .enc)
    inp := Memory.ofBytes [0x21, 0x22, 0x23, 0x24, 0x25]
    inLen := 5
    outCap := 9 }

/-- The chunk lent to `opened`. -/
def chunk : Bytes := [0x21, 0x22, 0x23, 0x24, 0x25]

theorem base_inv : base.Inv := atReset_meets_inv toyParams (by decide)

theorem bound_inv : bound.Inv :=
  { base_inv with
    before_session := fun _ => rfl
    after_session := by decide
    in_session := by intro h; cases h
    alg_known := fun _ => rfl
    key_accepted := fun _ => ⟨_, rfl, by decide⟩
    ctxv_session := by decide }

/-- `opened` meets the invariant, at every occupancy its mode and direction admit (10_state.md R24). -/
theorem opened_inv (m : Mode) (d : Dir) (occ : Nat) (h : (opened m d occ).occWithinBound) : (opened m d occ).Inv :=
  { bound_inv with
    buf_width := rfl
    inp_wf := Memory.wf_ofBytes _
    inLen_fits := by show 5 < 2 ^ 32; decide
    outCap_fits := by show 9 < 2 ^ 32; decide
    before_session := by intro h; rcases h with h | h <;> cases h
    after_session := by intro h; cases h
    in_session := fun _ => h
    alg_known := fun _ => rfl
    key_accepted := fun _ => ⟨_, rfl, List.mem_singleton.2 rfl⟩
    ctxv_session := by intro h; exact ⟨.inl rfl, by simpa [opened] using h⟩ }

theorem opened3_inv (m : Mode) (d : Dir) : (opened m d 3).Inv :=
  opened_inv m d 3 (by
    have hb : (opened m d 3).blockSize = 4 := rfl
    have ho : (opened m d 3).occ = 3 := rfl
    rw [State.occWithinBound, hb, ho]; split <;> decide)

theorem opened0_inv (m : Mode) (d : Dir) : (opened m d 0).Inv :=
  opened_inv m d 0 (by
    have hb : (opened m d 0).blockSize = 4 := rfl
    have ho : (opened m d 0).occ = 0 := rfl
    rw [State.occWithinBound, hb, ho]; split <;> decide)

/-- The full block a Chained-Padded decryption may hold back. -/
theorem held_inv : (opened .cp .dec 4).Inv := opened_inv .cp .dec 4 (by show (4 : Nat) ≤ 4; decide)

/-- A state with other host actions waiting meets the invariant as well. -/
theorem host_inv (s : State) (h : s.Inv) (ops : List HostOp) : ({ s with host := ops } : State).Inv := { h with }

/-- What a view of the next state shows. -/
def seen {σ α : Type} (o : Host.Outcome σ Fault Refusal) (view : σ → α) : Option α :=
  match o with
  | .next t => some (view t)
  | .fault _ => none
  | .refused _ => none

/-! ### Well-formed commands, decoding, encoding (30_encoding.md R70 to R74; T110) -/

theorem test_wf_refuses_unknown_alg : Instr.wf toyTable (.bindkey 2) = false := by decide

theorem test_wf_bindkey : Instr.wf toyTable (.bindkey 15) = true := by decide

theorem test_decode_bindkey :
    decode toyTable 0b00000000000000000000111100000001 = .ok (.bindkey 15) := by rfl

theorem test_decode_beginenc :
    decode toyTable 0b00000000000000000000000000010010 = .ok (.beginenc .ctr) := by rfl

theorem test_decode_beginencx :
    decode toyTable 0b00000000000000000000000000000011 = .ok (.beginencx .cp) := by rfl

theorem test_decode_begindec :
    decode toyTable 0b00000000000000000000000000010100 = .ok (.begindec .ctr) := by rfl

theorem test_decode_update :
    decode toyTable 0b00000000000000000000000000000101 = .ok .update := by rfl

theorem test_decode_finish :
    decode toyTable 0b00000000000000000000000000000110 = .ok .finish := by rfl

theorem test_decode_reset :
    decode toyTable 0b00000000000000000000000000000111 = .ok .reset := by rfl

theorem test_decode_reserved_opcodes :
    decode toyTable 0x00000000 = .error .reservedOpcode ∧ decode toyTable 0x00000008 = .error .reservedOpcode ∧
      decode toyTable 0x0000000f = .error .reservedOpcode := ⟨rfl, rfl, rfl⟩

theorem test_decode_reserved_bits :
    decode toyTable 0x00000021 = .error .reservedBit ∧ decode toyTable 0x00000085 = .error .reservedBit ∧
      decode toyTable 0x00001005 = .error .reservedBit ∧ decode toyTable 0x80000005 = .error .reservedBit :=
  ⟨rfl, rfl, rfl, rfl⟩

theorem test_decode_misplaced_fields :
    decode toyTable 0x00000f11 = .error .modeNotAllowed ∧ decode toyTable 0x00000015 = .error .modeNotAllowed ∧
      decode toyTable 0x00000102 = .error .algNotAllowed ∧ decode toyTable 0x00000107 = .error .algNotAllowed ∧
      decode toyTable 0x00000201 = .error .unknownAlg := ⟨rfl, rfl, rfl, rfl, rfl⟩

theorem test_table_word : decodeTableWord 32 0x00000001 = some (.bindkey 0) ∧ decodeTableWord 8 5 = some .update := by
  decide

/-- R77's words for the commands, encoded. -/
theorem test_encode : encode (.bindkey 15) = 0x00000f01 ∧ encode (.begindec .ctr) = 0x00000014 := by decide

/-! ### One step of each command -/

/-- T1: the state and the words the host reads after BINDKEY. -/
theorem test_bindkey_toy :
    seen (exec (.bindkey 15) (setKey toyKey base)) (fun t => (t.key, t.err, infoWord t, statusWord t)) =
      some (toyKey, .ok, 0x00004f04, 0x00) := by decide

/-- T2: three key bytes are not accepted. -/
theorem test_bindkey_length :
    seen (exec (.bindkey 15) (setKey [1, 2, 3] base)) (fun t => (t.phase, t.err)) = some (.idle, .invalidKeyLength) := by
  decide

/-- T40, with its draw: the session's words and CTX_OUT. -/
theorem test_beginenc_draw :
    seen (beginencWith (fun _ _ => [0x01, 0x02, 0x03, 0x04]) .cp bound)
        (fun t => (t.chainUsed, t.occ, statusWord t, infoWord t, windowWord (ctxOut t) 0, windowWord (ctxOut t) 1)) =
      some ([0x01, 0x02, 0x03, 0x04], 0, 0x10, 0x00008f04, 0x04030201, 0) := by decide

/-- T43: a Counter session at the last counter value. -/
theorem test_beginencx_counter :
    seen (exec (.beginencx .ctr) (setCtx [0xff, 0xff, 0xff, 0xff] bound)) (fun t => (t.chainUsed, infoWord t)) =
      some ([0xff, 0xff, 0xff, 0xff], 0x00009f04) := by decide

/-- T44: a decryption shows no Context. -/
theorem test_begindec_words :
    seen (exec (.begindec .cp) (setCtx [0, 0, 0, 0] bound)) (fun t => (statusWord t, infoWord t, windowWord (ctxOut t) 0)) =
      some (0x00, 0x0000af04, 0) := by decide

/-- T46: five Context bytes are not accepted and the key stays bound. -/
theorem test_begindec_length :
    seen (exec (.begindec .cp) (setCtx [0, 0, 0, 0, 0] bound)) (fun t => (t.err, t.phase, t.key)) =
      some (.invalidContextLength, .keyed, toyKey) := by decide

/-- T15: one byte completes the retained three; `E(K, 11121314)` comes out and is the next chaining state. -/
theorem test_update_completes_block :
    seen (updateWith toyPrim (setIn [0x14] (setCap 5 (opened .cp .enc 3))))
        (fun t => (outputRun t, t.occ, t.chainUsed, t.err)) =
      some (some [0xb3, 0xa1, 0xd7, 0xc5], 0, [0xb3, 0xa1, 0xd7, 0xc5], .ok) := by decide

/-- T51: a decryption hands out the first block and holds the last one back. -/
theorem test_update_holds_back :
    seen (updateWith toyPrim (setIn [0xb3, 0xa1, 0xd7, 0xc5, 0x03, 0x66, 0x05, 0x72] (setCap 12 (opened .cp .dec 0))))
        (fun t => (outputRun t, t.retained, t.chainUsed)) =
      some (some [0x11, 0x12, 0x13, 0x14], [0x03, 0x66, 0x05, 0x72], [0xb3, 0xa1, 0xd7, 0xc5]) := by decide

/-- T32: two bytes and two padding bytes. -/
theorem test_finish_pads :
    seen (finishWith toyPrim (setCap 4 (opened .cp .enc 2))) (fun t => (outputRun t, t.phase, t.key, t.err)) =
      some (some [0xb3, 0xb0, 0xc1, 0xc5], .done, [], .ok) := by decide

/-- T59: the last byte says two padding bytes, the one before it is wrong. -/
theorem test_finish_checks_every_padding_byte :
    seen (finishWith toyPrim (setCap 4 { opened .cp .dec 4 with buf := [0xb3, 0xb1, 0xc1, 0xc5] ++ rep 0 12 }))
        (fun t => (t.err, t.outLen, t.phase, statusWord t)) = some (.badPadding, 0, .done, 0x04) := by decide

/-- P4 and R190: RESET in an open session. -/
theorem test_reset_in_session :
    seen (exec .reset (opened .ctr .enc 3)) (fun t => (t.phase, t.key, t.chain == rep 0 16, t.inLen, t.out == [])) =
      some (.idle, [], true, 0, true) := by decide

/-! ### Modes, padding, registers -/

/-- T70, the first counter block: `00112233` against `E(K, 000000fe)`, and `fe` to `ff`. -/
theorem test_counter_step :
    ctrStep (toyE toyKey) [0x00, 0x00, 0x00, 0xfe] [0x00, 0x11, 0x22, 0x33] =
      ([0xa1, 0xa3, 0x1f, 0xe7], [0x00, 0x00, 0x00, 0xff]) := by decide

/-- T72b: the carry runs through three bytes. -/
theorem test_counter_carry : incCounter [0x00, 0xff, 0xff, 0xff] = [0x01, 0x00, 0x00, 0x00] := by decide

/-- T56, T58, T63: a count of 0, a count above `B`, a data byte that equals the padding. -/
theorem test_padding_counts :
    padOk 4 [0x11, 0x12, 0x13, 0x00] = false ∧ padOk 4 [0x11, 0x12, 0x13, 0xff] = false ∧
      padOk 4 [0x03, 0x03, 0x03, 0x03] = true := by decide

/-- R30's packing of the key `a1b2c3d4` in register 0x10, and the reserved number 0x18. -/
theorem test_key_window :
    (writeReg base (regOf toyParams 0x10) 0xd4c3b2a1).keyIn.take 5 = [0xa1, 0xb2, 0xc3, 0xd4, 0] ∧
      regOf toyParams 0x17 = .keyIn 7 ∧ regOf toyParams 0x18 = .reserved := by decide

/-- The word given to withFetchWord is what step runs, as the first command after reset. -/
theorem test_fetch_word :
    seen (step (State.reset.withFetchWord 32 0x00000005)) (fun t => (t.err, t.phase, t.host == [])) =
      some (.engineMisuse, .idle, true) := by decide

/-- The commands with TOY4 as the Block Primitive. -/
def toyExec (i : Instr) (s : State) : Host.Outcome State Fault Refusal :=
  match i with
  | .bindkey a => exec (.bindkey a) s
  | .beginenc m => exec (.beginenc m) s
  | .beginencx m => exec (.beginencx m) s
  | .begindec m => exec (.begindec m) s
  | .update => updateWith toyPrim s
  | .finish => finishWith toyPrim s
  | .reset => exec .reset s

/-- T130: both blocks are delivered, with the Context. -/
theorem test_oneshot_delivers :
    seen (oneShotWith toyExec .encx 15 toyKey .cp [0, 0, 0, 0] [0x11, 0x12, 0x13, 0x14, 0x15] 8 base)
        (fun x => (x.err, x.delivered, x.context)) =
      some (.ok, [0xb3, 0xa1, 0xd7, 0xc5, 0x03, 0x66, 0x05, 0x72], some [0, 0, 0, 0]) := by decide

/-- T131: one byte of capacity short, nothing is delivered and the engine is reset. -/
theorem test_oneshot_capacity :
    seen (oneShotWith toyExec .encx 15 toyKey .cp [0, 0, 0, 0] [0x11, 0x12, 0x13, 0x14, 0x15] 7 base)
        (fun x => (x.err, x.delivered, x.state.phase)) = some (.bufferTooSmall, [], .idle) := by decide

/-! ### Witnesses: for each obligation with hypotheses, a state and operands that meet them all -/

theorem witness_DecodeOfEncode :
    (Instr.bindkey 0).wf toyTable = true ∧ (Instr.bindkey 15).wf toyTable = true ∧ (Instr.begindec .ctr).wf toyTable = true := by
  decide

theorem illegal_of (t : AlgTable) (w : Word) (e : Illegal) (h : decode t w = .error e) : IllegalWord t w :=
  (illegalWord_iff_decode t w).2 ⟨e, h⟩

theorem legal_of (t : AlgTable) (w : Word) (i : Instr) (h : decode t w = .ok i) : ¬ IllegalWord t w := by
  rw [illegalWord_iff_decode]
  rintro ⟨e, he⟩
  rw [h] at he
  cases he

/-- An illegal word for each clause of R74, at the ends of its range. -/
theorem witness_illegal_words :
    IllegalWord toyTable 0x00000000 ∧ IllegalWord toyTable 0x00000008 ∧ IllegalWord toyTable 0x0000000f ∧
      IllegalWord toyTable 0x00000021 ∧ IllegalWord toyTable 0x00000081 ∧ IllegalWord toyTable 0x00001005 ∧
      IllegalWord toyTable 0x80000005 ∧ IllegalWord toyTable 0x00000011 ∧ IllegalWord toyTable 0x00000017 ∧
      IllegalWord toyTable 0x00000102 ∧ IllegalWord toyTable 0x00000f07 ∧ IllegalWord toyTable 0x00000101 ∧
      IllegalWord toyTable 0x00000e01 := by
  refine ⟨?_, ?_, ?_, ?_, ?_, ?_, ?_, ?_, ?_, ?_, ?_, ?_, ?_⟩ <;> exact illegal_of _ _ _ rfl

theorem witness_IllegalWordsEndInIllegalCommand :
    (∃ (s : State) (w : Word) (rest : List HostOp), s.params.wf = true ∧ s.host = .write 0x00 w :: rest ∧
        IllegalWord s.params.algTable w) ∧
      ¬ IllegalWord toyTable 0x00000f01 ∧ ¬ IllegalWord toyTable 0x00000012 ∧ ¬ IllegalWord toyTable 0x00000007 :=
  ⟨⟨{ opened .cp .enc 3 with host := [.write 0x00 0x08] }, 0x08, [], by decide, rfl, witness_illegal_words.2.1⟩,
    legal_of _ _ _ rfl, legal_of _ _ _ rfl, legal_of _ _ _ rfl⟩

theorem witness_StepRunsDecodedCommand :
    ∃ (s : State) (w : Word) (i : Instr) (rest : List HostOp), s.params.wf = true ∧ s.host = .write 0x00 w :: rest ∧
      decode s.params.algTable w = .ok i :=
  ⟨{ opened .cp .enc 3 with host := [.write 0x00 0x05, .read 0x05] }, 0x05, .update, [.read 0x05], by decide, rfl, rfl⟩

theorem witness_StepWaitsForTheHost : base.params.wf = true ∧ base.host = [] := by decide

theorem toy_windows : WindowsApart base.params := ⟨by decide, by decide⟩

/-- Any register number but CMD; the windows of the test instance lie apart. -/
theorem witness_OperandWriteSetsOnlyItsRegister (n : Nat) (v : Word) :
    ({ base with host := [.write n v] } : State).Inv ∧ WindowsApart base.params ∧
      ((n = 0x03 ∨ n = 0x04 ∨ n = 0x06 ∨ n = 0x07 ∨ n = 0x10 ∨ n = 0x17 ∨ n = 0x20 ∨ n = 0x23 ∨ n = 0x30) → n ≠ 0x00) :=
  ⟨host_inv _ base_inv _, toy_windows, by omega⟩

/-- Any register number; the last byte of CTX_IN lies in 0x23, the first reserved numbers are 0x24 and 0x34. -/
theorem witness_RegisterReadFollowsTheMap (n : Nat) :
    ({ base with host := [.read n] } : State).Inv ∧ WindowsApart base.params ∧
      (15 < base.params.bsMax ∧ 0x23 = 0x20 + 15 / 4) ∧ 0x20 + (base.params.bsMax + 3) / 4 = 0x24 ∧
      0x30 + (base.params.bsMax + 3) / 4 = 0x34 :=
  ⟨host_inv _ base_inv _, toy_windows, by decide, by decide, by decide⟩

theorem witness_StatusReadsErrAndCtxv (e : Err) (v : Bool) :
    ({ base with err := e, ctxv := v, host := [.read 0x01] } : State).params.wf = true := base_inv.params_wf

theorem witness_InfoReadsTheSession :
    ({ base with host := [.read 0x02] } : State).Inv ∧ ({ bound with host := [.read 0x02] } : State).Inv ∧
      ∀ (m : Mode) (d : Dir), ({ opened m d 3 with host := [.read 0x02] } : State).Inv ∧
        ({ closeSession (opened m d 3) with host := [.read 0x02] } : State).Inv :=
  ⟨host_inv _ base_inv _, host_inv _ bound_inv _, fun m d =>
    ⟨host_inv _ (opened3_inv m d) _, host_inv _ (closeSession_keeps_inv _ (opened3_inv m d) rfl) _⟩⟩

/-- CTXV = 1 at byte 3 (the last of the Context), byte 4 (behind it) and byte 15; CTXV = 0 in a decryption. -/
theorem witness_CtxOutReadsInitialContext :
    ({ opened .cp .enc 3 with host := [.read 0x30] } : State).Inv ∧ (opened .cp .enc 3).ctxv = true ∧
      3 < (opened .cp .enc 3).blockSize ∧ ¬ 4 < (opened .cp .enc 3).blockSize ∧ 0x30 = 0x30 + 3 / 4 ∧
      0x31 = 0x30 + 4 / 4 ∧ 0x33 = 0x30 + 15 / 4 ∧ 15 < (opened .cp .enc 3).params.bsMax ∧
      ({ opened .cp .dec 3 with host := [.read 0x30] } : State).Inv ∧ (opened .cp .dec 3).ctxv = false :=
  ⟨host_inv _ (opened3_inv _ _) _, by decide, by decide, by decide, by decide, by decide, by decide, by decide,
    host_inv _ (opened3_inv _ _) _, by decide⟩

theorem witness_SecretsAreNotReadable :
    ({ opened .cp .enc 3 with host := [.read 0x10] } : State).params.wf = true := by decide

/-- The four outcomes of BINDKEY. -/
theorem witness_BindkeyOutcome :
    base.params.algTable.lookup (2 : AlgId) = none ∧
      ∃ d, base.params.algTable.lookup (15 : AlgId) = some d ∧ (opened .cp .enc 3).phase = .active ∧
        base.phase ≠ .active ∧ base.keyLen ∉ d.keyLens ∧ (setKey toyKey base).keyLen ∈ d.keyLens :=
  ⟨by decide, _, rfl, by decide⟩

theorem witness_BeginencOutcome : base.phase ≠ .keyed ∧ bound.Inv ∧ bound.phase = .keyed :=
  ⟨by decide, bound_inv, rfl⟩

/-- BEGINENCX and BEGINDEC: wrong phase, wrong length (one short, one long), right length. -/
theorem witness_BeginencxOutcome :
    base.phase ≠ .keyed ∧ bound.phase = .keyed ∧ (setCtx [0, 0, 0] bound).ctxLen ≠ (setCtx [0, 0, 0] bound).blockSize ∧
      (setCtx [0, 0, 0, 0, 0] bound).ctxLen ≠ (setCtx [0, 0, 0, 0, 0] bound).blockSize ∧
      ({ bound with ctxLen := 4 } : State).Inv ∧ ({ bound with ctxLen := 4 } : State).ctxLen = bound.blockSize :=
  ⟨by decide, rfl, by decide, by decide, { bound_inv with ctxLen_fits := by show 4 < 2 ^ 32; decide }, by decide⟩

theorem witness_BegindecOutcome :
    base.phase ≠ .keyed ∧ bound.phase = .keyed ∧ ({ bound with ctxLen := 3 } : State).ctxLen ≠ bound.blockSize ∧
      ({ bound with ctxLen := 4 } : State).Inv ∧ ({ bound with ctxLen := 4 } : State).ctxLen = bound.blockSize :=
  ⟨by decide, rfl, by decide, { bound_inv with ctxLen_fits := by show 4 < 2 ^ 32; decide }, by decide⟩

theorem witness_FailedBeginKeepsKeyBinding :
    bound.Inv ∧ bound.phase = .keyed ∧ ([1, 2, 3, 4] : Bytes).length = bound.blockSize ∧
      (∃ t, exec (.beginencx .cp) bound = .next t ∧ t.err ≠ .ok) ∧ ∃ t, exec (.begindec .ctr) bound = .next t ∧ t.err ≠ .ok :=
  ⟨bound_inv, rfl, by decide, ⟨_, rfl, by decide⟩, ⟨_, rfl, by decide⟩⟩

/-- A session of each BEGIN command, fed one chunk and finished. -/
theorem witness_ContextReadableThroughSession :
    ({ bound with ctxLen := 4 } : State).Inv ∧
    (∃ t u v o, exec (.beginencx .cp) { bound with ctxLen := 4 } = .next t ∧ t.err = .ok ∧
      feed [⟨chunk, 9⟩] t = some (o, u) ∧ exec .finish (setCap 4 u) = .next v) ∧
    (∃ t u v o, exec (.beginenc .ctr) { bound with ctxLen := 4 } = .next t ∧ t.err = .ok ∧
      feed [⟨chunk, 9⟩] t = some (o, u) ∧ exec .finish (setCap 4 u) = .next v) ∧
    ∃ t u v o, exec (.begindec .cp) { bound with ctxLen := 4 } = .next t ∧ t.err = .ok ∧
      feed [⟨chunk, 9⟩] t = some (o, u) ∧ exec .finish (setCap 4 u) = .next v :=
  ⟨{ bound_inv with ctxLen_fits := by show 4 < 2 ^ 32; decide },
    ⟨_, _, _, _, rfl, rfl, rfl, rfl⟩, ⟨_, _, _, _, rfl, rfl, rfl, rfl⟩, ⟨_, _, _, _, rfl, rfl, rfl, rfl⟩⟩

/-- UPDATE is ready in every mode and direction: for UpdateProcessesWholeBlocks, UpdateEncryptsChained, UpdateDecryptsChained and UpdateCounter. -/
theorem witness_UpdateReady (m : Mode) (d : Dir) :
    UpdateReady (opened m d 3) chunk ∧ (opened m d 3).mode = m ∧ (opened m d 3).dir = d :=
  ⟨⟨opened3_inv m d, rfl, rfl, rfl, by show 5 + 4 ≤ 9; decide⟩, rfl, rfl⟩

/-- UPDATE is ready with a block held back (the boundary of R24), and with nothing retained. -/
theorem witness_UpdateReady_boundaries : UpdateReady (opened .cp .dec 4) chunk ∧ UpdateReady (opened .cp .enc 0) chunk :=
  ⟨⟨held_inv, rfl, rfl, rfl, by decide⟩, ⟨opened0_inv _ _, rfl, rfl, rfl, by decide⟩⟩

/-- An empty chunk, exactly `B` of capacity, a block held back. -/
theorem witness_EmptyChunkChangesNothing :
    (setIn [] (setCap 4 (opened .cp .dec 4))).Inv ∧ (setIn [] (setCap 4 (opened .cp .dec 4))).phase = .active ∧
      (setIn [] (setCap 4 (opened .cp .dec 4))).placement.apartForUpdate = true ∧
      (setIn [] (setCap 4 (opened .cp .dec 4))).inLen = 0 ∧
      (setIn [] (setCap 4 (opened .cp .dec 4))).blockSize ≤ (setIn [] (setCap 4 (opened .cp .dec 4))).outCap :=
  ⟨{ held_inv with inp_wf := rfl, inLen_fits := by show 0 < 2 ^ 32; decide, outCap_fits := by show 4 < 2 ^ 32; decide },
    rfl, rfl, by decide, by decide⟩

/-- A capacity one short of UPDATE's minimum and of FINISH's, and exactly at both. -/
theorem witness_BufferTooSmallExactlyBelowMinimum (cap : Nat) (h : cap = 3 ∨ cap = 4 ∨ cap = 8 ∨ cap = 9) :
    ({ opened .cp .enc 3 with outCap := cap } : State).Inv ∧
      ({ opened .cp .enc 3 with outCap := cap } : State).phase = .active ∧
      ({ opened .cp .enc 3 with outCap := cap } : State).placement.apartForUpdate = true ∧
      inOperand { opened .cp .enc 3 with outCap := cap } = some chunk :=
  ⟨{ opened3_inv .cp .enc with outCap_fits := by show cap < 2 ^ 32; omega }, rfl, rfl, rfl⟩

/-- The retry clause of BufferTooSmallExactlyBelowMinimum: an UPDATE that fails one byte short, and the least capacity of the retry. -/
theorem witness_retry_after_BufferTooSmall :
    ∃ t, exec .update { opened .cp .enc 3 with outCap := 8 } = .next t ∧ t.err = .bufferTooSmall ∧
      t.inLen + t.blockSize = 9 ∧ 9 < 2 ^ t.params.lenW :=
  ⟨_, rfl, rfl, rfl, by decide⟩

/-- An UPDATE that succeeds and one that fails, for UpdateOutputFitsCapacity and UpdateFrame. -/
theorem witness_UpdateFrame :
    (∃ t, (opened .ctr .enc 3).Inv ∧ (opened .ctr .enc 3).phase = .active ∧ exec .update (opened .ctr .enc 3) = .next t ∧
        t.err = .ok ∧ inOperand (opened .ctr .enc 3) = some chunk ∧
        updateBlocks (opened .ctr .enc 3) chunk * (opened .ctr .enc 3).blockSize = 8) ∧
      ∃ t, (setCap 8 (opened .ctr .enc 3)).Inv ∧ exec .update (setCap 8 (opened .ctr .enc 3)) = .next t ∧ t.err ≠ .ok :=
  ⟨⟨_, opened3_inv _ _, rfl, rfl, rfl, rfl, rfl⟩,
    ⟨_, { opened3_inv .ctr .enc with outCap_fits := by show 8 < 2 ^ 32; decide }, rfl, by decide⟩⟩

theorem witness_FinishIsTerminal :
    (opened .cp .dec 3).phase = .active ∧ (opened .cp .dec 3).placement.apartForUpdate = true := ⟨rfl, rfl⟩

/-- FINISH is ready in every mode and direction: for FinishPadsLastBlock and FinishEmitsTail, and FinishStripsPadding with no whole block retained. -/
theorem witness_FinishReady (m : Mode) (d : Dir) :
    FinishReady (opened m d 3) ∧ (opened m d 3).mode = m ∧ (opened m d 3).dir = d ∧
      (opened m d 3).occ ≠ (opened m d 3).blockSize :=
  ⟨⟨opened3_inv m d, rfl, rfl, by show 4 ≤ 9; decide⟩, rfl, rfl, by show (3 : Nat) ≠ 4; decide⟩

/-- A decryption that holds the block `11 12 13 14` back, its chaining state such that the opaque `D` gives `x`. -/
def holding (x : Bytes) : State :=
  { opened .cp .dec 4 with
    chain := xorBytes ((opened .cp .dec 4).D [0x11, 0x12, 0x13, 0x14]) x ++ rep 0 12 }

/-- FINISH is ready with a block held back that decrypts to any given block, whatever `D` is. -/
theorem holding_ready (x : Bytes) (hx : x.length = 4) :
    FinishReady (holding x) ∧ (holding x).occ = (holding x).blockSize ∧
      x = xorBytes ((holding x).D (holding x).retained) (holding x).chainUsed := by
  have hD : ((opened .cp .dec 4).D [0x11, 0x12, 0x13, 0x14]).length = 4 := State.D_length _ _
  have hl : (xorBytes ((opened .cp .dec 4).D [0x11, 0x12, 0x13, 0x14]) x).length = 4 := by
    rw [xorBytes_length, hD, hx]; rfl
  refine ⟨⟨{ held_inv with chain_width := ?_, after_session := (by intro h'; cases h') }, rfl, rfl, by show 4 ≤ 9; decide⟩, rfl, ?_⟩
  · show (_ ++ _ : Bytes).length = 16
    rw [List.length_append, hl, rep_length]
  · have hc : (holding x).chainUsed = xorBytes ((opened .cp .dec 4).D [0x11, 0x12, 0x13, 0x14]) x := List.take_left' hl
    have hr : (holding x).D (holding x).retained = (opened .cp .dec 4).D [0x11, 0x12, 0x13, 0x14] := rfl
    rw [hc, hr]
    exact (xorBytes_cancel_left _ _ (by omega)).symm

/-- FinishStripsPadding, clause by clause: counts 1 and `B` (both ends of the range) are accepted; counts 0 and `B + 1` and a wrong earlier padding byte are not. -/
theorem witness_FinishStripsPadding :
    (∀ x : Bytes, x.length = 4 → FinishReady (holding x) ∧ (holding x).mode = .cp ∧ (holding x).dir = .dec ∧
        x = xorBytes ((holding x).D (holding x).retained) (holding x).chainUsed ∧
        (holding x).occ = (holding x).blockSize) ∧
      padOk 4 [0x11, 0x12, 0x13, 0x01] = true ∧ padOk 4 [0x04, 0x04, 0x04, 0x04] = true ∧
      padOk 4 [0x11, 0x12, 0x13, 0x00] = false ∧ padOk 4 [0x05, 0x05, 0x05, 0x05] = false ∧
      padOk 4 [0x11, 0x12, 0x03, 0x02] = false :=
  ⟨fun x hx => ⟨(holding_ready x hx).1, rfl, rfl, (holding_ready x hx).2.2, (holding_ready x hx).2.1⟩, by decide⟩

/-- A FINISH that succeeds and one that fails. -/
theorem witness_FinishFrame :
    (∃ t, (opened .ctr .dec 3).Inv ∧ exec .finish (opened .ctr .dec 3) = .next t ∧ t.err = .ok ∧ t.outLen = 3) ∧
      ∃ t, (opened .cp .dec 3).Inv ∧ exec .finish (opened .cp .dec 3) = .next t ∧ t.err ≠ .ok :=
  ⟨⟨_, opened3_inv _ _, rfl, rfl, rfl⟩, ⟨_, opened3_inv _ _, rfl, by decide⟩⟩

theorem witness_ResetRestoresRegisters : (opened .cp .enc 3).params.wf = true := by decide

theorem witness_ResetMeetsInvariant : toyParams.wf = true := by decide

/-- Steps of an open session: a command, a register write, the reset input. -/
theorem witness_StepKeepsInvariant :
    (∃ t, ({ opened .ctr .enc 3 with host := [.write 0x00 0x05] } : State).Inv ∧
        step { opened .ctr .enc 3 with host := [.write 0x00 0x05] } = .next t) ∧
      (∃ t, ({ opened .ctr .enc 3 with host := [.write 0x03 0x07] } : State).Inv ∧
        step { opened .ctr .enc 3 with host := [.write 0x03 0x07] } = .next t) ∧
      ∃ t, ({ opened .ctr .enc 3 with host := [.resetInput] } : State).Inv ∧
        step { opened .ctr .enc 3 with host := [.resetInput] } = .next t :=
  ⟨⟨_, host_inv _ (opened3_inv _ _) _, rfl⟩, ⟨_, host_inv _ (opened3_inv _ _) _, rfl⟩,
    ⟨_, host_inv _ (opened3_inv _ _) _, rfl⟩⟩

/-- For every command a state it is allowed in and one it is not, the host's part met in both; RESET is allowed in all. -/
theorem witness_LifecycleTable :
    IllegalWord base.params.algTable 0x08 ∧ (∀ (i : Instr) (s : State), s = bound ∨ s = opened .cp .enc 3 → HostReady i s) ∧
      allowedIn (.bindkey 15) bound.phase = true ∧ allowedIn (.bindkey 15) (opened .cp .enc 3).phase = false ∧
      allowedIn (.beginenc .cp) bound.phase = true ∧ allowedIn (.beginenc .cp) (opened .cp .enc 3).phase = false ∧
      allowedIn (.beginencx .cp) bound.phase = true ∧ allowedIn (.beginencx .cp) (opened .cp .enc 3).phase = false ∧
      allowedIn (.begindec .cp) bound.phase = true ∧ allowedIn (.begindec .cp) (opened .cp .enc 3).phase = false ∧
      allowedIn .update bound.phase = false ∧ allowedIn .update (opened .cp .enc 3).phase = true ∧
      allowedIn .finish bound.phase = false ∧ allowedIn .finish (opened .cp .enc 3).phase = true ∧
      allowedIn .reset bound.phase = true ∧ Instr.wf toyTable (.bindkey 15) = true := by
  refine ⟨illegal_of _ _ .reservedOpcode rfl, ?_, by decide⟩
  rintro i s (rfl | rfl)
  · exact ⟨fun _ => ⟨rfl, [], rfl⟩, fun _ => rfl⟩
  · exact ⟨fun _ => ⟨rfl, chunk, rfl⟩, fun _ => rfl⟩

/-- Each command answers a next state: the premise of the frame statements over all commands (ErrorPriority, FailedCommandsChangeNothingElse, OutputStaysInCapacity, RegisterWriters, CtxvFollowsItsRule, OutputBufferIsNeverRead, InputIsReadByUpdateOnly, CounterDirectionsAgree). -/
theorem witness_commands_answer :
    (∃ t, exec (.bindkey 15) (setKey toyKey base) = .next t ∧ t.err = .ok) ∧
      (∃ t, exec (.beginenc .ctr) bound = .next t ∧ t.err = .ok) ∧
      (∃ t, exec (.beginencx .cp) { bound with ctxLen := 4 } = .next t ∧ t.err = .ok) ∧
      (∃ t, exec (.begindec .cp) { bound with ctxLen := 4 } = .next t ∧ t.err = .ok) ∧
      (∃ t, exec .update (opened .ctr .dec 3) = .next t ∧ t.err = .ok) ∧
      (∃ t, exec .finish (opened .ctr .dec 3) = .next t ∧ t.err = .ok) ∧
      ∃ t, exec .reset (opened .ctr .dec 3) = .next t ∧ t.err = .ok :=
  ⟨⟨_, rfl, rfl⟩, ⟨_, rfl, rfl⟩, ⟨_, rfl, rfl⟩, ⟨_, rfl, rfl⟩, ⟨_, rfl, rfl⟩, ⟨_, rfl, rfl⟩, ⟨_, rfl, rfl⟩⟩

/-- Commands that answer a next state with an error: an unknown ALG (not well formed), a phase that does not allow the command, a failed length check, a failed padding check; FINISH in phase ACTIVE and outside it. -/
theorem witness_commands_fail :
    (∃ t, exec (.bindkey 2) base = .next t ∧ t.err ≠ .ok ∧ Instr.wf toyTable (.bindkey 2) = false) ∧
      (∃ t, exec .finish bound = .next t ∧ t.err ≠ .ok ∧ allowedIn .finish bound.phase = false) ∧
      (∃ t, exec .update (setCap 8 (opened .cp .enc 3)) = .next t ∧ t.err ≠ .ok ∧
        lengthError .update (setCap 8 (opened .cp .enc 3)) = some .bufferTooSmall) ∧
      ∃ t, exec .finish (opened .cp .dec 3) = .next t ∧ t.err ≠ .ok ∧ lengthError .finish (opened .cp .dec 3) = none :=
  ⟨⟨_, rfl, by decide, by decide⟩, ⟨_, rfl, by decide, by decide⟩, ⟨_, rfl, by decide, by decide⟩,
    ⟨_, rfl, by decide, by decide⟩⟩

theorem witness_CounterIncrementWraps :
    ([0x00, 0xff] : Bytes).length = ([0x00, 0xff] : Bytes).length ∧ be2int [0x00, 0xff] = be2int [0x00, 0xff] := ⟨rfl, rfl⟩

theorem witness_EveryStepCompletes :
    (opened .cp .enc 3).params.wf = true ∧ (opened .cp .enc 3).placement = .disjoint ∧
      inOperand (opened .cp .enc 3) = some chunk := ⟨by decide, rfl, rfl⟩

/-- An open session, fresh, in every mode and direction, with exactly FINISH's minimum of capacity. -/
theorem fresh_ready (m : Mode) (d : Dir) : SessionReady (opened m d 0) 4 ∧ (opened m d 0).occ = 0 :=
  ⟨⟨opened0_inv m d, rfl, rfl, by show 4 ≤ 4; decide, by show 4 < 2 ^ 32; decide⟩, rfl⟩

/-- Chunks with exactly the documented capacity. -/
theorem capacities (m : Mode) (d : Dir) (occ : Nat) (cs : List Bytes) (h : ∀ c ∈ cs, c.length < 1000) :
    CapacitiesSuffice (opened m d occ) (cs.map fun c => ⟨c, c.length + 4⟩) := by
  intro c hc
  obtain ⟨b, hb, rfl⟩ := List.mem_map.1 hc
  have := h b hb
  exact ⟨by show b.length + 4 ≤ b.length + 4; omega, by show b.length + 4 < 2 ^ 32; omega⟩

/-- A session with TOY4 (T35) in which an UPDATE, a BINDKEY and a BEGIN fail on the way, and what a RESET and a missing FINISH make of it. -/
theorem test_session_result :
    sessionRunWith (execWith toyPrim) [.update [0x11, 0x12, 0x13, 0x14, 0x15] 8, .bindkey 0 [], .beginenc .ctr,
        .update [0x11, 0x12, 0x13, 0x14, 0x15] 9, .finish 4, .reset] (opened .cp .enc 0) =
      some { err := .ok, output := [0xb3, 0xa1, 0xd7, 0xc5, 0x03, 0x66, 0x05, 0x72], context := some (rep 0 16) } ∧
    sessionRunWith (execWith toyPrim) [.update [0x11] 9, .reset, .finish 4] (opened .cp .enc 0) = none ∧
    sessionRunWith (execWith toyPrim) [.update [0x11] 9] (opened .cp .enc 0) = none ∧
    sessionRunWith (execWith toyPrim) [.finish 4] base = none := by decide

/-- Each clause of SessionResultEndsAtFinish: no session, a failed command, a result, and lines without a FINISH. -/
theorem witness_SessionResultEndsAtFinish :
    base.phase ≠ .active ∧ (opened .cp .enc 0).phase = .active ∧
      (∃ t, exec .update ((Line.update [0x11] 4).setup (opened .cp .enc 0)) = .next t ∧ t.err ≠ .ok) ∧
      (∃ r, sessionRun [.finish 4] (opened .ctr .enc 3) = some r) ∧
      ∀ l ∈ [Line.update [0x11] 5], l.instr ≠ .finish :=
  ⟨by decide, rfl, ⟨_, rfl, by decide⟩, ⟨_, rfl⟩, by decide⟩

/-- Two partitions of one message, one of them with an empty last chunk. -/
theorem witness_StepSizeIndependence (m : Mode) (d : Dir) :
    SessionReady (opened m d 0) 4 ∧
      CapacitiesSuffice (opened m d 0) ([[0x11], [0x12, 0x13, 0x14, 0x15, 0x16], []].map fun c => ⟨c, c.length + 4⟩) ∧
      CapacitiesSuffice (opened m d 0) ([[0x11, 0x12, 0x13, 0x14, 0x15, 0x16]].map fun c => ⟨c, c.length + 4⟩) ∧
      messageOf ([[0x11], [0x12, 0x13, 0x14, 0x15, 0x16], []].map fun c => ⟨c, c.length + 4⟩) =
        messageOf ([[0x11, 0x12, 0x13, 0x14, 0x15, 0x16]].map fun c => ⟨c, c.length + 4⟩) :=
  ⟨(fresh_ready m d).1, capacities m d 0 _ (by decide), capacities m d 0 _ (by decide), by decide⟩

/-- A fresh Chained-Padded decryption whose Context makes the opaque `D` give `x` for the block `11 12 13 14`. -/
def fresh (x : Bytes) : State := { holding x with occ := 0 }

/-- A session of every mode and direction is fresh; a ciphertext that is accepted (whatever `D` is) and one that is not. -/
theorem witness_SessionComputesWholeMessage :
    (∀ (m : Mode) (d : Dir), SessionReady (opened m d 0) 4 ∧ (opened m d 0).occ = 0 ∧
        CapacitiesSuffice (opened m d 0) ([[0x11, 0x12, 0x13, 0x14, 0x15]].map fun c => ⟨c, c.length + 4⟩)) ∧
      (SessionReady (fresh [0x11, 0x03, 0x03, 0x03]) 4 ∧
        CpDecAccepts (fresh [0x11, 0x03, 0x03, 0x03]).D (fresh [0x11, 0x03, 0x03, 0x03]).blockSize
          (fresh [0x11, 0x03, 0x03, 0x03]).chainUsed [0x11, 0x12, 0x13, 0x14]) ∧
      ¬ CpDecAccepts (fresh [0x11, 0x03, 0x03, 0x03]).D (fresh [0x11, 0x03, 0x03, 0x03]).blockSize
          (fresh [0x11, 0x03, 0x03, 0x03]).chainUsed [0x11, 0x12, 0x13] := by
  have h := holding_ready [0x11, 0x03, 0x03, 0x03] rfl
  refine ⟨fun m d => ⟨(fresh_ready m d).1, rfl, capacities m d 0 _ (by decide)⟩, ⟨⟨?_, rfl, rfl, ?_, ?_⟩, ?_⟩, ?_⟩
  · exact { h.1.inv with
      before_session := fun _ => rfl
      after_session := by intro h'; cases h'
      in_session := by intro _; show (0 : Nat) ≤ 4; decide }
  · show 4 ≤ 4; decide
  · show 4 < 2 ^ 32; decide
  · refine ⟨by decide, by show 4 % 4 = 0; decide, ?_⟩
    have hp : plainBlock (fresh [0x11, 0x03, 0x03, 0x03]).D 4 (fresh [0x11, 0x03, 0x03, 0x03]).chainUsed
        [0x11, 0x12, 0x13, 0x14] 0 = [0x11, 0x03, 0x03, 0x03] := h.2.2.symm
    show EndsInPadding 4 (plainBlock _ 4 _ _ 0)
    rw [hp]
    exact (padOk_iff_endsInPadding 4 _ rfl).1 (by decide)
  · rintro ⟨-, hm, -⟩
    exact absurd hm (by show ¬ 3 % 4 = 0; decide)

/-- Sessions with TOY4 that end with OK: an encryption (T35), its decryption, a Counter session. -/
theorem witness_OutputLengthLaws :
    KeepsLength toyPrim ∧ (∀ (m : Mode) (d : Dir), SessionReady (opened m d 0) 4 ∧ (opened m d 0).occ = 0) ∧
      sessionOf toyPrim [⟨[0x11, 0x12, 0x13, 0x14, 0x15], 9⟩] 4 (opened .cp .enc 0) =
        some { err := .ok, output := [0xb3, 0xa1, 0xd7, 0xc5, 0x03, 0x66, 0x05, 0x72], context := some (rep 0 16) } ∧
      sessionOf toyPrim [⟨[0xb3, 0xa1, 0xd7, 0xc5, 0x03, 0x66, 0x05, 0x72], 12⟩] 4 (opened .cp .dec 0) =
        some { err := .ok, output := [0x11, 0x12, 0x13, 0x14, 0x15], context := none } ∧
      sessionOf toyPrim [⟨[0x01], 5⟩] 4 (opened .ctr .enc 0) = some { err := .ok, output := [0xa0], context := some (rep 0 16) } :=
  ⟨toyPrim_keepsLength, fresh_ready, by decide, by decide, by decide⟩

theorem witness_WholeMessageRoundTrip :
    (∀ x, (toyE toyKey x).length = x.length) ∧ Inverts (toyD toyKey) (toyE toyKey) 4 ∧ (rep 0 4).length = 4 :=
  ⟨toyE_length toyKey, toy_inverts toyKey, by decide⟩

/-- TOY4, mode CP: encrypt in one chunk, decrypt in two. -/
theorem witness_EngineRoundTrip :
    KeepsLength toyPrim ∧ SessionReady (opened .cp .enc 0) 4 ∧ SessionReady (opened .cp .dec 0) 4 ∧
      (opened .cp .dec 0).chainUsed = (opened .cp .enc 0).chainUsed ∧
      Inverts ((opened .cp .enc 0).decryptBlock toyPrim) ((opened .cp .enc 0).encryptBlock toyPrim) (opened .cp .enc 0).blockSize ∧
      sessionOf toyPrim [⟨[0x11, 0x12, 0x13, 0x14, 0x15], 9⟩] 4 (opened .cp .enc 0) =
        some { err := .ok, output := [0xb3, 0xa1, 0xd7, 0xc5, 0x03, 0x66, 0x05, 0x72], context := some (rep 0 16) } ∧
      messageOf [⟨[0xb3, 0xa1, 0xd7], 7⟩, ⟨[0xc5, 0x03, 0x66, 0x05, 0x72], 9⟩] =
        [0xb3, 0xa1, 0xd7, 0xc5, 0x03, 0x66, 0x05, 0x72] :=
  ⟨toyPrim_keepsLength, (fresh_ready _ _).1, (fresh_ready _ _).1, rfl, toy_inverts toyKey,
    witness_OutputLengthLaws.2.2.1, by decide⟩

/-- An empty ciphertext, two whole blocks, and a remainder. -/
theorem witness_HoldBackOccupancy :
    SessionReady (opened .cp .dec 0) 4 ∧ (opened .cp .dec 0).occ = 0 ∧ CapacitiesSuffice (opened .cp .dec 0) [] ∧
      CapacitiesSuffice (opened .cp .dec 0) ([[1, 2, 3, 4, 5, 6, 7, 8]].map fun c => ⟨c, c.length + 4⟩) ∧
      CapacitiesSuffice (opened .cp .dec 0) ([[1, 2, 3, 4, 5]].map fun c => ⟨c, c.length + 4⟩) :=
  ⟨(fresh_ready _ _).1, rfl, (fun c hc => absurd hc (List.not_mem_nil)), capacities _ _ 0 _ (by decide), capacities _ _ 0 _ (by decide)⟩

/-- T64's Contexts and its two-block ciphertext, which decrypts to a padded block. -/
theorem witness_WrongContextDamagesFirstBlockOnly :
    (∀ x, (toyD toyKey x).length = x.length) ∧ ([0, 0, 0, 0] : Bytes).length = 4 ∧ ([0, 0, 0, 0xff] : Bytes).length = 4 ∧
      2 * 4 ≤ ([0xb3, 0xa1, 0xd7, 0xc5, 0x03, 0x66, 0x05, 0x72] : Bytes).length ∧
      CpDecAccepts (toyD toyKey) 4 [0, 0, 0, 0] [0xb3, 0xa1, 0xd7, 0xc5, 0x03, 0x66, 0x05, 0x72] :=
  ⟨toyD_length toyKey, rfl, rfl, by decide, by decide, by decide, (padOk_iff_endsInPadding 4 _ rfl).1 (by decide)⟩

/-- T66b's ciphertexts. -/
theorem witness_CorruptionFlipsNextBlock :
    (∀ x, (toyD toyKey x).length = x.length) ∧
      (0 + 2) * 4 ≤ ([0xb3, 0xa1, 0xd7, 0xc5, 0x03, 0x66, 0x05, 0x72] : Bytes).length ∧
      blockAt 4 [0xb3, 0xa1, 0xd7, 0xc4, 0x03, 0x66, 0x05, 0x72] 1 =
        blockAt 4 [0xb3, 0xa1, 0xd7, 0xc5, 0x03, 0x66, 0x05, 0x72] 1 :=
  ⟨toyD_length toyKey, by decide, by decide⟩

theorem witness_EncryptUndoesDecrypt :
    (∀ x, (toyE toyKey x).length = x.length) ∧ (∀ x, (toyD toyKey x).length = x.length) ∧
      Inverts (toyD toyKey) (toyE toyKey) 4 := ⟨toyE_length toyKey, toyD_length toyKey, toy_inverts toyKey⟩

/-- Good operands with exactly the required capacity. -/
theorem witness_OneShotComputesWholeMessage :
    base.Inv ∧ base.phase ≠ .active ∧
      (∃ d, base.params.algTable.lookup (15 : AlgId) = some d ∧ toyKey.length ∈ d.keyLens ∧
        ([0, 0, 0, 0] : Bytes).length = d.blockSize ∧ chunk.length + d.blockSize < 2 ^ base.params.lenW ∧
        needCap .cp .enc d.blockSize chunk.length ≤ 8 ∧ needCap .cp .dec d.blockSize chunk.length ≤ 5) ∧
      toyKey.length < 2 ^ 32 :=
  ⟨base_inv, by decide, ⟨_, rfl, by decide⟩, by decide⟩

/-- The operands of each error of R158: an unknown ALG, a short key, a short Context, a capacity one short. -/
theorem witness_OneShotErrorsInOrder :
    base.Inv ∧ base.phase ≠ .active ∧ base.params.algTable.lookup (2 : AlgId) = none ∧
      ∃ d, base.params.algTable.lookup (15 : AlgId) = some d ∧ ([1, 2, 3] : Bytes).length ∉ d.keyLens ∧
        toyKey.length ∈ d.keyLens ∧ ([0, 0, 0] : Bytes).length ≠ d.blockSize ∧
        ([0, 0, 0, 0] : Bytes).length = d.blockSize ∧ 7 < needCap .cp .enc d.blockSize chunk.length :=
  ⟨base_inv, by decide, by decide, _, rfl, by decide⟩

theorem witness_OneShotFitsItsCapacity :
    base.Inv ∧ ∃ d x, base.params.algTable.lookup (15 : AlgId) = some d ∧
      oneShot .encx 15 toyKey .ctr [0, 0, 0, 0] [0x11] 1 base = .next x ∧ x.err = .ok :=
  ⟨base_inv, _, _, rfl, rfl, rfl⟩

end Sys2Proof.Tests
end

section
/-! Family 10_state.md: what a register read answers, what FINISH and a fed chunk leave of a session, and the obligations O10, O11, O17, O39, O40, O41. -/

namespace Sys2Proof.Machine

/-! ### Register reads (10_state.md R29, R30, R39) -/

/-- The host's pending actions are no part of what a register reads. -/
theorem readReg_host (s : State) (rest : List HostOp) (r : Reg) :
    readReg { s with host := rest } r = readReg s r := by
  cases r <;> rfl

/-- No register read looks at the secrets (10_state.md R39). -/
theorem readReg_secrets (s : State) (k c b : Bytes) (o : Nat) (r : Reg) :
    readReg { s with key := k, chain := c, buf := b, occ := o } r = readReg s r := by
  cases r <;> rfl

/-- The step of a register read: the action is taken and the map's value lands in `rdata`. -/
theorem step_read (s : State) (n : Nat) (rest : List HostOp) (hw : s.params.wf = true)
    (hh : s.host = .read n :: rest) :
    step s = .next { s with host := rest, rdata := readReg s (regOf s.params n) } := by
  rw [step, if_pos hw, nextHostOp, hh]
  simp only [runHostOp, readReg_host]

/-- Byte `i` of the window CTX_OUT stands in register `0x30 + i div 4`, also where windows collide (10_state.md R29; log 8). -/
theorem regOf_ctxOut (p : Params) (i : Nat) (hi : i < p.bsMax) : regOf p (0x30 + i / 4) = .ctxOut (i / 4) := by
  have hr : i / 4 < windowRegs p.bsMax := by rw [windowRegs]; omega
  rw [regOf_window _ _ (by omega), if_pos ⟨by omega, by omega⟩, Nat.add_sub_cancel_left]

/-- CTX_OUT byte by byte (10_state.md R32). -/
theorem byteAt_ctxOut (s : State) (i : Nat) (hw : s.ctx0.length = s.params.bsMax) (hi : i < s.params.bsMax) :
    byteAt (ctxOut s) i = if s.ctxv = true ∧ i < s.blockSize then byteAt s.ctx0 i else 0 := by
  rw [ctxOut]
  by_cases hv : s.ctxv = true
  · by_cases hb : i < s.blockSize
    · have hl : i < (s.ctx0.take s.blockSize).length := by rw [List.length_take]; omega
      simp only [hv, hb, and_self, if_true, byteAt, List.getD_eq_getElem?_getD,
        List.getElem?_append_left hl, List.getElem?_take_of_lt hb]
    · have hl : (s.ctx0.take s.blockSize).length ≤ i := by rw [List.length_take]; omega
      rw [if_pos hv, if_neg (fun h => hb h.2), byteAt, List.getD_append_right _ _ _ _ hl]
      exact (byteAt_rep _ _ _).trans (ite_self _)
  · rw [if_neg hv, if_neg (fun h => hv h.1), byteAt_rep, ite_self]

/-- While CTXV = 1 the used bytes of CTX_OUT are those of CTX0 (10_state.md R32). -/
theorem ctxOut_take_blockSize (s : State) (hv : s.ctxv = true) (hb : s.blockSize ≤ s.ctx0.length) :
    (ctxOut s).take s.blockSize = s.ctx0.take s.blockSize := by
  rw [ctxOut, if_pos hv, List.take_append_of_le_length (by rw [List.length_take]; omega), List.take_take, Nat.min_self]

/-- Settles O10: the number of a CTX_OUT byte maps to its window word, whose bytes are those of `ctxOut`. -/
theorem ctxOutReadsInitialContext : Obligations.CtxOutReadsInitialContext := by
  intro s n rest hinv hhost
  refine ⟨_, step_read s n rest hinv.params_wf hhost, ?_⟩
  rintro i hi rfl
  rw [regOf_ctxOut _ _ hi]
  show byteOfWord (windowWord (ctxOut s) (i / 4)) (i % 4) = _
  rw [byteOfWord_windowWord _ _ _ (Nat.mod_lt _ (by decide)), Nat.div_add_mod, byteAt_ctxOut s i hinv.ctx0_width hi]

/-- Settles O11: a read step answers a value of `readReg`, which the secrets do not enter. -/
theorem secretsAreNotReadable : Obligations.SecretsAreNotReadable := by
  intro s n rest k c b o hw hhost
  refine ⟨_, step_read s n rest hw hhost, ?_⟩
  rw [step_read { s with key := k, chain := c, buf := b, occ := o } n rest hw hhost, readReg_secrets]

/-! ### What FINISH leaves of a session (40_engine.md R95, R97) -/

/-- Whatever its result, FINISH closes the session and then writes OUT, OUT_LEN and ERR only. -/
theorem deliver_eq_closeSession (res : Except Err Bytes) (s : State) :
    ∃ o n e, deliver res s = { closeSession s with out := o, outLen := n, err := e } := by
  cases res with
  | ok bytes => exact ⟨_, _, _, rfl⟩
  | error e => exact ⟨_, _, _, rfl⟩

/-! ### Which commands write which registers (10_state.md R21 to R28) -/

/-- Settles O39, over the effects a command can have. -/
theorem registerWriters : Obligations.RegisterWriters := by
  intro i s t he
  obtain ⟨e, rfl, -⟩ | ⟨a, d, rfl, -, hp, -, rfl⟩ | ⟨m, rfl, hp, rfl⟩ | ⟨m, rfl, hp, -, rfl⟩ | ⟨m, rfl, hp, -, rfl⟩ |
    ⟨c, rfl, hp, -, -, -, rfl⟩ | ⟨rfl, hp, -, rfl⟩ | ⟨rfl, rfl⟩ := exec_cases i s t he
  · -- an error raised
    simp +contextual
  · -- BINDKEY
    simp [hp]
  · -- BEGINENC
    simp [hp]
  · -- BEGINENCX
    simp [hp]
  · -- BEGINDEC
    simp [hp]
  · -- UPDATE
    simp [hp]
  · -- FINISH
    obtain ⟨o, n, e, hd⟩ := deliver_eq_closeSession (finishResult Config.blackbox s) s
    simp [hd]
  · -- RESET
    simp

/-- Settles O40, over the effects a command can have. -/
theorem ctxvFollowsItsRule : Obligations.CtxvFollowsItsRule := by
  intro i s t he
  obtain ⟨e, rfl, hok, -⟩ | ⟨a, d, rfl, -, -, -, rfl⟩ | ⟨m, rfl, -, rfl⟩ | ⟨m, rfl, -, -, rfl⟩ | ⟨m, rfl, -, -, rfl⟩ |
    ⟨c, rfl, -, -, -, -, rfl⟩ | ⟨rfl, -, -, rfl⟩ | ⟨rfl, rfl⟩ := exec_cases i s t he
  · -- an error raised
    simp [hok]
  · -- BINDKEY
    simp
  · -- BEGINENC
    simp
  · -- BEGINENCX
    simp
  · -- BEGINDEC
    simp
  · -- UPDATE
    simp
  · -- FINISH
    obtain ⟨o, n, e, hd⟩ := deliver_eq_closeSession (finishResult Config.blackbox s) s
    simp [hd]
  · -- RESET
    simp

/-- Settles O41: no meaning has ERR or OUT_LEN among its operands, and every one overwrites both. -/
theorem resultOfLastCommandIsForgotten : Obligations.ResultOfLastCommandIsForgotten := by
  intro i s e n
  cases i <;> rfl

/-! ### The Context through a session (40_engine.md R98) -/

/-- A state is of its own session. -/
theorem SameSession.refl (s : State) : SameSession s s := ⟨rfl, rfl, rfl, rfl, rfl, rfl, rfl, rfl⟩

/-- What CTX_OUT reads is fixed by the session. -/
theorem SameSession.ctxOut_eq {s t} (h : SameSession s t) : ctxOut t = ctxOut s := by
  simp only [ctxOut, h.ctxv, h.ctx0, h.params, h.blockSize]

/-- An UPDATE that ends with OK leaves the session open and the same, whatever the chunk and the capacity it was given. -/
theorem updateWith_sameSession (P : Prim) (c : Chunk) (s t : State) (hok : t.err = .ok)
    (he : updateWith P (setIn c.data (setCap c.cap s)) = .next t) : t.phase = .active ∧ SameSession s t := by
  rcases updateWith_cases P (setIn c.data (setCap c.cap s)) with
    ⟨-, h⟩ | ⟨-, -, h⟩ | ⟨-, -, -, h⟩ | ⟨-, -, -, -, h⟩ | ⟨chunk, -, hp, -, -, h⟩ <;> rw [h] at he <;> cases he
  · cases hok
  · cases hok
  · exact ⟨hp, ⟨rfl, rfl, rfl, rfl, rfl, rfl, rfl, rfl⟩⟩

/-- Chunks that are all accepted leave an open session open and the same. -/
theorem feedWith_sameSession (P : Prim) (cs : List Chunk) (s u : State) (o : Bytes) (hp : s.phase = .active)
    (h : feedWith (updateWith P) cs s = some (o, u)) : u.phase = .active ∧ SameSession s u := by
  induction cs generalizing s o with
  | nil =>
    cases h
    exact ⟨hp, .refl u⟩
  | cons c cs ih =>
    obtain ⟨t, -, o', he, hok, -, hrest, -⟩ := feedWith_cons _ _ _ _ _ _ h
    obtain ⟨htp, hst⟩ := updateWith_sameSession P c s t hok he
    obtain ⟨hup, htu⟩ := ih t o' htp hrest
    exact ⟨hup, ⟨htu.params.trans hst.params, htu.alg.trans hst.alg, htu.key.trans hst.key, htu.mode.trans hst.mode,
      htu.dir.trans hst.dir, htu.ctx0.trans hst.ctx0, htu.ctxv.trans hst.ctxv, htu.placement.trans hst.placement⟩⟩

/-- A BEGIN that ends with OK has opened a session in phase KEYED, a decryption exactly if it is BEGINDEC (43_context_and_binding.md R139). -/
theorem begin_ok_opens (i : Instr) (m : Mode) (s t : State)
    (hi : i = .beginenc m ∨ i = .beginencx m ∨ i = .begindec m) (he : exec i s = .next t) (hok : t.err = .ok) :
    ∃ d c n, s.phase = .keyed ∧ (d = .dec ↔ i = .begindec m) ∧ t = { openSession m d c s with draws := n } := by
  rcases hi with rfl | rfl | rfl
  · rcases execBeginenc_cases m s with ⟨hp, h⟩ | ⟨-, h⟩ <;> cases he.symm.trans h
    · exact ⟨.enc, _, _, hp, by simp, rfl⟩
    · cases hok
  · rcases beginWithContext_cases m .enc s with ⟨hp, -, h⟩ | ⟨-, -, h⟩ | ⟨-, h⟩ <;> cases he.symm.trans h
    · exact ⟨.enc, _, _, hp, by simp, rfl⟩
    · cases hok
    · cases hok
  · rcases beginWithContext_cases m .dec s with ⟨hp, -, h⟩ | ⟨-, -, h⟩ | ⟨-, h⟩ <;> cases he.symm.trans h
    · exact ⟨.dec, _, _, hp, by simp, rfl⟩
    · cases hok
    · cases hok

/-- FINISH in an open session ends it and keeps the Context (40_engine.md R98). -/
theorem execFinish_keeps_context (s v : State) (hp : s.phase = .active) (he : exec .finish s = .next v) :
    v.phase = .done ∧ v.ctx0 = s.ctx0 ∧ v.ctxv = s.ctxv ∧ ctxOut v = ctxOut s := by
  rcases finishWith_cases Config.blackbox s with ⟨-, h⟩ | ⟨-, hn, -⟩ | ⟨-, -, h⟩
  · cases he.symm.trans h
  · exact absurd hp hn
  · cases he.symm.trans h
    obtain ⟨o, n, e, hd⟩ := deliver_eq_closeSession (finishResult Config.blackbox s) s
    rw [hd]
    exact ⟨rfl, rfl, rfl, rfl⟩

/-- Settles O17: the chunks keep the session BEGIN opened, and FINISH keeps its Context. -/
theorem contextReadableThroughSession : Obligations.ContextReadableThroughSession := by
  intro i m s t u v cs o cap hi hinv he hok hfeed hfin
  obtain ⟨d, c, n, hkeyed, hd, ht⟩ := begin_ok_opens i m s t hi he hok
  obtain ⟨hup, htu⟩ := feedWith_sameSession Config.blackbox cs t u o (by rw [ht]; rfl) hfeed
  obtain ⟨hdone, hctx0, hctxv, hout⟩ := execFinish_keeps_context (setCap cap u) v hup hfin
  have hvt : v.ctxv = t.ctxv := hctxv.trans htu.ctxv
  have hot : ctxOut v = ctxOut t := hout.trans htu.ctxOut_eq
  have htv : t.ctxv = decide (d = .enc) := by rw [ht]; rfl
  refine ⟨hdone, hctx0.trans htu.ctx0, hvt, hot, fun hne => ?_, fun hdec => ?_⟩
  · have hde : d = .enc := by
      cases d with
      | enc => rfl
      | dec => exact absurd (hd.1 rfl) hne
    have hv : t.ctxv = true := by rw [htv, hde]; rfl
    have hbs : t.blockSize = s.blockSize := by rw [ht]; rfl
    have hwide : t.blockSize ≤ t.ctx0.length := by
      have hb := hinv.blockSize_bounds (by rw [hkeyed]; decide)
      rw [hbs, ht]
      simpa using hb.2.2
    have hchain : t.ctx0 = t.chain := by rw [ht]; rfl
    exact ⟨hvt.trans hv, by rw [hot, ← hbs, ctxOut_take_blockSize t hv hwide, hchain, State.chainUsed]⟩
  · have hv : t.ctxv = false := by rw [htv, hd.2 hdec]; rfl
    have hparams : t.params = s.params := by rw [ht]; rfl
    exact ⟨hvt.trans hv, by rw [hot, ctxOut, hv, hparams]; rfl⟩

end Sys2Proof.Machine
end

section
/-! Family 20_memory.md: the host's actions and the register map, what the commands have to do with the buffers, and the obligations O4, O6, O7, O38, O42, O43. -/

namespace Sys2Proof.Machine

/-! ### The host's actions (20_memory.md R56, R63) -/

/-- With well-formed parameters a step takes the host's next action. -/
theorem step_host (s : State) (op : HostOp) (rest : List HostOp) (hw : s.params.wf = true)
    (hh : s.host = op :: rest) : step s = runHostOp op { s with host := rest } := by
  rw [step, if_pos hw, nextHostOp, hh]

/-- Settles O4: register 0x00 is CMD, whose write runs the decoded command. -/
theorem stepRunsDecodedCommand : Obligations.StepRunsDecodedCommand := by
  intro s w i rest hw hhost hdec
  rw [step_host s _ rest hw hhost]
  show runCommand w { s with host := rest } = _
  rw [runCommand, hdec]

/-! ### The register map read backwards (10_state.md R29, R30) -/

/-- The numbers of CMD and of the length registers the host writes, whatever the windows are. -/
theorem regOf_eq_single (p : Params) (n : Nat) :
    (regOf p n = .cmd ↔ n = 0x00) ∧ (regOf p n = .inLen ↔ n = 0x03) ∧ (regOf p n = .outCap ↔ n = 0x04) ∧
      (regOf p n = .keyLen ↔ n = 0x06) ∧ (regOf p n = .ctxLen ↔ n = 0x07) := by
  by_cases hn : 8 ≤ n
  · rw [regOf_window p n hn]
    split_ifs <;> simp <;> omega
  · interval_cases n <;> simp [regOf]

/-- Windows that do not collide have at most 16 registers. -/
theorem WindowsApart.regs_le {p : Params} (h : WindowsApart p) :
    windowRegs p.keyMax ≤ 16 ∧ windowRegs p.bsMax ≤ 16 := by
  obtain ⟨hkey, hblock⟩ := h
  simp only [windowRegs]
  omega

/-- The numbers of the operand windows, where no windows collide. -/
theorem regOf_eq_window (p : Params) (n k : Nat) (ha : WindowsApart p) :
    (regOf p n = .keyIn k ↔ n = 0x10 + k ∧ k < windowRegs p.keyMax) ∧
      (regOf p n = .ctxIn k ↔ n = 0x20 + k ∧ k < windowRegs p.bsMax) := by
  obtain ⟨hkey, hblock⟩ := ha.regs_le
  by_cases hn : 8 ≤ n
  · rw [regOf_window p n hn]
    split_ifs <;> simp <;> omega
  · interval_cases n <;> simp [regOf] <;> omega

/-- Byte `i` of a window stands in one of its registers. -/
theorem div_four_lt_windowRegs {i n : Nat} (h : i < n) : i / 4 < windowRegs n := by
  rw [windowRegs]; omega

/-- Byte `i` of KEY_IN stands in register `0x10 + i div 4` and in no other. -/
theorem regOf_eq_keyIn (p : Params) (n i : Nat) (ha : WindowsApart p) (hi : i < p.keyMax) :
    regOf p n = .keyIn (i / 4) ↔ n = 0x10 + i / 4 :=
  (regOf_eq_window p n _ ha).1.trans (and_iff_left (div_four_lt_windowRegs hi))

/-- Byte `i` of CTX_IN stands in register `0x20 + i div 4` and in no other. -/
theorem regOf_eq_ctxIn (p : Params) (n i : Nat) (ha : WindowsApart p) (hi : i < p.bsMax) :
    regOf p n = .ctxIn (i / 4) ↔ n = 0x20 + i / 4 :=
  (regOf_eq_window p n _ ha).2.trans (and_iff_left (div_four_lt_windowRegs hi))

/-! ### Register writes (10_state.md R29, R30) -/

section
variable (s : State) (r : Reg) (v : Word)

/-- A register write leaves everything but the operand registers alone. -/
theorem writeReg_frame :
    writeReg s r v = { s with
      inLen := (writeReg s r v).inLen, outCap := (writeReg s r v).outCap,
      keyLen := (writeReg s r v).keyLen, ctxLen := (writeReg s r v).ctxLen,
      keyIn := (writeReg s r v).keyIn, ctxIn := (writeReg s r v).ctxIn } := by
  cases r <;> rfl

@[simp] theorem writeReg_inLen :
    (writeReg s r v).inLen = if r = .inLen then lenValue s.params v.toNat else s.inLen := by
  cases r <;> rfl

@[simp] theorem writeReg_outCap :
    (writeReg s r v).outCap = if r = .outCap then lenValue s.params v.toNat else s.outCap := by
  cases r <;> rfl

@[simp] theorem writeReg_keyLen : (writeReg s r v).keyLen = if r = .keyLen then v.toNat else s.keyLen := by
  cases r <;> rfl

@[simp] theorem writeReg_ctxLen : (writeReg s r v).ctxLen = if r = .ctxLen then v.toNat else s.ctxLen := by
  cases r <;> rfl

@[simp] theorem writeReg_keyIn_length : (writeReg s r v).keyIn.length = s.keyIn.length := by
  cases r with
  | keyIn k => exact setWindow_length s.keyIn k v
  | _ => rfl

@[simp] theorem writeReg_ctxIn_length : (writeReg s r v).ctxIn.length = s.ctxIn.length := by
  cases r with
  | ctxIn k => exact setWindow_length s.ctxIn k v
  | _ => rfl

/-- A window word written replaces the window's bytes by its own, the least significant first. -/
theorem byteAt_setWindow_byteOfWord (w : Bytes) (k i : Nat) (hi : i < w.length) :
    byteAt (setWindow w k v) i = if k = i / 4 then byteOfWord v (i % 4) else byteAt w i := by
  rw [byteAt_setWindow w k i v hi, extractLsb_eq_byteOfWord]
  simp only [eq_comm]

/-- KEY_IN byte by byte after a register write. -/
theorem byteAt_writeReg_keyIn (i : Nat) (hi : i < s.keyIn.length) :
    byteAt (writeReg s r v).keyIn i =
      if r = .keyIn (i / 4) then byteOfWord v (i % 4) else byteAt s.keyIn i := by
  cases r with
  | keyIn k => simpa [writeReg] using byteAt_setWindow_byteOfWord v s.keyIn k i hi
  | _ => rfl

/-- CTX_IN byte by byte after a register write. -/
theorem byteAt_writeReg_ctxIn (i : Nat) (hi : i < s.ctxIn.length) :
    byteAt (writeReg s r v).ctxIn i =
      if r = .ctxIn (i / 4) then byteOfWord v (i % 4) else byteAt s.ctxIn i := by
  cases r with
  | ctxIn k => simpa [writeReg] using byteAt_setWindow_byteOfWord v s.ctxIn k i hi
  | _ => rfl

end

/-- A write to any register but CMD runs no command. -/
theorem runHostOp_write (s : State) (n : Nat) (v : Word) (hn : n ≠ 0x00) :
    runHostOp (.write n v) s = .next (writeReg s (regOf s.params n) v) := by
  have hcmd : regOf s.params n ≠ .cmd := mt (regOf_eq_single s.params n).1.1 hn
  rw [runHostOp]
  split
  · next h => exact absurd h hcmd
  · rfl

/-- Settles O6: the number names one register, and each operand register changes exactly under its own. -/
theorem operandWriteSetsOnlyItsRegister : Obligations.OperandWriteSetsOnlyItsRegister := by
  intro s n v rest hinv hwin hhost hn
  obtain ⟨-, hinLen, houtCap, hkeyLen, hctxLen⟩ := regOf_eq_single s.params n
  refine ⟨_, (step_host s _ rest hinv.params_wf hhost).trans (runHostOp_write _ n v hn),
    writeReg_frame _ _ v, ?_, ?_, ?_, ?_, ?_, ?_, fun i hi => ?_, fun i hi => ?_⟩
  · exact (writeReg_inLen _ _ v).trans (if_congr hinLen rfl rfl)
  · exact (writeReg_outCap _ _ v).trans (if_congr houtCap rfl rfl)
  · exact (writeReg_keyLen _ _ v).trans (if_congr hkeyLen rfl rfl)
  · exact (writeReg_ctxLen _ _ v).trans (if_congr hctxLen rfl rfl)
  · exact (writeReg_keyIn_length _ _ v).trans hinv.keyIn_width
  · exact (writeReg_ctxIn_length _ _ v).trans hinv.ctxIn_width
  · refine (byteAt_writeReg_keyIn _ _ v i ?_).trans (if_congr (regOf_eq_keyIn s.params n i hwin hi) rfl rfl)
    exact hi.trans_eq hinv.keyIn_width.symm
  · refine (byteAt_writeReg_ctxIn _ _ v i ?_).trans (if_congr (regOf_eq_ctxIn s.params n i hwin hi) rfl rfl)
    exact hi.trans_eq hinv.ctxIn_width.symm

/-! ### Register reads (10_state.md R29, R30) -/

/-- Behind the single registers, every number outside the windows CTX_IN and CTX_OUT reads 0. -/
theorem readReg_eq_zero (s : State) (n : Nat) (h8 : 8 ≤ n)
    (hin : ¬ (0x20 ≤ n ∧ n < 0x20 + windowRegs s.params.bsMax))
    (hout : ¬ (0x30 ≤ n ∧ n < 0x30 + windowRegs s.params.bsMax)) : readReg s (regOf s.params n) = 0 := by
  rw [regOf_window _ _ h8, if_neg hout, if_neg hin]
  split <;> rfl

/-- Settles O7: a read step answers `readReg` of the register the number names. -/
theorem registerReadFollowsTheMap : Obligations.RegisterReadFollowsTheMap := by
  intro s n rest hinv hwin hhost
  have hregs : windowRegs s.params.bsMax = (s.params.bsMax + 3) / 4 := rfl
  have hle := hwin.regs_le.2
  refine ⟨_, step_read s n rest hinv.params_wf hhost, ?_, ?_, ?_, ?_, ?_, ?_, ?_, ?_, ?_, ?_⟩
  · rintro rfl
    rfl
  · rintro rfl
    exact BitVec.toNat_ofNat _ _
  · rintro rfl
    exact BitVec.toNat_ofNat _ _
  · rintro rfl
    exact BitVec.toNat_ofNat _ _
  · rintro rfl
    exact (BitVec.toNat_ofNat _ _).trans (Nat.mod_eq_of_lt hinv.keyLen_fits)
  · rintro rfl
    exact (BitVec.toNat_ofNat _ _).trans (Nat.mod_eq_of_lt hinv.ctxLen_fits)
  · intro hlo hhi
    exact readReg_eq_zero s n hlo (by omega) (by omega)
  · intro i hi hn
    rw [(regOf_eq_ctxIn s.params n i hwin hi).2 hn]
    show byteOfWord (windowWord s.ctxIn (i / 4)) (i % 4) = _
    rw [byteOfWord_windowWord _ _ _ (Nat.mod_lt _ (by decide)), Nat.div_add_mod]
  · intro hlo hhi
    exact readReg_eq_zero s n (by omega) (by omega) (by omega)
  · intro hlo
    exact readReg_eq_zero s n (by omega) (by omega) (by omega)

/-! ### What a command has to do with the buffers (20_memory.md R51, R52) -/

/-- `s` with another input slice, another IN_LEN and another output buffer. -/
def State.withBuffers (s : State) (m : Memory) (n : Nat) (o : Memory) : State :=
  { s with inp := m, inLen := n, out := o }

section
variable (s : State) (m : Memory) (n : Nat) (o : Memory)

@[simp] theorem withBuffers_params : (s.withBuffers m n o).params = s.params := rfl
@[simp] theorem withBuffers_phase : (s.withBuffers m n o).phase = s.phase := rfl
@[simp] theorem withBuffers_keyLen : (s.withBuffers m n o).keyLen = s.keyLen := rfl
@[simp] theorem withBuffers_ctxLen : (s.withBuffers m n o).ctxLen = s.ctxLen := rfl
@[simp] theorem withBuffers_placement : (s.withBuffers m n o).placement = s.placement := rfl
@[simp] theorem withBuffers_blockSize : (s.withBuffers m n o).blockSize = s.blockSize := rfl

/-- BINDKEY uses no buffer. -/
theorem execBindkey_withBuffers (a : AlgId) :
    execBindkey a (s.withBuffers m n o) = andThen (execBindkey a s) fun t => .next (t.withBuffers m n o) := by
  rcases execBindkey_cases a s with ⟨hl, h⟩ | ⟨d, hl, ⟨hp, h⟩ | ⟨hp, hk, h⟩ | ⟨hp, hk, h⟩⟩ <;> rw [h]
  · simp [execBindkey, hl]; rfl
  · simp [execBindkey, hl, hp]; rfl
  · simp [execBindkey, hl, hp, hk]; rfl
  · simp [execBindkey, hl, hp, hk]; rfl

/-- BEGINENC uses no buffer. -/
theorem execBeginenc_withBuffers (md : Mode) :
    execBeginenc md (s.withBuffers m n o) = andThen (execBeginenc md s) fun t => .next (t.withBuffers m n o) := by
  rcases execBeginenc_cases md s with ⟨hp, h⟩ | ⟨hp, h⟩ <;> rw [h]
  · simp [execBeginenc, beginencWith, hp]; rfl
  · simp [execBeginenc, beginencWith, hp]; rfl

/-- A BEGIN command with a supplied Context uses no buffer. -/
theorem beginWithContext_withBuffers (md : Mode) (d : Dir) :
    beginWithContext md d (s.withBuffers m n o) =
      andThen (beginWithContext md d s) fun t => .next (t.withBuffers m n o) := by
  rcases beginWithContext_cases md d s with ⟨hp, hc, h⟩ | ⟨hp, hc, h⟩ | ⟨hp, h⟩ <;> rw [h]
  · simp [beginWithContext, hp, hc]; rfl
  · simp [beginWithContext, hp, hc]; rfl
  · simp [beginWithContext, hp]; rfl

end

/-- BINDKEY and the BEGIN commands use no buffer: with others they have the same outcome. -/
theorem exec_withBuffers_eq_andThen (i : Instr) (s : State) (m : Memory) (n : Nat) (o : Memory)
    (hu : i ≠ .update) (hf : i ≠ .finish) (hr : i ≠ .reset) :
    exec i (s.withBuffers m n o) = andThen (exec i s) fun t => .next (t.withBuffers m n o) := by
  cases i with
  | bindkey a => exact execBindkey_withBuffers s m n o a
  | beginenc md => exact execBeginenc_withBuffers s m n o md
  | beginencx md => exact beginWithContext_withBuffers s m n o md .enc
  | begindec md => exact beginWithContext_withBuffers s m n o md .dec
  | update => exact absurd rfl hu
  | finish => exact absurd rfl hf
  | reset => exact absurd rfl hr

/-- A command has an output run only when it is an UPDATE that accepts its chunk or a FINISH accepted in phase ACTIVE. -/
theorem exec_outLen_cases (i : Instr) (s t : State) (he : exec i s = .next t) :
    t.outLen = 0 ∨
      (∃ c, i = .update ∧ s.phase = .active ∧ s.placement.apartForUpdate = true ∧
        s.inLen + s.blockSize ≤ s.outCap ∧ inOperand s = some c ∧ t = acceptChunk Config.blackbox c s) ∨
      (i = .finish ∧ s.phase = .active ∧ t = deliver (finishResult Config.blackbox s) s) := by
  obtain ⟨e, rfl, -⟩ | ⟨a, d, -, -, -, -, rfl⟩ | ⟨md, -, -, rfl⟩ | ⟨md, -, -, -, rfl⟩ | ⟨md, -, -, -, rfl⟩ |
    hupdate | ⟨rfl, hp, -, ht⟩ | ⟨-, rfl⟩ := exec_cases i s t he
  · exact .inl rfl
  · exact .inl rfl
  · exact .inl rfl
  · exact .inl rfl
  · exact .inl rfl
  · exact .inr (.inl hupdate)
  · exact .inr (.inr ⟨rfl, hp, ht⟩)
  · exact .inl rfl

/-- The run of FINISH fits the capacity: it is at most `B` bytes long, and there is none below a capacity of `B` (40_engine.md R95). -/
theorem deliver_outLen_le (P : Prim) (hP : KeepsLength P) (s : State) (hi : s.Inv) (hp : s.phase = .active) :
    (deliver (finishResult P s) s).outLen ≤ s.outCap := by
  cases hres : finishResult P s with
  | error e => exact Nat.zero_le _
  | ok bytes =>
    show bytes.length ≤ s.outCap
    rw [finishResult] at hres
    split at hres
    · cases hres
    · have hlen : bytes.length ≤ s.blockSize :=
        finishMode_length _ _ _ _ _ _ _ _ (fun _ => hP.enc _ _ _) (hi.chainUsed_length (by simp [hp]))
          (hi.retained_length.trans_le (hi.occ_le hp)) hres
      omega

/-- No command's OUT_LEN is above the capacity (20_memory.md R52; 40_engine.md R104). -/
theorem exec_outLen_le (i : Instr) (s t : State) (hi : s.Inv) (he : exec i s = .next t) : t.outLen ≤ s.outCap := by
  obtain h0 | ⟨c, rfl, hp, ha, hc, hin, rfl⟩ | ⟨rfl, hp, rfl⟩ := exec_outLen_cases i s t he
  · omega
  · exact (acceptChunk_outLen_le _ s c ⟨hi, hp, ha, hin, hc⟩).2
  · exact deliver_outLen_le _ blackbox_keepsLength s hi hp

/-- What FINISH delivers does not depend on the buffers; of OUT it writes one run. -/
theorem deliver_withBuffers (res : Except Err Bytes) (s : State) :
    ∃ run, run.length = (deliver res s).outLen ∧ ∀ m n o,
      deliver res (s.withBuffers m n o) = (deliver res s).withBuffers m n (Memory.writeBytes o 0 run) := by
  cases res with
  | ok bytes => exact ⟨bytes, rfl, fun _ _ _ => rfl⟩
  | error e => exact ⟨[], rfl, fun _ _ _ => rfl⟩

/-- FINISH uses no input, and of OUT only the run it writes. -/
theorem finishWith_withBuffers (P : Prim) (s t : State) (he : finishWith P s = .next t) :
    ∃ run, run.length = t.outLen ∧ ∀ m n o,
      finishWith P (s.withBuffers m n o) = .next (t.withBuffers m n (Memory.writeBytes o 0 run)) := by
  rcases finishWith_cases P s with ⟨ha, h⟩ | ⟨ha, hp, h⟩ | ⟨ha, hp, h⟩ <;> cases he.symm.trans h
  · exact ⟨[], rfl, fun m n o => by simp [finishWith, ha, hp]; rfl⟩
  · obtain ⟨run, hl, hd⟩ := deliver_withBuffers (finishResult P s) s
    exact ⟨run, hl, fun m n o => by simp [finishWith, ha, hp, ← hd]; rfl⟩

/-- What a command leaves, read off its outcome under the buffers the state has. -/
theorem eq_withBuffers_of_exec {i : Instr} {s t : State} {f : Memory → Memory} (he : exec i s = .next t)
    (h : ∀ m n o, exec i (s.withBuffers m n o) = .next (t.withBuffers m n (f o))) :
    t = t.withBuffers s.inp s.inLen (f s.out) :=
  Host.Outcome.next.inj (he.symm.trans (h s.inp s.inLen s.out))

/-- A command other than UPDATE and RESET uses no input, and of OUT only the run it writes from index 0 on. -/
theorem exec_withBuffers (i : Instr) (s t : State) (hu : i ≠ .update) (hr : i ≠ .reset) (he : exec i s = .next t) :
    ∃ run, run.length = t.outLen ∧ ∀ m n o,
      exec i (s.withBuffers m n o) = .next (t.withBuffers m n (Memory.writeBytes o 0 run)) := by
  by_cases hf : i = .finish
  · subst hf
    exact finishWith_withBuffers _ s t he
  · have h0 : t.outLen = 0 := by
      obtain h0 | ⟨_, h, _⟩ | ⟨h, _⟩ := exec_outLen_cases i s t he
      · exact h0
      · exact absurd h hu
      · exact absurd h hf
    refine ⟨[], h0.symm, fun m n o => ?_⟩
    rw [exec_withBuffers_eq_andThen i s m n o hu hf hr, he]
    rfl

/-- UPDATE outside phase ACTIVE (60_exceptions.md R176). -/
theorem updateWith_inactive (P : Prim) (s : State) (ha : s.placement.apartForUpdate = true) (hp : s.phase ≠ .active) :
    updateWith P s = .next (raise .engineMisuse s) := by
  rw [updateWith, ha]
  simp [hp]

/-- UPDATE does not read OUT; of it, it writes one run. -/
theorem updateWith_out (P : Prim) (hP : KeepsLength P) (s t : State) (hi : s.Inv) (he : updateWith P s = .next t) :
    ∃ run, run.length = t.outLen ∧ ∀ o,
      updateWith P { s with out := o } = .next { t with out := Memory.writeBytes o 0 run } := by
  rcases updateWith_cases P s with ⟨-, h⟩ | ⟨ha, hp, h⟩ | ⟨ha, hp, hc, h⟩ | ⟨-, -, -, -, h⟩ | ⟨c, ha, hp, hc, hin, h⟩ <;>
    cases he.symm.trans h
  · exact ⟨[], rfl, fun o => updateWith_inactive P { s with out := o } ha hp⟩
  · exact ⟨[], rfl, fun o => updateWith_short P { s with out := o } ha hp hc⟩
  · exact ⟨_, (updateRun_length P hP s c hi hp).1, fun o => updateWith_accepts P { s with out := o } c ha hp hc hin⟩

/-- No command reads OUT (20_memory.md R52): with any other contents of it, it has the same outcome and writes the same run of OUT_LEN bytes from index 0 on. -/
theorem exec_out (i : Instr) (s t : State) (hi : s.Inv) (he : exec i s = .next t) :
    ∃ run, run.length = t.outLen ∧ ∀ o,
      exec i { s with out := o } = .next { t with out := Memory.writeBytes o 0 run } := by
  by_cases hu : i = .update
  · subst hu
    exact updateWith_out _ blackbox_keepsLength s t hi he
  · by_cases hr : i = .reset
    · subst hr
      cases he
      exact ⟨[], rfl, fun _ => rfl⟩
    · obtain ⟨run, hl, h⟩ := exec_withBuffers i s t hu hr he
      refine ⟨run, hl, fun o => (h s.inp s.inLen o).trans ?_⟩
      rw [eq_withBuffers_of_exec he h]
      rfl

/-- The OUT a command leaves is the one it found with its run written from index 0 on. -/
theorem out_eq_of_exec_out {i : Instr} {s t : State} {run : Bytes} (he : exec i s = .next t)
    (h : ∀ o, exec i { s with out := o } = .next { t with out := Memory.writeBytes o 0 run }) :
    t.out = Memory.writeBytes s.out 0 run :=
  congrArg State.out (Host.Outcome.next.inj (he.symm.trans (h s.out)))

/-- Settles O38: a command writes one run of OUT_LEN bytes from index 0 on, and the capacity was checked before. -/
theorem outputStaysInCapacity : Obligations.OutputStaysInCapacity := by
  intro i s t hi he
  obtain ⟨run, hl, h⟩ := exec_out i s t hi he
  refine ⟨exec_outLen_le i s t hi he, fun a ha => ?_, fun a ha => ?_⟩
  · rw [out_eq_of_exec_out he h, Memory.read_writeBytes_outside _ _ _ _ (by omega)]
  · rw [out_eq_of_exec_out he h, Memory.read_writeBytes, if_pos (by omega)]
    simp [hl, ha]

/-- Settles O42: the run a command writes is the same whatever OUT holds. -/
theorem outputBufferIsNeverRead : Obligations.OutputBufferIsNeverRead := by
  intro i s t o hi he
  obtain ⟨run, hl, h⟩ := exec_out i s t hi he
  refine ⟨_, h o, fun a ha => ?_, fun a ha => ?_⟩
  · rw [out_eq_of_exec_out he h, Memory.read_writeBytes, Memory.read_writeBytes, if_pos (by omega), if_pos (by omega)]
  · rw [Memory.read_writeBytes_outside _ _ _ _ (by omega)]

/-- Settles O43: by what each command does with other buffers; a failing UPDATE stops before it reads IN. -/
theorem inputIsReadByUpdateOnly : Obligations.InputIsReadByUpdateOnly := by
  intro i s t m n he
  refine ⟨fun hu hr => ?_, ?_, ?_⟩
  · obtain ⟨run, -, h⟩ := exec_withBuffers i s t hu hr he
    refine (h m n s.out).trans ?_
    rw [eq_withBuffers_of_exec he h]
    rfl
  · rintro rfl
    cases he
    rfl
  · rintro rfl hne
    rcases updateWith_cases Config.blackbox s with
        ⟨-, h⟩ | ⟨ha, hp, h⟩ | ⟨ha, hp, hc, h⟩ | ⟨-, -, -, -, h⟩ | ⟨c, ha, hp, hc, hin, h⟩ <;> cases he.symm.trans h
    · exact updateWith_inactive _ { s with inp := m } ha hp
    · exact updateWith_short _ { s with inp := m } ha hp hc
    · exact absurd rfl hne

end Sys2Proof.Machine
end

section
/-! Family 40_engine.md: what UPDATE and FINISH do to an open session, the whole-message functions undone, sessions whatever their chunks, and the obligations O18, O19, O20, O25, O30, O47, O50, O51, O52. -/

namespace Sys2Proof.Machine

/-! ### What an accepted chunk does (40_engine.md R90 to R93) -/

theorem exec_update (s : State) : exec .update s = updateWith Config.blackbox s := rfl

/-- The number of blocks as 40_engine.md R90 writes it, with the hold-back of R92. -/
theorem blockCount_eq_ite (m : Mode) (d : Dir) (bs t : Nat) :
    blockCount m d bs t = if m = .cp ∧ d = .dec then (if t = 0 then 0 else (t - 1) / bs) else t / bs := by
  cases m <;> cases d <;> rfl

theorem blockCount_ctr (d : Dir) (bs t : Nat) : blockCount .ctr d bs t = t / bs := by
  cases d <;> rfl

/-- An empty string needs no case of its own. -/
theorem blockCount_cpDec (bs t : Nat) : blockCount .cp .dec bs t = (t - 1) / bs := by
  rw [blockCount]
  split <;> simp [*]

theorem updateRest_length (s : State) (c : Bytes) (h : UpdateReady s c) :
    (updateRest s c).length = s.occ + s.inLen - updateBlocks s c * s.blockSize := by
  rw [updateRest, List.length_drop, workString_length_of_ready s c h]

theorem retained_acceptChunk (P : Prim) (s : State) (c : Bytes) : (acceptChunk P c s).retained = updateRest s c :=
  splice_take _ _

/-- Settles O18, read off the state an accepted chunk leaves. -/
theorem updateProcessesWholeBlocks : Obligations.UpdateProcessesWholeBlocks := by
  intro s chunk h
  refine ⟨acceptChunk Config.blackbox chunk s, _, updateBlocks s chunk, updateWith_ready _ s chunk h, ?_, ?_,
    outputRun_acceptChunk _ blackbox_keepsLength s chunk h,
    (updateRun_length _ blackbox_keepsLength s chunk h.inv h.active).1, retained_acceptChunk _ s chunk⟩
  · rw [updateBlocks, blockCount_eq_ite, workString_length_of_ready s chunk h]
  · rw [← updateRest_length s chunk h]
    rfl

/-- An empty chunk leaves the retained bytes, in which there is no block to process, where they are. -/
theorem acceptChunk_nil (P : Prim) (s : State) (hi : s.Inv) (hp : s.phase = .active) :
    acceptChunk P [] s = { s with err := .ok, outLen := 0 } := by
  have hwork : workString s [] = s.retained := List.append_nil _
  have hblocks : updateBlocks s [] = 0 := by
    rw [updateBlocks, hwork, hi.retained_length, blockCount_occ s hi hp]
  have hrun : updateRun P s [] = ([], s.chainUsed) := by rw [updateRun, hblocks]; rfl
  have hrest : updateRest s [] = s.retained := by rw [updateRest, hblocks, hwork, Nat.zero_mul, List.drop_zero]
  rw [acceptChunk, hrun, hrest, hblocks, hi.retained_length, Nat.zero_mul, State.chainUsed, State.retained,
    splice_take_self, splice_take_self]
  rfl

/-- Settles O19: with `IN_LEN = 0` the chunk is the empty one. -/
theorem emptyChunkChangesNothing : Obligations.EmptyChunkChangesNothing := by
  intro s hi hp ha hin hcap
  have hlent : inOperand s = some [] := by rw [inOperand, hin]; rfl
  rw [exec_update, updateWith_ready _ s [] ⟨hi, hp, ha, hlent, by omega⟩, acceptChunk_nil _ s hi hp]

/-! ### What FINISH answers (40_engine.md R95, R96) -/

/-- FINISH in an open session is short of capacity, or answers bytes, or BadPadding in a Chained-Padded decryption. -/
theorem finishResult_cases (P : Prim) (s : State) :
    (s.outCap < s.blockSize ∧ finishResult P s = .error .bufferTooSmall) ∨
      (s.blockSize ≤ s.outCap ∧ ∃ bytes, finishResult P s = .ok bytes ∧
        finishMode (s.encryptBlock P) (s.decryptBlock P) s.mode s.dir s.blockSize s.chainUsed s.retained = .ok bytes) ∨
      (s.blockSize ≤ s.outCap ∧ s.mode = .cp ∧ s.dir = .dec ∧ finishResult P s = .error .badPadding) := by
  by_cases hc : s.outCap < s.blockSize
  · exact .inl ⟨hc, if_pos hc⟩
  · have hres : finishResult P s = finishMode _ _ s.mode s.dir s.blockSize s.chainUsed s.retained := if_neg hc
    rcases finishMode_cases (s.encryptBlock P) (s.decryptBlock P) s.mode s.dir s.blockSize s.chainUsed s.retained with
      ⟨bytes, hb⟩ | ⟨hm, hd, hb⟩
    · exact .inr (.inl ⟨by omega, bytes, hres.trans hb, hb⟩)
    · exact .inr (.inr ⟨by omega, hm, hd, hres.trans hb⟩)

theorem finishMode_ctr (E D : Bytes → Bytes) (d : Dir) (bs : Nat) (chain tail : Bytes) :
    finishMode E D .ctr d bs chain tail = .ok (finishCtr E chain tail) := by
  cases d <;> rfl

theorem finishWith_active (P : Prim) (s : State) (ha : s.placement.apartForFinish = true) (hp : s.phase = .active) :
    finishWith P s = .next (deliver (finishResult P s) s) := by
  rw [finishWith, ha, hp]
  rfl

theorem setCap_keeps_inv (cap : Nat) (s : State) (h : s.Inv) : (setCap cap s).Inv :=
  { h with outCap_fits := Nat.mod_lt _ (Nat.two_pow_pos _) }

/-- Settles O20: UPDATE and FINISH compare OUT_CAP with their minimum before anything else they do in phase ACTIVE. -/
theorem bufferTooSmallExactlyBelowMinimum : Obligations.BufferTooSmallExactlyBelowMinimum := by
  intro s chunk hi hp ha hin
  constructor
  · by_cases hc : s.outCap < s.inLen + s.blockSize
    · refine ⟨_, updateWith_short _ s ha hp hc, iff_of_true rfl hc, fun _ => ⟨rfl, fun cap hcap hfits => ?_⟩⟩
      have hval : lenValue s.params cap = cap := Nat.mod_eq_of_lt hfits
      have hready : UpdateReady (setCap cap (raise .bufferTooSmall s)) chunk :=
        ⟨setCap_keeps_inv _ _ (raise_keeps_inv _ s hi), hp, ha, hin, hcap.trans hval.ge⟩
      exact ⟨_, updateWith_ready _ _ chunk hready, rfl⟩
    · exact ⟨_, updateWith_accepts _ s chunk ha hp (by omega) hin, iff_of_false (by simp) hc, by simp⟩
  · refine ⟨_, finishWith_active _ s (apartForFinish_of_apartForUpdate ha) hp, ?_⟩
    rcases finishResult_cases Config.blackbox s with ⟨hc, h⟩ | ⟨hc, bytes, h, -⟩ | ⟨hc, -, -, h⟩ <;> rw [h]
    · exact ⟨iff_of_true rfl hc, fun _ => ⟨rfl, rfl, rfl⟩⟩
    · exact ⟨iff_of_false (by simp [deliver]) (by omega), by simp [deliver]⟩
    · exact ⟨iff_of_false (by simp [deliver]) (by omega), by simp [deliver]⟩

/-! ### The frames (40_engine.md R90, R95, R106) -/

/-- Settles O25, over the outcomes of UPDATE. -/
theorem updateFrame : Obligations.UpdateFrame := by
  intro s t hi he
  rcases updateWith_cases Config.blackbox s with
      ⟨-, h⟩ | ⟨-, -, h⟩ | ⟨-, -, -, h⟩ | ⟨-, -, -, -, h⟩ | ⟨c, -, hp, -, hin, h⟩ <;> cases he.symm.trans h
  · exact ⟨rfl, fun _ => rfl, fun _ _ hok => nomatch hok⟩
  · exact ⟨rfl, fun _ => rfl, fun _ _ hok => nomatch hok⟩
  · refine ⟨rfl, fun hne => absurd rfl hne, fun chunk a _ hchunk ha => ?_⟩
    obtain rfl : c = chunk := Option.some.inj (hin.symm.trans hchunk)
    have hlen := (updateRun_length _ blackbox_keepsLength s c hi hp).1
    exact Memory.read_writeBytes_outside _ _ _ _ (by omega)

theorem finishResult_length (P : Prim) (hP : KeepsLength P) (s : State) (hi : s.Inv) (hp : s.phase = .active)
    (bytes : Bytes) (h : finishResult P s = .ok bytes) : bytes.length ≤ s.blockSize := by
  rcases finishResult_cases P s with ⟨-, h'⟩ | ⟨-, b, h', hb⟩ | ⟨-, -, -, h'⟩ <;> cases h.symm.trans h'
  exact finishMode_length _ _ _ _ _ _ _ _ (fun _ => hP.enc _ _ _) (hi.chainUsed_length (by simp [hp]))
    (hi.retained_length.trans_le (hi.occ_le hp)) hb

/-- Settles O30, over the outcomes of FINISH; that OUT is kept behind the run is what every command does. -/
theorem finishFrame : Obligations.FinishFrame := by
  intro s t hi he
  have hout := (outputStaysInCapacity .finish s t hi he).2.1
  rcases finishWith_cases Config.blackbox s with ⟨-, h⟩ | ⟨-, -, h⟩ | ⟨-, hp, h⟩ <;> cases he.symm.trans h
  · exact ⟨rfl, hout, fun _ => ⟨rfl, rfl⟩, Nat.zero_le _⟩
  · cases hres : finishResult Config.blackbox s with
    | error e => exact ⟨rfl, fun _ _ => rfl, fun _ => ⟨rfl, rfl⟩, Nat.zero_le _⟩
    | ok bytes =>
      rw [hres] at hout
      exact ⟨rfl, hout, fun hne => absurd rfl hne, finishResult_length _ blackbox_keepsLength s hi hp bytes hres⟩

/-! ### Blocks one after the other -/

theorem flatMap_range_length (bs n : Nat) (f : Nat → Bytes) (hf : ∀ j, j < n → (f j).length = bs) :
    ((List.range n).flatMap f).length = n * bs := by
  induction n with
  | zero => simp
  | succ n ih =>
    rw [List.range_succ, List.flatMap_append, List.length_append, ih fun j hj => hf j (by omega),
      List.flatMap_singleton, hf n (by omega), Nat.succ_mul]

/-- Block `j` of blocks put one after the other is the `j`-th of them. -/
theorem blockAt_flatMap_range (bs n : Nat) (f : Nat → Bytes) (hf : ∀ j, j < n → (f j).length = bs) (j : Nat)
    (hj : j < n) : blockAt bs ((List.range n).flatMap f) j = f j := by
  induction n with
  | zero => exact absurd hj (Nat.not_lt_zero j)
  | succ n ih =>
    have hfront : ∀ i, i < n → (f i).length = bs := fun i hi => hf i (by omega)
    have hlen := flatMap_range_length bs n f hfront
    rw [List.range_succ, List.flatMap_append]
    by_cases hjn : j < n
    · rw [blockAt_append_left _ _ _ _ (hlen ▸ Nat.mul_le_mul_right _ hjn), ih hfront hjn]
    · obtain rfl : j = n := by omega
      rw [blockAt, List.drop_left' hlen, List.flatMap_singleton, List.take_of_length_le (hf j hj).le]

/-- The first blocks of a string make up its front. -/
theorem flatMap_blockAt_eq_take (bs n : Nat) (s : Bytes) (h : n * bs ≤ s.length) :
    (List.range n).flatMap (blockAt bs s) = s.take (n * bs) := by
  have hlen : (s.take (n * bs)).length = n * bs := by rw [List.length_take]; omega
  refine (eq_flatMap bs n _ _ hlen fun j hj => ?_).symm
  rw [← blockAt_append_left bs (s.take (n * bs)) (s.drop (n * bs)) j (by rw [hlen]; exact Nat.mul_le_mul_right _ hj),
    List.take_append_drop]

/-! ### Padding insertion, and its check and removal (41_chained_padded.md R112, R113) -/

theorem padMessage_length (bs : Nat) (msg : Bytes) (hb : 0 < bs) :
    (padMessage bs msg).length = (msg.length / bs + 1) * bs := by
  have hmod := Nat.mod_lt msg.length hb
  have hdm := Nat.div_add_mod' msg.length bs
  rw [padMessage, List.length_append, rep_length, Nat.succ_mul]
  omega

/-- Before its last block the padded message is the message. -/
theorem blockAt_padMessage (bs : Nat) (msg : Bytes) (j : Nat) (hj : j < msg.length / bs) :
    blockAt bs (padMessage bs msg) j = blockAt bs msg j :=
  blockAt_append_left _ _ _ _ ((Nat.mul_le_mul_right _ hj).trans (Nat.div_mul_le_self _ _))

/-- The last block of the padded message is the padded rest of the message. -/
theorem blockAt_padMessage_last (bs : Nat) (msg : Bytes) (hb : 0 < bs) :
    blockAt bs (padMessage bs msg) (msg.length / bs) = padBlock bs (msg.drop (msg.length / bs * bs)) := by
  have hmod := Nat.mod_lt msg.length hb
  have hdm := Nat.div_add_mod' msg.length bs
  have htail : (msg.drop (msg.length / bs * bs)).length = msg.length % bs := by rw [List.length_drop]; omega
  rw [blockAt, padMessage, List.drop_append_of_le_length (by omega), padBlock, htail]
  exact List.take_of_length_le (by rw [List.length_append, rep_length, htail]; omega)

theorem byteAt_padBlock (bs : Nat) (tail : Bytes) (i : Nat) (hi : i < bs) (ht : tail.length ≤ i) :
    byteAt (padBlock bs tail) i = BitVec.ofNat 8 (bs - tail.length) := by
  rw [padBlock, byteAt, List.getD_append_right _ _ _ _ ht]
  exact (byteAt_rep _ _ _).trans (if_pos (by omega))

section
variable (bs : Nat) (tail : Bytes) (hlt : tail.length < bs) (hb : bs ≤ 128)
include hlt hb

/-- The last byte counts the padding: a block of at most 128 bytes leaves it room for the count. -/
theorem padBlock_count : (byteAt (padBlock bs tail) (bs - 1)).toNat = bs - tail.length := by
  rw [byteAt_padBlock bs tail _ (by omega) (by omega), BitVec.toNat_ofNat]
  exact Nat.mod_eq_of_lt (by omega)

theorem padBlock_endsInPadding : EndsInPadding bs (padBlock bs tail) := by
  have hcount := padBlock_count bs tail hlt hb
  refine ⟨by omega, by omega, fun i hi hlast => ?_⟩
  rw [byteAt_padBlock bs tail i hlast (by omega), byteAt_padBlock bs tail (bs - 1) (by omega) (by omega)]

theorem padBlock_unpad : (padBlock bs tail).take (bs - (byteAt (padBlock bs tail) (bs - 1)).toNat) = tail := by
  rw [padBlock_count bs tail hlt hb, Nat.sub_sub_self hlt.le, padBlock, List.take_left]

end

/-! ### CPdec undoes CPenc (40_engine.md R101, R103) -/

section
variable (E D : Bytes → Bytes) (bs : Nat) (c : Bytes) (hE : ∀ x, (E x).length = x.length) (hc : c.length = bs)
include hE hc

theorem cipherBlock_length (m' : Bytes) (j : Nat) (h : (j + 1) * bs ≤ m'.length) :
    (cipherBlock E bs c m' j).length = bs := by
  have hblock := blockAt_length bs m' j h
  induction j with
  | zero => rw [cipherBlock, hE, xorBytes_length, hblock, hc, Nat.min_self]
  | succ j ih =>
    have hle : (j + 1) * bs ≤ m'.length := (Nat.mul_le_mul_right _ (by omega)).trans h
    rw [cipherBlock, hE, xorBytes_length, hblock, ih hle (blockAt_length _ _ _ hle), Nat.min_self]

/-- Each block of a chained encryption decrypts, with the ciphertext block before it, to the block it was made of. -/
theorem plainBlock_of_cipherBlocks (hinv : Inverts D E bs) (m' : Bytes) (n : Nat) (hm : m'.length = n * bs) (j : Nat)
    (hj : j < n) : plainBlock D bs c ((List.range n).flatMap (cipherBlock E bs c m')) j = blockAt bs m' j := by
  have hle : ∀ i, i < n → (i + 1) * bs ≤ m'.length := fun i hi => hm ▸ Nat.mul_le_mul_right _ hi
  have hlen : ∀ i, i < n → (cipherBlock E bs c m' i).length = bs := fun i hi =>
    cipherBlock_length E bs c hE hc m' i (hle i hi)
  have hblock := blockAt_flatMap_range bs n _ hlen
  have hx := blockAt_length bs m' j (hle j hj)
  rw [plainBlock, hblock j hj]
  cases j with
  | zero =>
    rw [cipherBlock, prevBlock, hinv _ (by rw [xorBytes_length, hx, hc, Nat.min_self])]
    exact xorBytes_cancel _ _ (by omega)
  | succ i =>
    have hi := hlen i (by omega)
    rw [cipherBlock, prevBlock, hblock i (by omega), hinv _ (by rw [xorBytes_length, hx, hi, Nat.min_self])]
    exact xorBytes_cancel _ _ (by omega)

theorem cpEncWhole_length (msg : Bytes) (hb : 0 < bs) :
    (cpEncWhole E bs c msg).length = (msg.length / bs + 1) * bs := by
  have hpad := padMessage_length bs msg hb
  rw [cpEncWhole, hpad, Nat.mul_div_cancel _ hb]
  exact flatMap_range_length bs _ _ fun j hj =>
    cipherBlock_length E bs c hE hc _ j (hpad ▸ Nat.mul_le_mul_right _ hj)

/-- The blocks of CPenc's ciphertext decrypt to those of the padded message. -/
theorem plainBlock_cpEncWhole (hinv : Inverts D E bs) (msg : Bytes) (hb : 0 < bs) (j : Nat)
    (hj : j < msg.length / bs + 1) :
    plainBlock D bs c (cpEncWhole E bs c msg) j = blockAt bs (padMessage bs msg) j := by
  have hpad := padMessage_length bs msg hb
  rw [cpEncWhole, hpad, Nat.mul_div_cancel _ hb]
  exact plainBlock_of_cipherBlocks E D bs c hE hc hinv _ _ hpad j hj

/-- CPdec accepts what CPenc made, and gives the message back. -/
theorem cpDecWhole_cpEncWhole (hinv : Inverts D E bs) (msg : Bytes) (hb : 0 < bs) (hb' : bs ≤ 128) :
    CpDecAccepts D bs c (cpEncWhole E bs c msg) ∧ cpDecWhole D bs c (cpEncWhole E bs c msg) = msg := by
  have hlen := cpEncWhole_length E bs c hE hc msg hb
  have hplain := plainBlock_cpEncWhole E D bs c hE hc hinv msg hb
  generalize cpEncWhole E bs c msg = ct at hlen hplain ⊢
  have hne : ct.length ≠ 0 := by rw [hlen, Nat.succ_mul]; omega
  have hmod : ct.length % bs = 0 := by rw [hlen, Nat.mul_mod_left]
  have hlast : ct.length / bs - 1 = msg.length / bs := by rw [hlen, Nat.mul_div_cancel _ hb, Nat.add_sub_cancel]
  have hle := Nat.div_mul_le_self msg.length bs
  have htail : (msg.drop (msg.length / bs * bs)).length < bs := by
    have := Nat.mod_lt msg.length hb
    have := Nat.div_add_mod' msg.length bs
    rw [List.length_drop]; omega
  have hfront : cpDecFront D bs c ct = msg.take (msg.length / bs * bs) := by
    rw [cpDecFront, cpDec_last_index bs ct hb hne hmod, hlast, ← flatMap_blockAt_eq_take bs _ msg hle]
    refine List.flatMap_congr fun j hj => ?_
    rw [List.mem_range] at hj
    rw [hplain j (by omega), blockAt_padMessage bs msg j hj]
  rw [CpDecAccepts, cpDecWhole, hfront, hlast, hplain _ (Nat.lt_succ_self _), blockAt_padMessage_last bs msg hb,
    padBlock_unpad bs _ htail hb', List.take_append_drop]
  exact ⟨⟨hne, hmod, padBlock_endsInPadding bs _ htail hb'⟩, rfl⟩

end

/-! ### CTRx undoes itself (40_engine.md R101, R103) -/

section
variable (E : Bytes → Bytes) (bs : Nat) (c : Bytes) (hE : ∀ x, (E x).length = x.length) (hb : 0 < bs)

/-- The keystream CTRx puts against a message of `n` bytes. -/
def keystream (n : Nat) : Bytes := ((List.range ((n + bs - 1) / bs)).flatMap (keystreamBlock E bs c)).take n

theorem ctrWhole_eq_keystream (msg : Bytes) : ctrWhole E bs c msg = xorBytes msg (keystream E bs c msg.length) := rfl

include hE hb

theorem keystream_length (n : Nat) : (keystream E bs c n).length = n := by
  have hblocks := flatMap_range_length bs ((n + bs - 1) / bs) (keystreamBlock E bs c)
    fun j _ => by rw [keystreamBlock, hE, int2be_length]
  have hdm := Nat.div_add_mod' (n + bs - 1) bs
  have hmod := Nat.mod_lt (n + bs - 1) hb
  rw [keystream, List.length_take, hblocks]
  omega

theorem ctrWhole_length (msg : Bytes) : (ctrWhole E bs c msg).length = msg.length := by
  rw [ctrWhole_eq_keystream, xorBytes_length, keystream_length E bs c hE hb, Nat.min_self]

theorem ctrWhole_ctrWhole (msg : Bytes) : ctrWhole E bs c (ctrWhole E bs c msg) = msg := by
  rw [ctrWhole_eq_keystream E bs c (ctrWhole E bs c msg), ctrWhole_length E bs c hE hb, ctrWhole_eq_keystream]
  exact xorBytes_cancel _ _ (keystream_length E bs c hE hb _).ge

end

/-- Settles O50: block by block in mode CP, and in mode CTR because the two keystreams are the same. -/
theorem wholeMessageRoundTrip : Obligations.WholeMessageRoundTrip := by
  intro E D bs c msg hE hb hb' hc
  exact ⟨fun hinv => cpDecWhole_cpEncWhole E D bs c hE hc hinv msg hb hb', ctrWhole_ctrWhole E bs c hE hb msg⟩

/-! ### Sessions (40_engine.md R100) -/

section
variable (P : Prim) (hP : KeepsLength P) (s : State) (cs : List Chunk) (cap : Nat) (h : SessionReady s cap)
  (hc : CapacitiesSuffice s cs)
include hP h hc

/-- A session that is fed and finished has a result. -/
theorem sessionOf_isSome : (sessionOf P cs cap s).isSome = true := by
  rw [sessionOf_spec P hP cs cap s h hc]
  split <;> rfl

/-- The result depends on the message alone, not on how it is cut (40_engine.md R100). -/
theorem sessionOf_eq_of_messageOf (ds : List Chunk) (hd : CapacitiesSuffice s ds) (hm : messageOf cs = messageOf ds) :
    sessionOf P cs cap s = sessionOf P ds cap s := by
  rw [sessionOf_spec P hP cs cap s h hc, sessionOf_spec P hP ds cap s h hd, hm]

theorem feedWith_isSome : (feedWith (updateWith P) cs s).isSome = true := by
  obtain ⟨o, t, -, hfeed, -⟩ := feedWith_spec P hP cs s h.inv h.active h.apart hc
  rw [hfeed]
  rfl

end

/-- Settles O47: either partition is one block loop over the message, then the end-of-stream function. -/
theorem stepSizeIndependence : Obligations.StepSizeIndependence := by
  intro s cs ds cap h hc hd hm
  obtain ⟨r, hr⟩ := Option.isSome_iff_exists.1 (sessionOf_isSome _ blackbox_keepsLength s cs cap h hc)
  refine ⟨⟨r, (session_eq cs cap s).trans hr, ?_⟩, feedWith_isSome _ blackbox_keepsLength s cs cap h hc,
    feedWith_isSome _ blackbox_keepsLength s ds cap h hd⟩
  rw [session_eq, ← sessionOf_eq_of_messageOf _ blackbox_keepsLength s cs cap h hc ds hd hm, hr]

/-! ### A fresh session computes the whole-message functions (40_engine.md R101) -/

theorem KeepsLength.encryptBlock_length {P : Prim} (hP : KeepsLength P) (s : State) (x : Bytes) :
    (s.encryptBlock P x).length = x.length := hP.enc _ _ _

theorem KeepsLength.decryptBlock_length {P : Prim} (hP : KeepsLength P) (s : State) (x : Bytes) :
    (s.decryptBlock P x).length = x.length := hP.dec _ _ _

/-- In an open session a block has 1 to 128 bytes and the chaining state is one block (00_scope.md R7, 10_state.md R25). -/
theorem SessionReady.block_facts {s : State} {cap : Nat} (h : SessionReady s cap) :
    0 < s.blockSize ∧ s.blockSize ≤ 128 ∧ s.chainUsed.length = s.blockSize := by
  have hp : s.phase ≠ .idle := by simp [h.active]
  obtain ⟨h1, h128, -⟩ := h.inv.blockSize_bounds hp
  exact ⟨h1, h128, h.inv.chainUsed_length hp⟩

section
variable (P : Prim) (hP : KeepsLength P) (s : State) (cs : List Chunk) (cap : Nat) (h : SessionReady s cap)
  (hc : CapacitiesSuffice s cs) (h0 : s.occ = 0)
include hP h hc h0

theorem sessionOf_fresh_cpEnc (hm : s.mode = .cp) (hd : s.dir = .enc) :
    sessionOf P cs cap s =
      some { err := .ok, output := cpEncWhole (s.encryptBlock P) s.blockSize s.chainUsed (messageOf cs),
             context := sessionContext s } := by
  obtain ⟨hb, -, hchain⟩ := h.block_facts
  have hspec := sessionOf_spec P hP cs cap s h hc
  simp only [retained_of_occ_zero s h0, List.nil_append, hm, hd, blockCount, finishMode] at hspec
  rw [hspec, cpEnc_loop_whole (s.encryptBlock P) (s.decryptBlock P) _ (hP.encryptBlock_length s)
    (hP.decryptBlock_length s) hb _ _ hchain]

/-- A Chained-Padded decryption ends with CPdec's result where CPdec does not fail; where it fails, with BadPadding and the blocks before the last. -/
theorem sessionOf_fresh_cpDec (hm : s.mode = .cp) (hd : s.dir = .dec) :
    (CpDecAccepts (s.decryptBlock P) s.blockSize s.chainUsed (messageOf cs) →
      sessionOf P cs cap s =
        some { err := .ok, output := cpDecWhole (s.decryptBlock P) s.blockSize s.chainUsed (messageOf cs),
               context := sessionContext s }) ∧
      (¬ CpDecAccepts (s.decryptBlock P) s.blockSize s.chainUsed (messageOf cs) →
        sessionOf P cs cap s =
          some { err := .badPadding, output := cpDecFront (s.decryptBlock P) s.blockSize s.chainUsed (messageOf cs),
                 context := sessionContext s }) := by
  obtain ⟨hb, -, hchain⟩ := h.block_facts
  have hspec := sessionOf_spec P hP cs cap s h hc
  simp only [retained_of_occ_zero s h0, List.nil_append, hm, hd, finishMode] at hspec
  obtain ⟨hfront, haccepts, hrejects⟩ := cpDec_loop_whole (s.encryptBlock P) (s.decryptBlock P) s.blockSize
    (hP.encryptBlock_length s) (hP.decryptBlock_length s) hb s.chainUsed (messageOf cs) hchain
  constructor
  · intro hacc
    obtain ⟨b, hfinish, hwhole⟩ := haccepts hacc
    simp only [hspec, hfinish, hwhole]
  · intro hrej
    simp only [hspec, hrejects hrej, hfront]

theorem sessionOf_fresh_ctr (hm : s.mode = .ctr) :
    sessionOf P cs cap s =
      some { err := .ok, output := ctrWhole (s.encryptBlock P) s.blockSize s.chainUsed (messageOf cs),
             context := sessionContext s } := by
  obtain ⟨hb, -, hchain⟩ := h.block_facts
  have hspec := sessionOf_spec P hP cs cap s h hc
  have hwhole := ctr_loop_whole (s.encryptBlock P) (s.decryptBlock P) s.dir s.blockSize (hP.encryptBlock_length s)
    (hP.decryptBlock_length s) hb s.chainUsed (messageOf cs) hchain
  simp only [retained_of_occ_zero s h0, List.nil_append, hm, blockCount_ctr, finishMode_ctr] at hspec
  rw [hspec, hwhole]

end

/-- Settles O51: both sessions compute the whole-message functions, on the same key, block size and Context. -/
theorem engineRoundTrip : Obligations.EngineRoundTrip := by
  intro P s r cs ds capS capR o ctx hP hs hr hs0 hr0 hparams halg hkey hmode hchain hsd hrd hinv hcs hds hrun hmsg
  obtain ⟨hb, hb', hlen⟩ := hs.block_facts
  have hE : r.encryptBlock P = s.encryptBlock P := by rw [State.encryptBlock, State.encryptBlock, halg, hkey]
  have hD : r.decryptBlock P = s.decryptBlock P := by rw [State.decryptBlock, State.decryptBlock, halg, hkey]
  have hbs : r.blockSize = s.blockSize := by rw [State.blockSize, State.blockSize, State.desc, State.desc, hparams, halg]
  have hctx : sessionContext r = none := by rw [sessionContext, hrd]; rfl
  obtain ⟨hcp, hctr⟩ := wholeMessageRoundTrip (s.encryptBlock P) (s.decryptBlock P) s.blockSize s.chainUsed (messageOf cs)
    (hP.encryptBlock_length s) hb hb' hlen
  cases hm : s.mode with
  | cp =>
    obtain ⟨hacc, hwhole⟩ := hcp (hinv hm)
    rw [sessionOf_fresh_cpEnc P hP s cs capS hs hcs hs0 hm hsd] at hrun
    obtain ⟨-, ho, -⟩ := SessionResult.mk.inj (Option.some.inj hrun)
    have hdec := (sessionOf_fresh_cpDec P hP r ds capR hr hds hr0 (hmode.trans hm) hrd).1
    rw [hD, hbs, hchain, hmsg, ← ho, hwhole, hctx] at hdec
    exact hdec hacc
  | ctr =>
    rw [sessionOf_fresh_ctr P hP s cs capS hs hcs hs0 hm] at hrun
    obtain ⟨-, ho, -⟩ := SessionResult.mk.inj (Option.some.inj hrun)
    have hdec := sessionOf_fresh_ctr P hP r ds capR hr hds hr0 (hmode.trans hm)
    rw [hE, hbs, hchain, hmsg, ← ho, hctr, hctx] at hdec
    exact hdec

/-! ### The hold-back of a Chained-Padded decryption (41_chained_padded.md R114) -/

/-- What the hold-back leaves of `n` bytes: nothing of none, a whole block of a positive multiple of `B`, else the remainder. -/
theorem heldBack_cases (bs n : Nat) (hb : 0 < bs) :
    (n = 0 ∧ n % bs = 0 ∧ n - (n - 1) / bs * bs = 0) ∨
      (n ≠ 0 ∧ n % bs = 0 ∧ n - (n - 1) / bs * bs = bs) ∨
      (n ≠ 0 ∧ n % bs ≠ 0 ∧ n - (n - 1) / bs * bs = n % bs) := by
  by_cases hn : n = 0
  · exact .inl ⟨hn, by rw [hn, Nat.zero_mod], by omega⟩
  · have hdm := Nat.div_add_mod' (n - 1) bs
    have hmod := Nat.mod_lt (n - 1) hb
    generalize (n - 1) / bs = q at hdm ⊢
    generalize (n - 1) % bs = r at hdm hmod
    obtain rfl : n = q * bs + (r + 1) := by omega
    rw [Nat.mul_add_mod_self_right, Nat.add_sub_cancel_left]
    by_cases hr : r + 1 = bs
    · exact .inr (.inl ⟨hn, by rw [hr, Nat.mod_self], hr⟩)
    · rw [Nat.mod_eq_of_lt (by omega)]
      exact .inr (.inr ⟨hn, by omega, rfl⟩)

theorem cpDecFront_length (D : Bytes → Bytes) (bs : Nat) (c ct : Bytes) (hD : ∀ x, (D x).length = x.length)
    (hc : c.length = bs) : (cpDecFront D bs c ct).length = (ct.length - 1) / bs * bs := by
  have hle : (ct.length - 1) / bs * bs ≤ ct.length := (Nat.div_mul_le_self _ _).trans (Nat.sub_le _ _)
  rw [← (cpDec_loop_front D D bs hD hD c ct hc).1]
  exact (blockLoop_length D D .cp .dec bs hD hD _ c ct hc hle).1

/-- Feeding a fresh Chained-Padded decryption: the plaintext of the blocks processed, and how many bytes are held back. -/
theorem feedWith_fresh_cpDec (P : Prim) (hP : KeepsLength P) (s : State) (cs : List Chunk) (cap : Nat)
    (h : SessionReady s cap) (hc : CapacitiesSuffice s cs) (h0 : s.occ = 0) (hm : s.mode = .cp) (hd : s.dir = .dec) :
    ∃ t, feedWith (updateWith P) cs s =
        some (cpDecFront (s.decryptBlock P) s.blockSize s.chainUsed (messageOf cs), t) ∧ t.phase = .active ∧
      t.occ = (messageOf cs).length - ((messageOf cs).length - 1) / s.blockSize * s.blockSize := by
  obtain ⟨o, t, nb, hfeed, hinv, hactive, -, hnb, hloop, hret⟩ := feedWith_spec P hP cs s h.inv h.active h.apart hc
  obtain ⟨-, -, hchain⟩ := h.block_facts
  rw [retained_of_occ_zero s h0, List.nil_append] at hnb hloop hret
  have hcount : nb = ((messageOf cs).length - 1) / s.blockSize := by rw [hnb, hm, hd, blockCount_cpDec]
  have hfront := (cpDec_loop_front (s.encryptBlock P) (s.decryptBlock P) s.blockSize (hP.encryptBlock_length s)
    (hP.decryptBlock_length s) s.chainUsed (messageOf cs) hchain).1
  rw [hm, hd, hcount] at hloop
  rw [hloop] at hfront
  refine ⟨t, by rw [hfeed, ← hfront], hactive, ?_⟩
  rw [← hinv.retained_length, hret, hcount, List.length_drop]

/-- Settles O52: the held-back bytes by the length of the ciphertext, and CPdec, which fails when they are not one block. -/
theorem holdBackOccupancy : Obligations.HoldBackOccupancy := by
  intro s cs cap h hm hd h0 hc
  obtain ⟨t, hfeed, hactive, hocc⟩ := feedWith_fresh_cpDec _ blackbox_keepsLength s cs cap h hc h0 hm hd
  obtain ⟨hb, -, hchain⟩ := h.block_facts
  have hctx : sessionContext s = none := by rw [sessionContext, hd]; rfl
  have hheld := heldBack_cases s.blockSize (messageOf cs).length hb
  have hmod := Nat.mod_lt (messageOf cs).length hb
  have hle := Nat.div_mul_le_self ((messageOf cs).length - 1) s.blockSize
  rw [← hocc] at hheld
  rw [ne_eq (messageOf cs), ← List.length_eq_zero_iff]
  refine ⟨_, t, hfeed, hactive, by omega, by omega, by omega, ?_, fun hne => ?_⟩
  · rw [cpDecFront_length _ _ _ _ (blackbox_keepsLength.decryptBlock_length s) hchain]
    omega
  · have hrej : ¬ CpDecAccepts (s.decryptBlock Config.blackbox) s.blockSize s.chainUsed (messageOf cs) := by
      rintro ⟨hlen, hmul, -⟩
      omega
    rw [session_eq, (sessionOf_fresh_cpDec _ blackbox_keepsLength s cs cap h hc h0 hm hd).2 hrej, hctx]

end Sys2Proof.Machine
end

section
/-! Family 41_chained_padded.md: what UPDATE and FINISH compute in mode CP, and the obligations O22, O23, O27, O28. -/

namespace Sys2Proof.Machine

/-! ### UPDATE block by block (41_chained_padded.md R110, R111) -/

/-- UPDATE on a ready state puts in OUT and CHAIN the results of one block loop over the retained bytes and the chunk (40_engine.md R90, R91). -/
theorem exec_update_blockLoop (s : State) (chunk : Bytes) (h : UpdateReady s chunk) :
    ∃ (t : State) (o : Bytes) (nb : Nat), exec .update s = .next t ∧ outputRun t = some o ∧
      o.length = nb * s.blockSize ∧ nb = blockCount s.mode s.dir s.blockSize (s.occ + s.inLen) ∧
      nb * s.blockSize ≤ (s.retained ++ chunk).length ∧
      blockLoop s.E s.D s.mode s.dir s.blockSize nb s.chainUsed (s.retained ++ chunk) = (o, t.chainUsed) := by
  obtain ⟨t, he, -, -, -, -, hrun, hchain, -⟩ := updateWith_spec Config.blackbox blackbox_keepsLength s chunk h
  refine ⟨t, _, updateBlocks s chunk, he, hrun, (updateRun_length _ blackbox_keepsLength s chunk h.inv h.active).1, ?_,
    blockCount_mul_le _ _ _ _, ?_⟩
  · rw [updateBlocks, workString_length_of_ready s chunk h]
  · rw [hchain]
    rfl

/-- In an open session the chaining state is one block (10_state.md R25). -/
theorem State.Inv.chainUsed_length_of_active {s : State} (h : s.Inv) (hp : s.phase = .active) :
    s.chainUsed.length = s.blockSize :=
  h.chainUsed_length (by simp [hp])

/-- Settles O22: the block loop in mode CP, direction ENC. -/
theorem updateEncryptsChained : Obligations.UpdateEncryptsChained := by
  intro s chunk h hm hd
  obtain ⟨t, o, nb, he, hrun, hlen, hnb, hle, hloop⟩ := exec_update_blockLoop s chunk h
  have hblocks := cpEnc_loop_block s.E s.D s.blockSize s.E_length nb s.chainUsed _
    (h.inv.chainUsed_length_of_active h.active) hle
  rw [hm, hd] at hnb hloop
  rw [hloop] at hblocks
  exact ⟨t, o, nb, he, hrun, hlen, hnb, hblocks⟩

/-- Settles O23: the block loop in mode CP, direction DEC. -/
theorem updateDecryptsChained : Obligations.UpdateDecryptsChained := by
  intro s chunk h hm hd
  obtain ⟨t, o, nb, he, hrun, hlen, hnb, hle, hloop⟩ := exec_update_blockLoop s chunk h
  have hblocks := cpDec_loop_block s.E s.D s.blockSize s.D_length nb s.chainUsed _
    (h.inv.chainUsed_length_of_active h.active) hle
  rw [hm, hd] at hnb hloop
  rw [blockCount_cpDec] at hnb
  rw [hloop] at hblocks
  exact ⟨t, o, nb, he, hrun, hlen, hnb, hblocks⟩

/-! ### FINISH: padding insertion, check and removal (41_chained_padded.md R112, R113, R115) -/

/-- FINISH on a ready state delivers what the end-of-stream function answers on the retained bytes (40_engine.md R95, R96). -/
theorem exec_finish_ready (s : State) (h : FinishReady s) :
    exec .finish s = .next (deliver (finishMode s.E s.D s.mode s.dir s.blockSize s.chainUsed s.retained) s) :=
  finishWith_ready Config.blackbox s h

/-- FINISH on a ready state, the end-of-stream function answering bytes: the session ends with OK and they stand in OUT (40_engine.md R95). -/
theorem exec_finish_ok (s : State) (h : FinishReady s) (b : Bytes)
    (hb : finishMode s.E s.D s.mode s.dir s.blockSize s.chainUsed s.retained = .ok b) :
    ∃ t : State, exec .finish s = .next t ∧ t.phase = .done ∧ t.err = .ok ∧ t.outLen = b.length ∧
      outputRun t = some b :=
  ⟨deliver (.ok b) s, by rw [exec_finish_ready s h, hb], rfl, rfl, rfl, outputRun_deliver b s⟩

/-- FINISH on a ready state, the end-of-stream function answering an error: the session ends with it and OUT is untouched (40_engine.md R95). -/
theorem exec_finish_error (s : State) (h : FinishReady s) (e : Err)
    (he : finishMode s.E s.D s.mode s.dir s.blockSize s.chainUsed s.retained = .error e) :
    ∃ t : State, exec .finish s = .next t ∧ t.phase = .done ∧ t.err = e ∧ t.outLen = 0 ∧ t.out = s.out :=
  ⟨deliver (.error e) s, by rw [exec_finish_ready s h, he], rfl, rfl, rfl, rfl⟩

/-- Settles O27: the run is the padded block, encrypted against CHAIN. -/
theorem finishPadsLastBlock : Obligations.FinishPadsLastBlock := by
  intro s h hm hd
  have hchain := h.inv.chainUsed_length_of_active h.active
  have hocc := h.inv.occ_le h.active
  have hret := h.inv.retained_length
  have hmode : finishMode s.E s.D s.mode s.dir s.blockSize s.chainUsed s.retained =
      .ok (finishCpEnc s.E s.blockSize s.chainUsed s.retained) := by rw [hm, hd]; rfl
  obtain ⟨t, he, hphase, herr, hlen, hrun⟩ := exec_finish_ok s h _ hmode
  rw [finishCpEnc, padBlock, hret] at hlen hrun
  refine ⟨t, he, hphase, herr, ?_, hrun⟩
  rw [hlen, State.E_length, xorBytes_length, List.length_append, rep_length, hret, hchain]
  omega

section
variable (D : Bytes → Bytes) (bs : Nat) (chain tail : Bytes) (hD : ∀ x, (D x).length = x.length)
  (hc : chain.length = bs)
include hD hc

/-- On one whole block the engine's check is whether its decryption ends in a padding. -/
theorem padOk_decrypted_iff (ht : tail.length = bs) :
    padOk bs (xorBytes (D tail) chain) = true ↔ EndsInPadding bs (xorBytes (D tail) chain) :=
  padOk_iff_endsInPadding bs _ (by rw [xorBytes_length, hD, ht, hc, Nat.min_self])

/-- One whole block whose decryption ends in a padding is accepted, and its padding removed. -/
theorem finishCpDec_accepts (ht : tail.length = bs) (hpad : EndsInPadding bs (xorBytes (D tail) chain)) :
    finishCpDec D bs chain tail =
      .ok ((xorBytes (D tail) chain).take (bs - (byteAt (xorBytes (D tail) chain) (bs - 1)).toNat)) := by
  rw [finishCpDec, if_neg (not_not.2 ht), if_pos ((padOk_decrypted_iff D bs chain tail hD hc ht).2 hpad)]

/-- A remainder that is no block, or a block that does not end in a padding, is BadPadding. -/
theorem finishCpDec_rejects (h : ¬ (tail.length = bs ∧ EndsInPadding bs (xorBytes (D tail) chain))) :
    finishCpDec D bs chain tail = .error .badPadding := by
  by_cases ht : tail.length = bs
  · have hpad : ¬ padOk bs (xorBytes (D tail) chain) = true := fun hok =>
      h ⟨ht, (padOk_decrypted_iff D bs chain tail hD hc ht).1 hok⟩
    rw [finishCpDec, if_neg (not_not.2 ht), if_neg hpad]
  · rw [finishCpDec, if_pos ht]

end

/-- Settles O28: the end-of-stream function of a decryption either strips the padding or answers BadPadding. -/
theorem finishStripsPadding : Obligations.FinishStripsPadding := by
  rintro s _ h hm hd rfl
  have hchain := h.inv.chainUsed_length_of_active h.active
  have hret := h.inv.retained_length
  have hmode : finishMode s.E s.D s.mode s.dir s.blockSize s.chainUsed s.retained =
      finishCpDec s.D s.blockSize s.chainUsed s.retained := by rw [hm, hd]; rfl
  constructor
  · rintro ⟨hocc, hpad⟩
    have haccepts := finishCpDec_accepts s.D _ _ _ s.D_length hchain (hret.trans hocc) hpad
    obtain ⟨t, he, hphase, herr, hlen, hrun⟩ := exec_finish_ok s h _ (hmode.trans haccepts)
    refine ⟨t, he, hphase, herr, hrun, ?_⟩
    rw [hlen, List.length_take, xorBytes_length, State.D_length, hret, hocc, hchain, Nat.min_self]
    exact Nat.min_eq_left (Nat.sub_le _ _)
  · intro hbad
    have hrejects := finishCpDec_rejects s.D _ _ _ s.D_length hchain (by rwa [hret])
    exact exec_finish_error s h _ (hmode.trans hrejects)

end Sys2Proof.Machine
end

section
/-! Family 42_counter.md: what UPDATE and FINISH compute in mode CTR, that neither looks at the direction there, and the obligations O24, O29, O44. -/

namespace Sys2Proof.Machine

/-! ### UPDATE block by block (42_counter.md R125) -/

/-- Settles O24: the block loop in mode CTR, whose keystream block `j` is `E` of the counter `j` further on. -/
theorem updateCounter : Obligations.UpdateCounter := by
  intro s chunk h hm
  obtain ⟨t, o, nb, he, hrun, hlen, hnb, hle, hloop⟩ := exec_update_blockLoop s chunk h
  have hblocks := ctr_loop_block s.E s.D s.dir s.blockSize s.E_length nb s.chainUsed _
    (h.inv.chainUsed_length_of_active h.active) hle
  rw [hm, blockCount_ctr] at hnb
  rw [hm] at hloop
  rw [hloop] at hblocks
  exact ⟨t, o, nb, he, hrun, hlen, hnb, hblocks⟩

/-! ### FINISH: the tail against the next keystream block (42_counter.md R127) -/

/-- An empty tail needs no case of its own. -/
theorem finishCtr_eq_xorBytes (E : Bytes → Bytes) (chain tail : Bytes) :
    finishCtr E chain tail = xorBytes tail ((E chain).take tail.length) := by
  cases tail with
  | nil => rfl
  | cons b tail => rfl

/-- Settles O29: at most one keystream block is needed, because at most one block is retained. -/
theorem finishEmitsTail : Obligations.FinishEmitsTail := by
  intro s h hm
  have hchain := h.inv.chainUsed_length_of_active h.active
  have hocc := h.inv.occ_le h.active
  have hret := h.inv.retained_length
  have hmode : finishMode s.E s.D s.mode s.dir s.blockSize s.chainUsed s.retained =
      .ok (xorBytes s.retained ((s.E s.chainUsed).take s.occ)) := by
    rw [hm, finishMode_ctr, finishCtr_eq_xorBytes, hret]
  obtain ⟨t, he, hphase, herr, hlen, hrun⟩ := exec_finish_ok s h _ hmode
  refine ⟨t, he, hphase, herr, ?_, hrun⟩
  rw [hlen, xorBytes_length, List.length_take, State.E_length, hret, hchain]
  omega

/-! ### The two directions are one function (42_counter.md R125, R127, R128) -/

theorem blockStep_ctr (E D : Bytes → Bytes) (d : Dir) (chain x : Bytes) :
    blockStep E D .ctr d chain x = ctrStep E chain x := by
  cases d <;> rfl

theorem blockLoop_ctr_dir (E D : Bytes → Bytes) (d d' : Dir) (bs nb : Nat) (chain t : Bytes) :
    blockLoop E D .ctr d bs nb chain t = blockLoop E D .ctr d' bs nb chain t := by
  induction nb generalizing chain t with
  | zero => rfl
  | succ nb ih => simp only [blockLoop, blockStep_ctr, ih]

/-- What FINISH does with a result does not depend on the direction. -/
theorem deliver_withDir (s : State) (d : Dir) (res : Except Err Bytes) :
    deliver res { s with dir := d } = { deliver res s with dir := d } := by
  cases res with
  | ok bytes => rfl
  | error e => rfl

/-- FINISH outside phase ACTIVE (60_exceptions.md R176). -/
theorem finishWith_inactive (P : Prim) (s : State) (ha : s.placement.apartForFinish = true) (hp : s.phase ≠ .active) :
    finishWith P s = .next (raise .engineMisuse s) := by
  rw [finishWith, ha]
  simp [hp]

section
variable (P : Prim) (s : State) (d : Dir) (hm : s.mode = .ctr)
include hm

theorem updateBlocks_withDir (c : Bytes) : updateBlocks { s with dir := d } c = updateBlocks s c := by
  show blockCount s.mode d s.blockSize (workString s c).length = updateBlocks s c
  rw [updateBlocks, hm, blockCount_ctr, blockCount_ctr]

theorem updateRun_withDir (c : Bytes) : updateRun P { s with dir := d } c = updateRun P s c := by
  rw [updateRun, updateRun, updateBlocks_withDir s d hm, hm]
  exact blockLoop_ctr_dir _ _ d s.dir _ _ _ _

theorem updateRest_withDir (c : Bytes) : updateRest { s with dir := d } c = updateRest s c := by
  rw [updateRest, updateBlocks_withDir s d hm]
  rfl

/-- Number of blocks, run and rest are all that an accepted chunk writes. -/
theorem acceptChunk_withDir (c : Bytes) :
    acceptChunk P c { s with dir := d } = { acceptChunk P c s with dir := d } := by
  rw [acceptChunk, updateRun_withDir P s d hm, updateRest_withDir s d hm, updateBlocks_withDir s d hm]
  rfl

theorem finishResult_withDir : finishResult P { s with dir := d } = finishResult P s := by
  simp only [finishResult, hm, finishMode_ctr]
  rfl

/-- UPDATE checks the same in both directions, and accepts a chunk alike. -/
theorem updateWith_withDir (t : State) (he : updateWith P s = .next t) :
    updateWith P { s with dir := d } = .next { t with dir := d } := by
  rcases updateWith_cases P s with ⟨-, h⟩ | ⟨ha, hp, h⟩ | ⟨ha, hp, hc, h⟩ | ⟨-, -, -, -, h⟩ | ⟨c, ha, hp, hc, hi, h⟩ <;>
    cases he.symm.trans h
  · exact updateWith_inactive P { s with dir := d } ha hp
  · exact updateWith_short P { s with dir := d } ha hp hc
  · rw [← acceptChunk_withDir P s d hm]
    exact updateWith_accepts P { s with dir := d } c ha hp hc hi

/-- FINISH checks the same in both directions, and ends the session alike. -/
theorem finishWith_withDir (t : State) (he : finishWith P s = .next t) :
    finishWith P { s with dir := d } = .next { t with dir := d } := by
  rcases finishWith_cases P s with ⟨-, h⟩ | ⟨ha, hp, h⟩ | ⟨ha, hp, h⟩ <;> cases he.symm.trans h
  · exact finishWith_inactive P { s with dir := d } ha hp
  · rw [finishWith_active P { s with dir := d } ha hp, finishResult_withDir P s d hm, deliver_withDir]

end

/-- Settles O44, for either command: in mode CTR no part of its meaning depends on DIR. -/
theorem counterDirectionsAgree : Obligations.CounterDirectionsAgree := by
  rintro i s t d (rfl | rfl) hm he
  · exact updateWith_withDir Config.blackbox s d hm t he
  · exact finishWith_withDir Config.blackbox s d hm t he

end Sys2Proof.Machine
end

section
/-! Family 43_context_and_binding.md: BINDKEY and the three BEGIN commands by the guard that decides each outcome, and the obligations O12, O13, O14, O15. -/

namespace Sys2Proof.Machine

/-! ### BINDKEY, one equation for each outcome (43_context_and_binding.md R136) -/

section

variable {a : AlgId} {d : AlgDesc} {s : State}

theorem exec_bindkey_unknownAlg (hl : s.params.algTable.lookup a = none) :
    exec (.bindkey a) s = .next (raise .illegalCommand s) := by
  rw [exec, execBindkey, hl]

theorem exec_bindkey_active (hl : s.params.algTable.lookup a = some d) (hp : s.phase = .active) :
    exec (.bindkey a) s = .next (raise .engineMisuse s) := by
  simp only [exec, execBindkey, hl, if_pos hp]

theorem exec_bindkey_badKeyLen (hl : s.params.algTable.lookup a = some d) (hp : s.phase ≠ .active)
    (hk : s.keyLen ∉ d.keyLens) : exec (.bindkey a) s = .next (raise .invalidKeyLength s) := by
  simp only [exec, execBindkey, hl, if_neg hp, if_neg hk]

theorem exec_bindkey_ok (hl : s.params.algTable.lookup a = some d) (hp : s.phase ≠ .active)
    (hk : s.keyLen ∈ d.keyLens) : exec (.bindkey a) s = .next (bindKey a s) := by
  simp only [exec, execBindkey, hl, if_neg hp, if_pos hk]

end

/-- Settles O12, one equation for each outcome. -/
theorem bindkeyOutcome : Obligations.BindkeyOutcome := fun _ _ =>
  ⟨exec_bindkey_unknownAlg, fun _ hl =>
    ⟨exec_bindkey_active hl, exec_bindkey_badKeyLen hl, exec_bindkey_ok hl⟩⟩

/-! ### The session a BEGIN command opens (43_context_and_binding.md R139) -/

/-- In phase KEYED a block fits the registers CTX0 and CHAIN, so both hold a Context of one block whole. -/
theorem openSession_context (m : Mode) (d : Dir) (c : Bytes) (s : State) (hi : s.Inv) (hp : s.phase = .keyed)
    (hc : c.length = s.blockSize) :
    (openSession m d c s).ctx0.take s.blockSize = c ∧ (openSession m d c s).chain.take s.blockSize = c ∧
      (openSession m d c s).ctx0.length = s.params.bsMax ∧ (openSession m d c s).chain.length = s.params.bsMax := by
  obtain ⟨-, -, hfits⟩ := hi.blockSize_bounds (by rw [hp]; decide)
  have htake : (padTo s.params.bsMax c).take s.blockSize = c := padTo_take _ _ _ hc hfits
  exact ⟨htake, htake, padTo_length _ _, padTo_length _ _⟩

/-! ### BEGINENC (43_context_and_binding.md R140) -/

theorem exec_beginenc_notKeyed (m : Mode) {s : State} (hp : s.phase ≠ .keyed) :
    exec (.beginenc m) s = .next (raise .engineMisuse s) := by
  rw [exec, execBeginenc, beginencWith, if_neg hp]

theorem exec_beginenc_keyed (m : Mode) {s : State} (hp : s.phase = .keyed) :
    exec (.beginenc m) s =
      .next { openSession m .enc (Config.draw s.draws s.blockSize) s with draws := s.draws + 1 } := by
  rw [exec, execBeginenc, beginencWith, if_pos hp]

/-- Settles O13: the only guard is the phase, and the drawn Context is one block. -/
theorem beginencOutcome : Obligations.BeginencOutcome := fun m s =>
  ⟨exec_beginenc_notKeyed m, fun hi hp =>
    ⟨_, exec_beginenc_keyed m hp, rfl, openSession_context m .enc _ s hi hp (draw_length _ _)⟩⟩

/-! ### BEGINENCX and BEGINDEC (43_context_and_binding.md R141, R142) -/

theorem beginWithContext_notKeyed (m : Mode) (d : Dir) {s : State} (hp : s.phase ≠ .keyed) :
    beginWithContext m d s = .next (raise .engineMisuse s) := by
  rw [beginWithContext, if_neg hp]

theorem beginWithContext_badCtxLen (m : Mode) (d : Dir) {s : State} (hp : s.phase = .keyed)
    (hl : s.ctxLen ≠ s.blockSize) : beginWithContext m d s = .next (raise .invalidContextLength s) := by
  rw [beginWithContext, if_pos hp, if_neg hl]

theorem beginWithContext_ok (m : Mode) (d : Dir) {s : State} (hp : s.phase = .keyed) (hl : s.ctxLen = s.blockSize) :
    beginWithContext m d s = .next (openSession m d (ctxOperand s) s) := by
  rw [beginWithContext, if_pos hp, if_pos hl]

/-- The Context a session with a supplied Context starts from: the first block of CTX_IN, which holds one in phase KEYED. -/
theorem openSession_ctxOperand (m : Mode) (d : Dir) {s : State} (hi : s.Inv) (hp : s.phase = .keyed) :
    (openSession m d (ctxOperand s) s).ctx0.take s.blockSize = s.ctxIn.take s.blockSize ∧
      (openSession m d (ctxOperand s) s).chain.take s.blockSize = s.ctxIn.take s.blockSize ∧
      (openSession m d (ctxOperand s) s).ctx0.length = s.params.bsMax ∧
      (openSession m d (ctxOperand s) s).chain.length = s.params.bsMax :=
  openSession_context m d _ s hi hp (ctxOperand_length s hi (by rw [hp]; decide))

/-- Settles O14: a supplied Context, direction ENC. -/
theorem beginencxOutcome : Obligations.BeginencxOutcome := fun m _ =>
  ⟨beginWithContext_notKeyed m .enc, beginWithContext_badCtxLen m .enc, fun hi hp hl =>
    ⟨_, beginWithContext_ok m .enc hp hl, rfl, openSession_ctxOperand m .enc hi hp⟩⟩

/-- Settles O15: a supplied Context, direction DEC. -/
theorem begindecOutcome : Obligations.BegindecOutcome := fun m _ =>
  ⟨beginWithContext_notKeyed m .dec, beginWithContext_badCtxLen m .dec, fun hi hp hl =>
    ⟨_, beginWithContext_ok m .dec hp hl, rfl, openSession_ctxOperand m .dec hi hp⟩⟩

end Sys2Proof.Machine
end

section
/-! Family 44_oneshot.md: a one-shot operation as a key binding, a fresh session and that session fed its message as one chunk, and the obligation O56. -/

namespace Sys2Proof.Machine

/-! ### The operands and the staging buffers (30_encoding.md R77, 44_oneshot.md R157) -/

/-- A string cut to the width of its register keeps the width. -/
theorem splice_take_length (reg v : Bytes) (n : Nat) (h : reg.length = n) : ((splice reg v).take n).length = n := by
  simp only [splice, List.length_take, List.length_append, List.length_drop]
  omega

/-- A string that fits its register reads back whole. -/
theorem take_splice_take (reg v : Bytes) (n : Nat) (h : v.length ≤ n) :
    ((splice reg v).take n).take v.length = v := by
  rw [List.take_take, Nat.min_eq_left h, splice_take]

theorem setKey_keeps_inv (key : Bytes) (s : State) (h : s.Inv) : (setKey key s).Inv :=
  { h with
    keyIn_width := splice_take_length _ _ _ h.keyIn_width
    keyLen_fits := Nat.mod_lt _ (Nat.two_pow_pos _) }

theorem setCtx_keeps_inv (ctx : Bytes) (s : State) (h : s.Inv) : (setCtx ctx s).Inv :=
  { h with
    ctxIn_width := splice_take_length _ _ _ h.ctxIn_width
    ctxLen_fits := Nat.mod_lt _ (Nat.two_pow_pos _) }

theorem stage_keeps_inv (s : State) (h : s.Inv) : (stage s).Inv := { h with out_wf := rfl }

/-- The key a command binds is the one supplied, when it fits the window and its count fits KEY_LEN (30_encoding.md R72). -/
theorem keyOperand_setKey (key : Bytes) (s : State) (hmax : key.length ≤ s.params.keyMax) (h32 : key.length < 2 ^ 32) :
    keyOperand (setKey key s) = key := by
  rw [keyOperand, setKey_keyLen, Nat.mod_eq_of_lt h32]
  exact take_splice_take _ _ _ hmax

/-- The Context a command takes is the one supplied, when it is one block (30_encoding.md R72). -/
theorem ctxOperand_setCtx (ctx : Bytes) (s : State) (hlen : ctx.length = s.blockSize)
    (hmax : s.blockSize ≤ s.params.bsMax) : ctxOperand (setCtx ctx s) = ctx := by
  show ((splice s.ctxIn ctx).take s.params.bsMax).take s.blockSize = ctx
  rw [← hlen]
  exact take_splice_take _ _ _ (hlen.trans_le hmax)

/-! ### Steps 1 and 2 of R157: the session a one-shot operation opens -/

/-- The operands of a one-shot operation are good and no session is open: every check of 44_oneshot.md R158 passes but the capacity check, and the message fits the length registers (R157). -/
structure GoodOperands (s : State) (a : AlgId) (d : AlgDesc) (key ctx msg : Bytes) : Prop where
  inv : s.Inv
  noSession : s.phase ≠ .active
  known : s.params.algTable.lookup a = some d
  keyLen : key.length ∈ d.keyLens
  keyFits : key.length < 2 ^ 32
  ctxLen : ctx.length = d.blockSize
  msgFits : msg.length + d.blockSize < 2 ^ s.params.lenW

/-- The Context a one-shot operation starts from: the draw for ONESHOTENC, else the one supplied (44_oneshot.md R155). -/
def Role.startContext (r : Role) (ctx drawn : Bytes) : Bytes :=
  match r with
  | .enc => drawn
  | .encx => ctx
  | .dec => ctx

/-- A session just opened under this key, from this Context. -/
structure FreshSession (p : Params) (a : AlgId) (key : Bytes) (m : Mode) (d : Dir) (c : Bytes) (t : State) : Prop where
  inv : t.Inv
  active : t.phase = .active
  params : t.params = p
  alg : t.alg = a
  key : t.key = key
  mode : t.mode = m
  dir : t.dir = d
  occ : t.occ = 0
  chain : t.chainUsed = c
  context : d = .enc → (ctxOut t).take t.blockSize = c

section
variable {p : Params} {a : AlgId} {key : Bytes} {m : Mode} {d : Dir} {c : Bytes} {t : State}
  (h : FreshSession p a key m d c t)
include h

theorem FreshSession.encryptBlock (P : Prim) : t.encryptBlock P = P.enc a key := by
  rw [State.encryptBlock, h.alg, h.key]

theorem FreshSession.decryptBlock (P : Prim) : t.decryptBlock P = P.dec a key := by
  rw [State.decryptBlock, h.alg, h.key]

theorem FreshSession.sessionContext_enc (hd : d = .enc) : sessionContext t = some (ctxOut t) :=
  if_pos (h.dir.trans hd)

theorem FreshSession.sessionContext_dec (hd : d = .dec) : sessionContext t = none :=
  if_neg (by rw [h.dir, hd]; decide)

/-- A fresh session stays one when its output goes to a staging buffer. -/
theorem FreshSession.stage : FreshSession p a key m d c (stage t) :=
  { h with inv := stage_keeps_inv t h.inv }

end

/-- `Open` in phase KEYED opens a fresh session, whatever the random source does (43_context_and_binding.md R139). -/
theorem openSession_fresh (m : Mode) (d : Dir) (c : Bytes) (n : Nat) (s : State) (hi : s.Inv) (hp : s.phase = .keyed)
    (hc : c.length = s.blockSize) :
    FreshSession s.params s.alg s.key m d c { openSession m d c s with draws := n } := by
  obtain ⟨hctx0, hchain, hwidth, -⟩ := openSession_context m d c s hi hp hc
  have hopen := openSession_keeps_inv m d c s hi hp
  refine ⟨{ hopen with }, rfl, rfl, rfl, rfl, rfl, rfl, rfl, hchain, fun hd => ?_⟩
  have hfits : s.blockSize ≤ (openSession m d c s).ctx0.length :=
    hwidth ▸ (hi.blockSize_bounds (by rw [hp]; decide)).2.2
  exact (ctxOut_take_blockSize _ (decide_eq_true hd) hfits).trans hctx0

/-- The BEGIN command of a one-shot operation opens a fresh session in phase KEYED (44_oneshot.md R157 step 2). -/
theorem exec_begin_fresh (r : Role) (m : Mode) (ctx : Bytes) (s : State) (hi : s.Inv) (hp : s.phase = .keyed)
    (hlen : ctx.length = s.blockSize) :
    ∃ t, exec (r.begin m) (r.supply ctx s) = .next t ∧ t.err = .ok ∧
      FreshSession s.params s.alg s.key m r.dir (r.startContext ctx (Config.draw s.draws s.blockSize)) t := by
  obtain ⟨-, hb128, hfits⟩ := hi.blockSize_bounds (by rw [hp]; decide)
  have hctxLen : (setCtx ctx s).ctxLen = s.blockSize := by rw [setCtx_ctxLen, Nat.mod_eq_of_lt (by omega), hlen]
  have hsupplied (d : Dir) : ∃ t, beginWithContext m d (setCtx ctx s) = .next t ∧ t.err = .ok ∧
      FreshSession s.params s.alg s.key m d ctx t := by
    refine ⟨_, beginWithContext_ok m d hp hctxLen, rfl, ?_⟩
    rw [ctxOperand_setCtx ctx s hlen hfits]
    exact openSession_fresh m d ctx s.draws (setCtx ctx s) (setCtx_keeps_inv ctx s hi) hp hlen
  cases r with
  | enc => exact ⟨_, exec_beginenc_keyed m hp, rfl, openSession_fresh m .enc _ _ s hi hp (draw_length _ _)⟩
  | encx => exact hsupplied .enc
  | dec => exact hsupplied .dec

section
variable {s : State} {a : AlgId} {d : AlgDesc} {key ctx msg : Bytes} (h : GoodOperands s a d key ctx msg)
include h

/-- BINDKEY binds the key supplied (44_oneshot.md R157 step 1). -/
theorem GoodOperands.bindkey :
    exec (.bindkey a) (setKey key s) = .next (bindKey a (setKey key s)) ∧ (bindKey a (setKey key s)).Inv ∧
      (bindKey a (setKey key s)).key = key := by
  have hkeyLen : (setKey key s).keyLen ∈ d.keyLens := by
    rw [setKey_keyLen, Nat.mod_eq_of_lt h.keyFits]
    exact h.keyLen
  obtain ⟨-, -, -, hkeys⟩ := AlgDesc.wf_bounds _ _ (Params.desc_wf _ _ _ h.inv.params_wf h.known)
  have hmax : key.length ≤ s.params.keyMax := (hkeys _ h.keyLen).2
  exact ⟨exec_bindkey_ok h.known h.noSession hkeyLen,
    bindKey_keeps_inv a d _ (setKey_keeps_inv key s h.inv) h.known hkeyLen h.noSession,
    keyOperand_setKey key s hmax h.keyFits⟩

/-- With good operands a one-shot operation goes on from a fresh session under its key (44_oneshot.md R157). -/
theorem GoodOperands.opens (r : Role) (m : Mode) (cap : Nat) :
    ∃ t, FreshSession s.params a key m r.dir (r.startContext ctx (Config.draw s.draws d.blockSize)) t ∧
      oneShot r a key m ctx msg cap s = oneShotData exec r m msg cap s t := by
  obtain ⟨hbind, hinv, hkey⟩ := h.bindkey
  have hbs : (bindKey a (setKey key s)).blockSize = d.blockSize := State.blockSize_of_desc _ d h.known
  obtain ⟨t, hbegin, hok, hfresh⟩ := exec_begin_fresh r m ctx _ hinv rfl (h.ctxLen.trans hbs.symm)
  rw [hbs, hkey] at hfresh
  refine ⟨t, hfresh, ?_⟩
  simp only [oneShot, oneShotWith, andThen, hbind, hbegin, hok, bindKey_err, ne_eq, not_true, if_false]

end

/-! ### Steps 3 to 6 of R157: the message as one chunk of a session -/

/-- A one-shot operation hands over the result of its session into the caller's buffer `outc` (44_oneshot.md R157 steps 5 and 6): on OK the whole output and the `bs` bytes of the Context, else the code alone. -/
structure HandsOver (outc : Memory) (bs : Nat) (res : SessionResult) (x : OneShotResult) : Prop where
  done : x.state.phase = .done
  err : x.err = res.err
  delivered : x.delivered = if res.err = .ok then res.output else []
  context : x.context = if res.err = .ok then res.context.map (·.take bs) else none
  out : x.state.out = Memory.writeBytes outc 0 x.delivered

/-- FINISH into a fresh buffer ends the one-shot operation as FINISH into any buffer ends the session, the run of the UPDATE before it put in front. -/
theorem oneShotFinish_handsOver (r : Role) (caller : State) {u : State} {o : Bytes} (ho : outputRun u = some o)
    (hp : u.phase = .active) (ha : u.placement.apartForFinish = true) (hdir : u.dir = r.dir) :
    ∃ res x, sessionRun [.finish u.blockSize] u = some res ∧ oneShotFinish exec r caller u = .next x ∧
      HandsOver caller.out u.blockSize (res.after o) x := by
  have hsession : exec .finish (setCap u.blockSize u) =
      .next (deliver (finishResult Config.blackbox (setCap u.blockSize u)) (setCap u.blockSize u)) :=
    finishWith_active _ _ ha hp
  have hstaged : exec .finish (setCap u.blockSize (stage u)) =
      .next (deliver (finishResult Config.blackbox (setCap u.blockSize u)) (setCap u.blockSize (stage u))) :=
    finishWith_active _ (setCap u.blockSize (stage u)) rfl hp
  rw [sessionRun, oneShotFinish, hstaged]
  rcases finishResult_cases Config.blackbox (setCap u.blockSize u) with
    ⟨-, hres⟩ | ⟨-, b, hres, -⟩ | ⟨-, -, -, hres⟩ <;> rw [hres] at hsession ⊢
  · exact ⟨_, _, sessionRunWith_finish exec _ [] u _ [] hp hsession rfl, rfl, rfl, rfl, rfl, rfl, rfl⟩
  · refine ⟨_, _, sessionRunWith_finish exec _ [] u _ b hp hsession (outputRun_deliver b _), rfl, rfl, rfl, ?_, ?_, rfl⟩
    · show (outputRun u).getD [] ++ (outputRun (deliver (.ok b) _)).getD [] = o ++ b
      rw [ho, outputRun_deliver]
      rfl
    · show (if r.dir = .enc then some ((ctxOut u).take u.blockSize) else none) =
        (sessionContext u).map (·.take u.blockSize)
      rw [sessionContext, hdir, apply_ite (Option.map _)]
      rfl
  · exact ⟨_, _, sessionRunWith_finish exec _ [] u _ [] hp hsession rfl, rfl, rfl, rfl, rfl, rfl, rfl⟩

/-- With the required capacity a one-shot operation hands over what a session that is fed the message in one chunk results in (44_oneshot.md R159). -/
theorem oneShotData_handsOver (r : Role) (m : Mode) (msg : Bytes) (cap : Nat) (caller s : State) (hi : s.Inv)
    (hp : s.phase = .active) (hdir : s.dir = r.dir) (hneed : needCap m r.dir s.blockSize msg.length ≤ cap)
    (hfits : msg.length + s.blockSize < 2 ^ s.params.lenW) :
    ∃ res x, session [⟨msg, msg.length + s.blockSize⟩] s.blockSize (stage s) = some res ∧
      oneShotData exec r m msg cap caller s = .next x ∧ HandsOver caller.out s.blockSize res x := by
  have hready := updateReady_of_chunk (stage s) ⟨msg, msg.length + s.blockSize⟩ (stage_keeps_inv s hi) hp rfl
    le_rfl hfits
  have hupdate := updateWith_ready Config.blackbox _ _ hready
  have hrun := outputRun_acceptChunk Config.blackbox blackbox_keepsLength _ _ hready
  obtain ⟨res, x, hfinish, hoper, hover⟩ := oneShotFinish_handsOver r caller hrun hp rfl hdir
  refine ⟨_, x, ?_, ?_, hover⟩
  · exact (sessionRunWith_update exec _ _ _ (stage s) _ _ hp hupdate hrun).trans (congrArg _ hfinish)
  · rw [oneShotData, if_neg (by omega), if_neg (by omega), exec_update, hupdate]
    exact hoper

/-! ### The whole-message functions (40_engine.md R101) -/

/-- The whole-message function of an encryption (40_engine.md R101): CPenc or CTRx. -/
def encWhole (m : Mode) (E : Bytes → Bytes) (bs : Nat) (c msg : Bytes) : Bytes :=
  match m with
  | .cp => cpEncWhole E bs c msg
  | .ctr => ctrWhole E bs c msg

section
variable {p : Params} {a : AlgId} {key : Bytes} {m : Mode} {d : Dir} {c : Bytes} {t : State}
  (h : FreshSession p a key m d c t) {cs : List Chunk} {cap : Nat} (hr : SessionReady t cap) (hc : CapacitiesSuffice t cs)
include h hr hc

theorem FreshSession.session_ctr (hm : m = .ctr) :
    session cs cap t =
      some { err := .ok, output := ctrWhole (Config.blackbox.enc a key) t.blockSize c (messageOf cs),
             context := sessionContext t } := by
  rw [session_eq, sessionOf_fresh_ctr _ blackbox_keepsLength t cs cap hr hc h.occ (h.mode.trans hm), h.encryptBlock, h.chain]

theorem FreshSession.session_enc (hd : d = .enc) :
    session cs cap t =
      some { err := .ok, output := encWhole m (Config.blackbox.enc a key) t.blockSize c (messageOf cs),
             context := some (ctxOut t) } := by
  rw [← h.sessionContext_enc hd]
  cases m with
  | cp =>
    rw [session_eq, sessionOf_fresh_cpEnc _ blackbox_keepsLength t cs cap hr hc h.occ h.mode (h.dir.trans hd),
      h.encryptBlock, h.chain]
    rfl
  | ctr => exact h.session_ctr hr hc rfl

theorem FreshSession.session_cpDec (hm : m = .cp) (hd : d = .dec) :
    (CpDecAccepts (Config.blackbox.dec a key) t.blockSize c (messageOf cs) →
      session cs cap t =
        some { err := .ok, output := cpDecWhole (Config.blackbox.dec a key) t.blockSize c (messageOf cs),
               context := none }) ∧
      (¬ CpDecAccepts (Config.blackbox.dec a key) t.blockSize c (messageOf cs) →
        session cs cap t =
          some { err := .badPadding, output := cpDecFront (Config.blackbox.dec a key) t.blockSize c (messageOf cs),
                 context := none }) := by
  have hdec := sessionOf_fresh_cpDec _ blackbox_keepsLength t cs cap hr hc h.occ (h.mode.trans hm) (h.dir.trans hd)
  rwa [← session_eq, h.decryptBlock, h.chain, h.sessionContext_dec hd] at hdec

end

/-! ### The equivalence (44_oneshot.md R159) -/

/-- What is handed over of a session that ends with OK. -/
theorem HandsOver.of_ok {outc : Memory} {bs : Nat} {o : Bytes} {ctx : Option Bytes} {x : OneShotResult}
    (h : HandsOver outc bs { err := .ok, output := o, context := ctx } x) :
    x.err = .ok ∧ x.context = ctx.map (·.take bs) ∧ x.delivered = o :=
  ⟨h.err, h.context, h.delivered⟩

/-- What is handed over of a session that ends with BadPadding: the code alone. -/
theorem HandsOver.of_badPadding {outc : Memory} {bs : Nat} {o : Bytes} {ctx : Option Bytes} {x : OneShotResult}
    (h : HandsOver outc bs { err := .badPadding, output := o, context := ctx } x) :
    x.err = .badPadding ∧ x.context = none ∧ x.delivered = [] :=
  ⟨h.err, h.context, h.delivered⟩

section
variable {s : State} {a : AlgId} {d : AlgDesc} {key ctx msg : Bytes} (h : GoodOperands s a d key ctx msg)
include h

/-- With good operands and the required capacity a one-shot operation hands over what a fresh session that is fed the message results in (44_oneshot.md R157, R159). -/
theorem GoodOperands.handsOver (r : Role) (m : Mode) (cap : Nat) (hneed : needCap m r.dir d.blockSize msg.length ≤ cap) :
    ∃ t cs res x, FreshSession s.params a key m r.dir (r.startContext ctx (Config.draw s.draws d.blockSize)) t ∧
      t.blockSize = d.blockSize ∧ SessionReady t d.blockSize ∧ CapacitiesSuffice t cs ∧ messageOf cs = msg ∧
      session cs d.blockSize t = some res ∧
      oneShot r a key m ctx msg cap s = .next x ∧ HandsOver s.out d.blockSize res x := by
  obtain ⟨t, hf, hdata⟩ := h.opens r m cap
  have hbs : t.blockSize = d.blockSize := t.blockSize_of_desc d (by rw [State.desc, hf.params, hf.alg, h.known])
  have hfits := h.msgFits
  rw [← hbs] at hneed hfits
  rw [← hf.params] at hfits
  obtain ⟨res, x, hsession, hoper, hover⟩ := oneShotData_handsOver r m msg cap s t hf.inv hf.active hf.dir hneed hfits
  have hready : SessionReady (stage t) t.blockSize :=
    ⟨stage_keeps_inv t hf.inv, hf.active, rfl, le_rfl, (Nat.le_add_left _ _).trans_lt hfits⟩
  have hsuffices : CapacitiesSuffice (stage t) [⟨msg, msg.length + t.blockSize⟩] := by
    rw [CapacitiesSuffice, List.forall_mem_singleton]
    exact ⟨le_rfl, hfits⟩
  rw [hbs] at hover hsession hready hsuffices
  exact ⟨stage t, _, res, x, hf.stage, hbs, hready, hsuffices, List.append_nil _, hsession, hdata.trans hoper, hover⟩

/-- A one-shot encryption returns the Context it started from and the whole-message function of its message. -/
theorem GoodOperands.encrypts (r : Role) (hr : r.dir = .enc) (m : Mode) (cap : Nat)
    (hneed : needCap m .enc d.blockSize msg.length ≤ cap) :
    ∃ x, oneShot r a key m ctx msg cap s = .next x ∧ x.err = .ok ∧
      x.context = some (r.startContext ctx (Config.draw s.draws d.blockSize)) ∧
      x.delivered = encWhole m (Config.blackbox.enc a key) d.blockSize
        (r.startContext ctx (Config.draw s.draws d.blockSize)) msg ∧
      x.state.out = Memory.writeBytes s.out 0 (encWhole m (Config.blackbox.enc a key) d.blockSize
        (r.startContext ctx (Config.draw s.draws d.blockSize)) msg) ∧
      x.state.phase = .done := by
  obtain ⟨t, cs, res, x, hf, hbs, hready, hsuffices, rfl, hsession, hoper, hover⟩ :=
    h.handsOver r m cap (by rwa [hr])
  cases hsession.symm.trans (hf.session_enc hready hsuffices hr)
  obtain ⟨hok, hctx, hdelivered⟩ := hover.of_ok
  rw [hbs] at hdelivered
  rw [Option.map_some, ← hbs, hf.context hr] at hctx
  exact ⟨x, hoper, hok, hctx, hdelivered, hdelivered ▸ hover.out, hover.done⟩

/-- A one-shot decryption returns CTRx or CPdec of its message; where CPdec fails, BadPadding and no byte (41_chained_padded.md R113). -/
theorem GoodOperands.decrypts (m : Mode) (cap : Nat) (hneed : needCap m .dec d.blockSize msg.length ≤ cap) :
    ∃ x, oneShot .dec a key m ctx msg cap s = .next x ∧ x.context = none ∧ x.state.phase = .done ∧
      (m = .ctr → x.err = .ok ∧ x.delivered = ctrWhole (Config.blackbox.enc a key) d.blockSize ctx msg) ∧
      (m = .cp → CpDecAccepts (Config.blackbox.dec a key) d.blockSize ctx msg →
        x.err = .ok ∧ x.delivered = cpDecWhole (Config.blackbox.dec a key) d.blockSize ctx msg) ∧
      (m = .cp → ¬ CpDecAccepts (Config.blackbox.dec a key) d.blockSize ctx msg →
        x.err = .badPadding ∧ x.delivered = []) ∧
      x.state.out = Memory.writeBytes s.out 0 x.delivered := by
  obtain ⟨t, cs, res, x, hf, hbs, hready, hsuffices, rfl, hsession, hoper, hover⟩ := h.handsOver .dec m cap hneed
  rw [← hbs]
  cases m with
  | ctr =>
    cases hsession.symm.trans (hf.session_ctr hready hsuffices rfl)
    obtain ⟨hok, hctx, hdelivered⟩ := hover.of_ok
    rw [hf.sessionContext_dec rfl] at hctx
    exact ⟨x, hoper, hctx, hover.done, fun _ => ⟨hok, hdelivered⟩, nofun, nofun, hover.out⟩
  | cp =>
    obtain ⟨haccepts, hrejects⟩ := hf.session_cpDec hready hsuffices rfl rfl
    by_cases hacc : CpDecAccepts (Config.blackbox.dec a key) t.blockSize ctx (messageOf cs)
    · cases hsession.symm.trans (haccepts hacc)
      obtain ⟨hok, hctx, hdelivered⟩ := hover.of_ok
      exact ⟨x, hoper, hctx, hover.done, nofun, fun _ _ => ⟨hok, hdelivered⟩, fun _ hrej => absurd hacc hrej,
        hover.out⟩
    · cases hsession.symm.trans (hrejects hacc)
      obtain ⟨hbad, hctx, hdelivered⟩ := hover.of_badPadding
      exact ⟨x, hoper, hctx, hover.done, nofun, fun _ hacc' => absurd hacc' hacc,
        fun _ _ => ⟨hbad, hdelivered⟩, hover.out⟩

end

/-- Settles O56: a one-shot operation hands over the result of a fresh session, which computes the whole-message functions. -/
theorem oneShotComputesWholeMessage : Obligations.OneShotComputesWholeMessage := by
  intro s a d key ctx msg m cap hi hp hl hk hk32 hc hfits
  have h : GoodOperands s a d key ctx msg := ⟨hi, hp, hl, hk, hk32, hc, hfits⟩
  refine ⟨fun hneed => ⟨?_, ?_⟩, h.decrypts m cap⟩
  · cases m <;> exact h.encrypts .encx rfl _ cap hneed
  · cases m <;> exact h.encrypts .enc rfl _ cap hneed

end Sys2Proof.Machine
end

section
/-! Family 70_reset_and_hazards.md: what a script line makes of the result of the lines behind it, that the result of a session does not depend on what a failed command leaves, and the obligation O59. -/

namespace Sys2Proof.Machine

/-! ### One line of a session (70_reset_and_hazards.md R205) -/

/-- The result of a session whose line `l` led to `t`, from the result `rest` of the lines behind it. -/
def Line.result (l : Line) (t : State) (rest : Option SessionResult) : Option SessionResult :=
  match l with
  | .bindkey _ _ => rest
  | .beginenc _ => rest
  | .beginencx _ _ => rest
  | .begindec _ _ => rest
  | .update _ _ => (outputRun t).bind fun o => rest.map (SessionResult.after o)
  | .finish _ => (outputRun t).map fun o => { err := t.err, output := o, context := sessionContext t }
  | .reset => none

/-- When a session has a result: it is open, its first line answers a next state, and that line makes the result of what the lines behind it answer. -/
theorem sessionRunWith_cons_eq_some (run) (l : Line) (ls : List Line) (s : State) (r : SessionResult) :
    sessionRunWith run (l :: ls) s = some r ↔
      s.phase = .active ∧ ∃ t, run l.instr (l.setup s) = .next t ∧ l.result t (sessionRunWith run ls t) = some r := by
  by_cases hp : s.phase = .active
  · cases hrun : run l.instr (l.setup s) with
    | next t => cases l <;> simp [sessionRunWith, Line.result, hp, hrun]
    | fault e => simp [sessionRunWith, hp, hrun]
    | refused e => simp [sessionRunWith, hp, hrun]
  · simp [sessionRunWith, hp]

/-- Only FINISH makes a result where the lines behind have none. -/
theorem Line.result_none {l : Line} (t : State) (hf : l.instr ≠ .finish) : l.result t none = none := by
  cases l with
  | update chunk cap => cases h : outputRun t <;> simp [Line.result, h]
  | finish cap => exact absurd rfl hf
  | _ => rfl

/-- A command with an empty output run leaves the result of the lines behind as it is, where it ends no session. -/
theorem Line.result_of_outLen_zero {l : Line} {t : State} (rest : Option SessionResult) (hf : l.instr ≠ .finish)
    (hr : l.instr ≠ .reset) (ht : t.outLen = 0) : l.result t rest = rest := by
  cases l with
  | update chunk cap =>
    have hrun : outputRun t = some [] := by rw [outputRun, ht]; rfl
    cases rest <;> simp [Line.result, hrun]
  | finish cap => exact absurd rfl hf
  | reset => exact absurd rfl hr
  | _ => rfl

/-- Where the result of a session comes from: FINISH makes it whatever lines are behind, any other line has it from them, Context included. -/
theorem Line.result_eq_some {l : Line} {t : State} {rest : Option SessionResult} {r : SessionResult}
    (h : l.result t rest = some r) :
    (l.instr = .finish ∧ r.context = sessionContext t ∧ ∀ rest', l.result t rest' = some r) ∨
      (l.instr ≠ .reset ∧ ∃ r', rest = some r' ∧ r'.context = r.context) := by
  cases l with
  | update chunk cap =>
    simp only [Line.result, Option.bind_eq_some_iff, Option.map_eq_some_iff] at h
    obtain ⟨o, -, r', hr', rfl⟩ := h
    exact .inr ⟨nofun, r', hr', rfl⟩
  | finish cap =>
    obtain ⟨o, -, rfl⟩ := Option.map_eq_some_iff.1 h
    exact .inl ⟨rfl, rfl, fun _ => h⟩
  | reset => cases h
  | _ => exact .inr ⟨nofun, r, h, rfl⟩

/-- A session that has a result has it whatever lines follow. -/
theorem sessionRunWith_append (run) (ls ms : List Line) (s : State) (r : SessionResult)
    (h : sessionRunWith run ls s = some r) : sessionRunWith run (ls ++ ms) s = some r := by
  induction ls generalizing s r with
  | nil => cases h
  | cons l ls ih =>
    obtain ⟨hp, t, he, hres⟩ := (sessionRunWith_cons_eq_some ..).1 h
    rw [List.cons_append]
    refine (sessionRunWith_cons_eq_some ..).2 ⟨hp, t, he, ?_⟩
    obtain ⟨-, -, hany⟩ | ⟨-, r', hr', -⟩ := Line.result_eq_some hres
    · exact hany _
    · rwa [ih t r' hr', ← hr']

/-- A RESET ends the session without a result, whatever lines follow. -/
theorem sessionRunWith_reset (run) (ms : List Line) (s : State) : sessionRunWith run (.reset :: ms) s = none := by
  refine Option.eq_none_iff_forall_ne_some.2 fun r h => ?_
  obtain ⟨-, t, -, hres⟩ := (sessionRunWith_cons_eq_some ..).1 h
  cases hres

/-- Lines without a FINISH make no result of lines that have none. -/
theorem sessionRunWith_append_eq_none (run) (ls ms : List Line) (s : State) (hf : ∀ l ∈ ls, l.instr ≠ .finish)
    (hms : ∀ t, sessionRunWith run ms t = none) : sessionRunWith run (ls ++ ms) s = none := by
  induction ls generalizing s with
  | nil => exact hms s
  | cons l ls ih =>
    obtain ⟨hl, hls⟩ := List.forall_mem_cons.1 hf
    rw [List.cons_append]
    refine Option.eq_none_iff_forall_ne_some.2 fun r h => ?_
    obtain ⟨-, t, -, hres⟩ := (sessionRunWith_cons_eq_some ..).1 h
    rw [ih t hls, Line.result_none t hl] at hres
    cases hres

/-! ### The Context handed over (70_reset_and_hazards.md R205, 40_engine.md R98) -/

/-- Setting a line's operands is no part of what the session hands over. -/
theorem Line.setup_sessionContext (l : Line) (s : State) : sessionContext (l.setup s) = sessionContext s := by
  cases l <;> rfl

/-- Every command but RESET keeps what an open session hands over, FINISH included. -/
theorem exec_keeps_sessionContext {i : Instr} {s t : State} (hp : s.phase = .active) (hr : i ≠ .reset)
    (he : exec i s = .next t) : sessionContext t = sessionContext s := by
  obtain ⟨e, rfl, -⟩ | ⟨a, d, -, -, hn, -⟩ | ⟨m, -, hk, -⟩ | ⟨m, -, hk, -⟩ | ⟨m, -, hk, -⟩ |
    ⟨c, -, -, -, -, -, rfl⟩ | ⟨-, -, -, rfl⟩ | ⟨hreset, -⟩ := exec_cases i s t he
  · -- an error raised
    rfl
  · -- BINDKEY
    exact absurd hp hn
  · -- BEGINENC
    cases hp.symm.trans hk
  · -- BEGINENCX
    cases hp.symm.trans hk
  · -- BEGINDEC
    cases hp.symm.trans hk
  · -- UPDATE
    rfl
  · -- FINISH
    obtain ⟨o, n, e, hd⟩ := deliver_eq_closeSession (finishResult Config.blackbox s) s
    rw [hd]
    rfl
  · -- RESET
    exact absurd hreset hr

/-- A session that has a result hands over the Context it is open with. -/
theorem sessionRun_context (ls : List Line) (s : State) (r : SessionResult) (h : sessionRun ls s = some r) :
    r.context = sessionContext s := by
  induction ls generalizing s r with
  | nil => cases h
  | cons l ls ih =>
    obtain ⟨hp, t, he, hres⟩ := (sessionRunWith_cons_eq_some ..).1 h
    have hactive : (l.setup s).phase = .active := by cases l <;> exact hp
    have hkeep : l.instr ≠ .reset → sessionContext t = sessionContext s := fun hr =>
      (exec_keeps_sessionContext hactive hr he).trans (l.setup_sessionContext s)
    obtain ⟨hf, hctx, -⟩ | ⟨hr, r', hr', hctx⟩ := Line.result_eq_some hres
    · exact hctx.trans (hkeep (by rw [hf]; nofun))
    · exact hctx.symm.trans ((ih t r' hr').trans (hkeep hr))

/-! ### What the result does not depend on (60_exceptions.md R170, R175) -/

/-- `s` with the operand registers and the input slice of `x`. A script line sets those its command needs in an open session itself (30_encoding.md R77), so what they held before does not matter. -/
def State.withOperandsOf (s x : State) : State :=
  { s with
    inLen := x.inLen
    outCap := x.outCap
    keyLen := x.keyLen
    ctxLen := x.ctxLen
    keyIn := x.keyIn
    ctxIn := x.ctxIn
    inp := x.inp }

/-- A line sets operands only. -/
theorem Line.setup_eq_withOperandsOf (l : Line) (s : State) : l.setup s = s.withOperandsOf (l.setup s) := by
  cases l <;> rfl

/-- UPDATE reads the operands its line sets and no others. -/
theorem exec_update_withOperandsOf (chunk : Bytes) (cap : Nat) (s t x : State)
    (he : exec .update (setIn chunk (setCap cap s)) = .next t) :
    ∃ y, exec .update (setIn chunk (setCap cap (s.withOperandsOf x))) = .next (t.withOperandsOf y) := by
  refine ⟨setIn chunk (setCap cap (s.withOperandsOf x)), ?_⟩
  rw [exec_update] at he ⊢
  rcases updateWith_cases Config.blackbox (setIn chunk (setCap cap s)) with
    ⟨-, h⟩ | ⟨ha, hp, h⟩ | ⟨ha, hp, hc, h⟩ | ⟨-, -, -, -, h⟩ | ⟨c, ha, hp, hc, hin, h⟩ <;> cases he.symm.trans h
  · exact updateWith_inactive _ (setIn chunk (setCap cap (s.withOperandsOf x))) ha hp
  · exact updateWith_short _ (setIn chunk (setCap cap (s.withOperandsOf x))) ha hp hc
  · exact updateWith_accepts _ (setIn chunk (setCap cap (s.withOperandsOf x))) c ha hp hc hin

/-- What FINISH leaves of the operands is what it found. -/
theorem deliver_withOperandsOf (res : Except Err Bytes) (s x : State) :
    deliver res (s.withOperandsOf x) = (deliver res s).withOperandsOf x := by
  cases res <;> rfl

/-- FINISH reads OUT_CAP, which its line sets, and no other operand. -/
theorem exec_finish_withOperandsOf (cap : Nat) (s t x : State) (he : exec .finish (setCap cap s) = .next t) :
    ∃ y, exec .finish (setCap cap (s.withOperandsOf x)) = .next (t.withOperandsOf y) := by
  refine ⟨setCap cap (s.withOperandsOf x), ?_⟩
  change finishWith Config.blackbox (setCap cap s) = .next t at he
  rcases finishWith_cases Config.blackbox (setCap cap s) with ⟨-, h⟩ | ⟨ha, hp, h⟩ | ⟨ha, hp, h⟩ <;>
    cases he.symm.trans h
  · exact finishWith_inactive _ (setCap cap (s.withOperandsOf x)) ha hp
  · rw [← deliver_withOperandsOf]
    exact finishWith_active _ (setCap cap (s.withOperandsOf x)) ha hp

/-- A BINDKEY or a BEGIN raises the same error in an open session whatever the operands hold (60_exceptions.md R176). -/
theorem exec_setup_raises (l : Line) (s : State) (hp : s.phase = .active) (hu : l.instr ≠ .update)
    (hf : l.instr ≠ .finish) (hr : l.instr ≠ .reset) :
    ∃ e, ∀ x, ∃ y, exec l.instr (l.setup (s.withOperandsOf x)) = .next ((raise e s).withOperandsOf y) := by
  have hkeyed : s.phase ≠ .keyed := by rw [hp]; nofun
  cases l with
  | bindkey a key =>
    cases hl : s.params.algTable.lookup a with
    | none => exact ⟨_, fun x => ⟨_, exec_bindkey_unknownAlg (s := setKey key (s.withOperandsOf x)) hl⟩⟩
    | some d => exact ⟨_, fun x => ⟨_, exec_bindkey_active (s := setKey key (s.withOperandsOf x)) hl hp⟩⟩
  | beginenc m => exact ⟨_, fun x => ⟨_, exec_beginenc_notKeyed m (s := s.withOperandsOf x) hkeyed⟩⟩
  | beginencx m ctx =>
    exact ⟨_, fun x => ⟨_, beginWithContext_notKeyed m .enc (s := setCtx ctx (s.withOperandsOf x)) hkeyed⟩⟩
  | begindec m ctx =>
    exact ⟨_, fun x => ⟨_, beginWithContext_notKeyed m .dec (s := setCtx ctx (s.withOperandsOf x)) hkeyed⟩⟩
  | update chunk cap => exact absurd rfl hu
  | finish cap => exact absurd rfl hf
  | reset => exact absurd rfl hr

/-- A BINDKEY or a BEGIN of an open session does the same whatever the operand registers held before it. -/
theorem exec_raising_withOperandsOf {l : Line} {s t : State} (x : State) (hp : s.phase = .active)
    (hu : l.instr ≠ .update) (hf : l.instr ≠ .finish) (hr : l.instr ≠ .reset)
    (he : exec l.instr (l.setup s) = .next t) :
    ∃ y, exec l.instr (l.setup (s.withOperandsOf x)) = .next (t.withOperandsOf y) := by
  obtain ⟨e, hraise⟩ := exec_setup_raises l s hp hu hf hr
  obtain ⟨y, hy⟩ := hraise s
  cases he.symm.trans hy
  exact hraise x

/-- A line of an open session does the same whatever the operand registers held before it. -/
theorem exec_setup_withOperandsOf (l : Line) (s t x : State) (hp : s.phase = .active)
    (he : exec l.instr (l.setup s) = .next t) :
    ∃ y, exec l.instr (l.setup (s.withOperandsOf x)) = .next (t.withOperandsOf y) := by
  cases l with
  | update chunk cap => exact exec_update_withOperandsOf chunk cap s t x he
  | finish cap => exact exec_finish_withOperandsOf cap s t x he
  | reset =>
    cases he
    exact ⟨resetRegisters (s.withOperandsOf x), rfl⟩
  | _ => exact exec_raising_withOperandsOf x hp (by nofun) (by nofun) (by nofun) he

/-- The operand registers do not enter what a line makes of the result. -/
theorem Line.result_withOperandsOf (l : Line) (t y : State) (rest : Option SessionResult) :
    l.result (t.withOperandsOf y) rest = l.result t rest := by
  cases l <;> rfl

/-- What the operand registers hold before the lines of a session does not enter its result. -/
theorem sessionRun_withOperandsOf (ls : List Line) (s x : State) :
    sessionRun ls (s.withOperandsOf x) = sessionRun ls s := by
  induction ls generalizing s x with
  | nil => rfl
  | cons l ls ih =>
    have keeps : ∀ (s x : State) (r : SessionResult), sessionRun (l :: ls) s = some r →
        sessionRun (l :: ls) (s.withOperandsOf x) = some r := by
      intro s x r h
      obtain ⟨hp, t, he, hres⟩ := (sessionRunWith_cons_eq_some ..).1 h
      obtain ⟨y, hy⟩ := exec_setup_withOperandsOf l s t x hp he
      refine (sessionRunWith_cons_eq_some ..).2 ⟨hp, _, hy, ?_⟩
      rw [Line.result_withOperandsOf]
      exact (congrArg (l.result t) (ih t y)).trans hres
    exact Option.ext fun r => ⟨keeps (s.withOperandsOf x) s r, keeps s x r⟩

/-- What the last command left in ERR and OUT_LEN does not enter the result of the session (60_exceptions.md R175). -/
theorem sessionRun_withErr (ls : List Line) (s : State) (e : Err) (n : Nat) :
    sessionRun ls { s with err := e, outLen := n } = sessionRun ls s := by
  cases ls with
  | nil => rfl
  | cons l ls =>
    have hsetup : l.setup { s with err := e, outLen := n } = { l.setup s with err := e, outLen := n } := by
      cases l <;> rfl
    refine Option.ext fun r => ?_
    rw [sessionRun, sessionRun, sessionRunWith_cons_eq_some, sessionRunWith_cons_eq_some, hsetup,
      resultOfLastCommandIsForgotten]

/-- The session goes on after an error as if the line had not been there. -/
theorem sessionRun_raise_setup (ls : List Line) (l : Line) (e : Err) (s : State) :
    sessionRun ls (raise e (l.setup s)) = sessionRun ls s := by
  rw [raise, sessionRun_withErr, l.setup_eq_withOperandsOf, sessionRun_withOperandsOf]

/-- A command other than FINISH that fails has raised an error and done nothing else (60_exceptions.md R170). -/
theorem eq_raise_of_exec_failed {i : Instr} {s t : State} (hf : i ≠ .finish) (he : exec i s = .next t)
    (hfail : t.err ≠ .ok) : ∃ e, t = raise e s := by
  obtain ⟨e, ht, -⟩ | ⟨a, d, -, -, -, -, rfl⟩ | ⟨m, -, -, rfl⟩ | ⟨m, -, -, -, rfl⟩ | ⟨m, -, -, -, rfl⟩ |
    ⟨c, -, -, -, -, -, rfl⟩ | ⟨hfinish, -⟩ | ⟨-, rfl⟩ := exec_cases i s t he
  · -- an error raised
    exact ⟨e, ht⟩
  · -- BINDKEY
    exact absurd rfl hfail
  · -- BEGINENC
    exact absurd rfl hfail
  · -- BEGINENCX
    exact absurd rfl hfail
  · -- BEGINDEC
    exact absurd rfl hfail
  · -- UPDATE
    exact absurd rfl hfail
  · -- FINISH
    exact absurd hfinish hf
  · -- RESET
    exact absurd rfl hfail

/-- A failed command of an open session, FINISH apart, changes nothing of the result. -/
theorem sessionRun_cons_failed (l : Line) (ls : List Line) (s t : State) (hp : s.phase = .active)
    (hf : l.instr ≠ .finish) (he : exec l.instr (l.setup s) = .next t) (hfail : t.err ≠ .ok) :
    sessionRun (l :: ls) s = sessionRun ls s := by
  obtain ⟨e, rfl⟩ := eq_raise_of_exec_failed hf he hfail
  have hr : l.instr ≠ .reset := by
    intro hr
    rw [hr] at he
    exact hfail (congrArg State.err (Host.Outcome.next.inj he)).symm
  rw [← sessionRun_raise_setup ls l e s]
  refine Option.ext fun r => (sessionRunWith_cons_eq_some ..).trans ?_
  simp [hp, he, Line.result_of_outLen_zero _ hf hr (raise_outLen _ e), sessionRun]

/-- Settles O59: by what one line makes of the result of the lines behind it; a failed line leaves only ERR, OUT_LEN and operands, which no later line reads. -/
theorem sessionResultEndsAtFinish : Obligations.SessionResultEndsAtFinish := by
  intro s ls
  refine ⟨sessionRunWith_not_active exec ls s, fun l t => sessionRun_cons_failed l ls s t, fun r h => ?_, fun hf => ?_⟩
  · exact ⟨sessionRun_context ls s r h, fun ms => sessionRunWith_append exec ls ms s r h⟩
  · refine ⟨?_, fun ms => sessionRunWith_append_eq_none exec ls _ s hf (sessionRunWith_reset exec ms)⟩
    rw [← ls.append_nil]
    exact sessionRunWith_append_eq_none exec ls [] s hf fun _ => rfl

end Sys2Proof.Machine
end

section
/-! Command words (30_encoding.md): the encoder and the decoder undo each other, an illegal word runs no command, and the obligations O1, O2, O3. -/

namespace Sys2Proof.Machine

/-! ### Decoding an encoded command (30_encoding.md R70, R71, R73) -/

/-- Settles O2, format by format: an assembled word gives its fields back, its reserved bits are 0, and the fields its format does not use are 0 too. -/
theorem decodeOfEncode : Obligations.DecodeOfEncode := by
  intro t i hwf
  cases i with
  | bindkey a =>
    have hknown : (t.lookup a).isSome = true := hwf
    simp [encode, decode, decodeK, hknown]
  | beginenc m => simp [encode, decode, decodeM, modeOfBit_bit]
  | beginencx m => simp [encode, decode, decodeM, modeOfBit_bit]
  | begindec m => simp [encode, decode, decodeM, modeOfBit_bit]
  | update => simp [encode, decode, decodeP]
  | finish => simp [encode, decode, decodeP]
  | reset => simp [encode, decode, decodeP]

/-- Settles O1: eleven fixed words, decoded by evaluation. -/
theorem commandWordsDecode : Obligations.CommandWordsDecode := by
  unfold Obligations.CommandWordsDecode
  decide

/-! ### Encoding a decoded word (30_encoding.md R74, R75) -/

section
variable {t : AlgTable} {w : Word} {i : Instr}

/-- A word of format K: MODE is 0, and ALG is an id of the table and the command's operand. -/
theorem decodeK_eq_ok {mk : AlgId → Instr} (h : decodeK t w mk = .ok i) :
    modeField w = 0 ∧ (t.lookup (algField w)).isSome = true ∧ mk (algField w) = i := by
  rw [decodeK] at h
  split_ifs at h with hm hl
  exact ⟨not_not.1 hm, hl, Except.ok.inj h⟩

/-- A word of format M: ALG is 0, and MODE is the command's operand. -/
theorem decodeM_eq_ok {mk : Mode → Instr} (h : decodeM w mk = .ok i) :
    algField w = 0 ∧ mk (modeOfBit (modeField w)) = i := by
  rw [decodeM] at h
  split_ifs at h with ha
  exact ⟨not_not.1 ha, Except.ok.inj h⟩

/-- A word of format P: MODE and ALG are 0. -/
theorem decodeP_eq_ok {j : Instr} (h : decodeP w j = .ok i) : modeField w = 0 ∧ algField w = 0 ∧ j = i := by
  rw [decodeP] at h
  split_ifs at h with hm ha
  exact ⟨not_not.1 hm, not_not.1 ha, Except.ok.inj h⟩

theorem opField_eq_ofNat {n : Nat} (h : (opField w).toNat = n) : opField w = BitVec.ofNat 4 n := by
  rw [← h, BitVec.ofNat_toNat, BitVec.setWidth_eq]

/-- A word that decodes is the word of the command it decodes to, and that command is well formed. -/
theorem encode_of_decode (h : decode t w = .ok i) : i.wf t = true ∧ encode i = w := by
  rw [decode] at h
  split_ifs at h with hres
  obtain ⟨hlow, hhigh⟩ := not_or.1 hres
  have hw := assemble_fields w (not_not.1 hlow) (not_not.1 hhigh)
  split at h
  case h_1 hop =>
    obtain ⟨hm, hl, rfl⟩ := decodeK_eq_ok h
    rw [hm, opField_eq_ofNat hop] at hw
    exact ⟨hl, hw⟩
  case h_2 hop | h_3 hop | h_4 hop =>
    obtain ⟨ha, rfl⟩ := decodeM_eq_ok h
    rw [ha, ← bit_modeOfBit (modeField w), opField_eq_ofNat hop] at hw
    exact ⟨rfl, hw⟩
  case h_5 hop | h_6 hop | h_7 hop =>
    obtain ⟨hm, ha, rfl⟩ := decodeP_eq_ok h
    rw [hm, ha, opField_eq_ofNat hop] at hw
    exact ⟨rfl, hw⟩
  case h_8 => cases h

end

/-! ### Illegal words (30_encoding.md R74, 60_exceptions.md R171) -/

/-- An illegal word runs no command and raises IllegalCommand, whatever the phase. -/
theorem runCommand_illegalWord {s : State} {w : Word} (h : IllegalWord s.params.algTable w) :
    runCommand w s = .next (raise .illegalCommand s) := by
  obtain ⟨e, he⟩ := (illegalWord_iff_decode _ _).1 h
  rw [runCommand, he]

/-- Settles O3: the illegal words are those the decoder rejects, and it accepts no word but that of a well-formed command. -/
theorem illegalWordsEndInIllegalCommand : Obligations.IllegalWordsEndInIllegalCommand := by
  refine ⟨fun s w rest hw hhost hill => ?_, fun t w hlegal => ?_⟩
  · exact (step_host s _ rest hw hhost).trans (runCommand_illegalWord (s := { s with host := rest }) hill)
  · cases hd : decode t w with
    | error e => exact absurd ((illegalWord_iff_decode t w).2 ⟨e, hd⟩) hlegal
    | ok i =>
      obtain ⟨hwf, henc⟩ := encode_of_decode hd
      exact ⟨i, hwf, henc, rfl⟩

end Sys2Proof.Machine
end

section
/-! Steps and registers (10_state.md): every step keeps the invariant, what STATUS and INFO read, what reset restores, and the obligations O5, O8, O9, O31, O32, O33, O34. -/

namespace Sys2Proof.Machine

/-! ### The invariant (10_state.md R38) -/

/-- Settles O33: the default parameters are well formed, and the reset state of any that are meets the invariant. -/
theorem resetMeetsInvariant : Obligations.ResetMeetsInvariant :=
  ⟨atReset_meets_inv _ (by decide), atReset_meets_inv⟩

/-- Every command that answers a next state keeps the invariant. -/
theorem exec_keeps_inv (i : Instr) (s t : State) (hi : s.Inv) (he : exec i s = .next t) : t.Inv := by
  obtain ⟨e, rfl, -⟩ | ⟨a, d, -, hl, hp, hk, rfl⟩ | ⟨m, -, hp, rfl⟩ | ⟨m, -, hp, -, rfl⟩ | ⟨m, -, hp, -, rfl⟩ |
    ⟨c, -, hp, ha, hc, hin, rfl⟩ | ⟨-, hp, -, rfl⟩ | ⟨-, rfl⟩ := exec_cases i s t he
  · -- an error raised
    exact raise_keeps_inv e s hi
  · -- BINDKEY
    exact bindKey_keeps_inv a d s hi hl hk hp
  · -- BEGINENC
    have hopen := openSession_keeps_inv m .enc (Config.draw s.draws s.blockSize) s hi hp
    exact { hopen with }
  · -- BEGINENCX
    exact openSession_keeps_inv m .enc _ s hi hp
  · -- BEGINDEC
    exact openSession_keeps_inv m .dec _ s hi hp
  · -- UPDATE
    exact acceptChunk_keeps_inv _ blackbox_keepsLength s c ⟨hi, hp, ha, hin, hc⟩
  · -- FINISH
    exact deliver_keeps_inv _ blackbox_keepsLength s hi hp
  · -- RESET
    exact resetRegisters_keeps_inv s hi

/-- A write of CMD keeps the invariant, whether the word is a command or not. -/
theorem runCommand_keeps_inv (w : Word) (s t : State) (hi : s.Inv) (he : runCommand w s = .next t) : t.Inv := by
  rw [runCommand] at he
  split at he
  · exact exec_keeps_inv _ s t hi he
  · cases he
    exact raise_keeps_inv _ s hi

/-- Every action of the host keeps the invariant. -/
theorem runHostOp_keeps_inv (op : HostOp) (s t : State) (hi : s.Inv) (he : runHostOp op s = .next t) : t.Inv := by
  cases op with
  | write n v =>
    by_cases hn : n = 0x00
    · subst hn
      exact runCommand_keeps_inv v s t hi he
    · cases (runHostOp_write s n v hn).symm.trans he
      exact writeReg_keeps_inv s _ v hi
  | read n =>
    cases he
    exact { hi with }
  | lendIn bytes =>
    cases he
    exact { hi with inp_wf := Memory.wf_ofBytes bytes }
  | lendOut bytes =>
    cases he
    exact { hi with out_wf := Memory.wf_ofBytes bytes }
  | place p =>
    cases he
    exact { hi with }
  | resetInput =>
    cases he
    exact resetRegisters_keeps_inv s hi

/-- With no host action left the engine waits. -/
theorem step_wait (s : State) (hw : s.params.wf = true) (hh : s.host = []) : step s = .next s := by
  rw [step, if_pos hw, nextHostOp, hh]

/-- Settles O5: a step takes the host's next action, and there is none. -/
theorem stepWaitsForTheHost : Obligations.StepWaitsForTheHost := step_wait

/-- Settles O34: a step waits or takes one action of the host, and each keeps the invariant. -/
theorem stepKeepsInvariant : Obligations.StepKeepsInvariant := by
  intro s t hi he
  cases hh : s.host with
  | nil =>
    cases (step_wait s hi.params_wf hh).symm.trans he
    exact hi
  | cons op rest =>
    rw [step_host s op rest hi.params_wf hh] at he
    exact runHostOp_keeps_inv op { s with host := rest } t { hi with } he

/-! ### STATUS and INFO (10_state.md R28, R29, R31) -/

/-- The code of the last result is what STATUS leaves modulo 16, CTXV what it has above. -/
theorem statusWord_fields (s : State) :
    (statusWord s).toNat / 16 = (if s.ctxv then 1 else 0) ∧ (statusWord s).toNat % 16 = s.err.code.toNat := by
  have hcode := s.err.code.isLt
  rw [statusWord_toNat]
  split <;> omega

/-- Settles O8: register 0x01 is STATUS. -/
theorem statusReadsErrAndCtxv : Obligations.StatusReadsErrAndCtxv := by
  intro s rest hw hhost
  obtain ⟨hctxv, hcode⟩ := statusWord_fields s
  have code (e : Err) (n : Nat) (hn : e.code.toNat = n) : s.err = e → (statusWord s).toNat % 16 = n := by
    rintro rfl
    exact hcode.trans hn
  exact ⟨statusWord s, step_read s 0x01 rest hw hhost, hctxv, code _ 0 rfl, code _ 1 rfl, code _ 2 rfl,
    code _ 3 rfl, code _ 4 rfl, code _ 5 rfl, code _ 6 rfl⟩

/-- INFO holds its fields side by side, and nothing else. -/
theorem wordBits_infoWord (s : State) :
    wordBits (infoWord s) 7 0 = (infoBlockSize s).toNat ∧ wordBits (infoWord s) 11 8 = (infoAlg s).toNat ∧
      wordBits (infoWord s) 12 12 = (infoMode s).toNat ∧ wordBits (infoWord s) 13 13 = (infoDir s).toNat ∧
      wordBits (infoWord s) 15 14 = s.phase.code.toNat ∧ wordBits (infoWord s) 31 16 = 0 := by
  have hphase := s.phase.code.isLt
  have hdir := (infoDir s).isLt
  have hmode := (infoMode s).isLt
  have halg := (infoAlg s).isLt
  have hsize := (infoBlockSize s).isLt
  simp only [wordBits, infoWord_toNat]
  omega

theorem infoBlockSize_toNat (s : State) (hi : s.Inv) :
    (infoBlockSize s).toNat = if s.phase = .idle then 0 else s.blockSize := by
  by_cases hp : s.phase = .idle
  · rw [infoBlockSize, if_pos hp, if_pos hp]
    rfl
  · have hb := hi.blockSize_bounds hp
    rw [infoBlockSize, if_neg hp, if_neg hp, BitVec.toNat_ofNat, Nat.mod_eq_of_lt (by omega)]

theorem infoAlg_toNat (s : State) : (infoAlg s).toNat = if s.phase = .idle then 0 else s.alg.toNat :=
  apply_ite BitVec.toNat _ _ _

theorem infoMode_toNat (s : State) :
    (infoMode s).toNat = if (s.phase = .active ∨ s.phase = .done) ∧ s.mode = .ctr then 1 else 0 := by
  rw [infoMode]
  cases s.phase <;> cases s.mode <;> rfl

theorem infoDir_toNat (s : State) :
    (infoDir s).toNat = if (s.phase = .active ∨ s.phase = .done) ∧ s.dir = .dec then 1 else 0 := by
  rw [infoDir]
  cases s.phase <;> cases s.dir <;> rfl

/-- Settles O9: register 0x02 is INFO, read field by field. -/
theorem infoReadsTheSession : Obligations.InfoReadsTheSession := by
  intro s rest hi hhost
  obtain ⟨hsize, halg, hmode, hdir, hphase, hhigh⟩ := wordBits_infoWord s
  have phase (p : Phase) (n : Nat) (hn : p.code.toNat = n) : s.phase = p → wordBits (infoWord s) 15 14 = n := by
    rintro rfl
    exact hphase.trans hn
  exact ⟨infoWord s, step_read s 0x02 rest hi.params_wf hhost, hsize.trans (infoBlockSize_toNat s hi),
    halg.trans (infoAlg_toNat s), hmode.trans (infoMode_toNat s), hdir.trans (infoDir_toNat s),
    phase _ 0 rfl, phase _ 1 rfl, phase _ 2 rfl, phase _ 3 rfl, hhigh⟩

/-! ### Reset (10_state.md R40, 70_reset_and_hazards.md R190, R191) -/

/-- Settles O31: RESET and the reset input are one operation, and the host's pending actions are no part of it. -/
theorem resetRestoresRegisters : Obligations.ResetRestoresRegisters := by
  intro s
  refine ⟨resetRegisters s, rfl, ?_⟩
  iterate 22 refine ⟨rfl, ?_⟩
  intro rest hw
  exact step_host { s with host := .resetInput :: rest } .resetInput rest hw rfl

/-- Settles O32: a fixed state, evaluated. -/
theorem resetStateValues : Obligations.ResetStateValues := by
  unfold Obligations.ResetStateValues
  decide

end Sys2Proof.Machine
end

section
/-! Commands (60_exceptions.md): the order of a command's checks, the phase it leads to, what it leaves when it fails, and the obligations O16, O21, O26, O35, O36, O37, O46. -/

namespace Sys2Proof.Machine

/-! ### Single commands (40_engine.md R93, R97; 43_context_and_binding.md R143) -/

/-- Settles O26: FINISH ends the session whatever its result, and outside phase ACTIVE neither command is allowed. -/
theorem finishIsTerminal : Obligations.FinishIsTerminal := by
  intro s hp ha
  have hfinish := finishWith_active Config.blackbox s (apartForFinish_of_apartForUpdate ha) hp
  obtain ⟨o, n, e, hd⟩ := deliver_eq_closeSession (finishResult Config.blackbox s) s
  rw [hd] at hfinish
  refine ⟨_, hfinish, rfl, rfl, rfl, rfl, rfl, ?_, ?_⟩
  · exact updateWith_inactive _ _ ha nofun
  · exact finishWith_inactive _ _ (apartForFinish_of_apartForUpdate ha) nofun

/-- Settles O21: no run where the command fails, else the run of an accepted chunk. -/
theorem updateOutputFitsCapacity : Obligations.UpdateOutputFitsCapacity := by
  intro s t hi hp he
  refine ⟨?_, fun _ => exec_outLen_le .update s t hi he⟩
  obtain h0 | ⟨c, -, -, ha, hc, hin, rfl⟩ | ⟨hf, -⟩ := exec_outLen_cases .update s t he
  · have hb := hi.blockSize_bounds (by rw [hp]; nofun)
    omega
  · exact (acceptChunk_outLen_le _ s c ⟨hi, hp, ha, hin, hc⟩).1
  · cases hf

/-- Settles O16: in phase KEYED only the length of a supplied Context makes a BEGIN fail, and it raises an error, which keeps the binding. -/
theorem failedBeginKeepsKeyBinding : Obligations.FailedBeginKeepsKeyBinding := by
  intro i m s t hi hinv hp he hfail
  obtain ⟨e, rfl⟩ := eq_raise_of_exec_failed (by rcases hi with rfl | rfl | rfl <;> nofun) he hfail
  refine ⟨rfl, fun ctx hlen => ?_⟩
  have corrected (r : Role) : ∃ u, exec (r.begin m) (r.supply ctx (raise e s)) = .next u ∧ u.err = .ok ∧
      u.phase = .active ∧ u.key = s.key ∧ u.alg = s.alg := by
    obtain ⟨u, hu, hok, hfresh⟩ := exec_begin_fresh r m ctx (raise e s) (raise_keeps_inv e s hinv) hp hlen
    exact ⟨u, hu, hok, hfresh.active, hfresh.key, hfresh.alg⟩
  rcases hi with rfl | rfl | rfl
  · have hopens := (exec_beginenc_keyed m hp).symm.trans he
    exact absurd (congrArg State.err (Host.Outcome.next.inj hopens)).symm hfail
  · exact corrected .encx
  · exact corrected .dec

/-! ### Commands that fail (60_exceptions.md R170) -/

/-- A command that fails has raised an error, and has done nothing else unless it is a FINISH in an open session, which it closed first (60_exceptions.md R170). -/
theorem exec_failed_cases {i : Instr} {s t : State} (he : exec i s = .next t) (hfail : t.err ≠ .ok) :
    (∃ e, t = raise e s ∧ (i = .finish → s.phase ≠ .active)) ∨
      (i = .finish ∧ s.phase = .active ∧ ∃ e, t = raise e (closeSession s)) := by
  by_cases hf : i = .finish
  · subst hf
    rcases finishWith_cases Config.blackbox s with ⟨-, h⟩ | ⟨-, hp, h⟩ | ⟨-, hp, h⟩ <;> cases he.symm.trans h
    · exact .inl ⟨_, rfl, fun _ => hp⟩
    · refine .inr ⟨rfl, hp, ?_⟩
      cases hres : finishResult Config.blackbox s with
      | ok bytes =>
        rw [hres] at hfail
        exact absurd rfl hfail
      | error e => exact ⟨e, rfl⟩
  · obtain ⟨e, ht⟩ := eq_raise_of_exec_failed hf he hfail
    exact .inl ⟨e, ht, fun h => absurd h hf⟩

/-- Settles O37, over the two ways a command fails. -/
theorem failedCommandsChangeNothingElse : Obligations.FailedCommandsChangeNothingElse := by
  intro i s t he hfail
  obtain ⟨e, rfl, hne⟩ | ⟨hf, hp, e, rfl⟩ := exec_failed_cases he hfail
  · exact ⟨rfl, rfl, fun _ => rfl, fun hf hp => absurd hp (hne hf)⟩
  · exact ⟨rfl, rfl, fun h => h.elim (absurd hf) (absurd hp), fun _ _ => rfl⟩

/-! ### The order of the checks (60_exceptions.md R174, R176) -/

section
variable {i : Instr} {s t : State}

/-- First: BINDKEY with an id the table does not name is no command. -/
theorem exec_notWellFormed (hwf : i.wf s.params.algTable = false) : exec i s = .next (raise .illegalCommand s) := by
  cases i with
  | bindkey a => exact exec_bindkey_unknownAlg (Option.isNone_iff_eq_none.1 (Option.isSome_eq_false_iff.1 hwf))
  | _ => cases hwf

/-- Second: a command that is not allowed in its phase is a misuse. -/
theorem exec_notAllowed (hwf : i.wf s.params.algTable = true) (hna : allowedIn i s.phase = false)
    (he : exec i s = .next t) : t = raise .engineMisuse s := by
  refine Host.Outcome.next.inj (he.symm.trans ?_)
  cases i with
  | bindkey a =>
    obtain ⟨d, hd⟩ := Option.isSome_iff_exists.1 hwf
    exact exec_bindkey_active hd (by simpa [allowedIn] using hna)
  | beginenc m => exact exec_beginenc_notKeyed m (of_decide_eq_false hna)
  | beginencx m => exact beginWithContext_notKeyed m .enc (of_decide_eq_false hna)
  | begindec m => exact beginWithContext_notKeyed m .dec (of_decide_eq_false hna)
  | update =>
    rcases updateWith_cases Config.blackbox s with ⟨-, h⟩ | ⟨-, -, h⟩ | ⟨-, hp, -⟩ | ⟨-, hp, -⟩ | ⟨c, -, hp, -⟩
    · cases he.symm.trans h
    · exact h
    all_goals exact absurd hp (of_decide_eq_false hna)
  | finish =>
    rcases finishWith_cases Config.blackbox s with ⟨-, h⟩ | ⟨-, -, h⟩ | ⟨-, hp, -⟩
    · cases he.symm.trans h
    · exact h
    · exact absurd hp (of_decide_eq_false hna)
  | reset => cases hna

/-- A BEGIN with a supplied Context, in phase KEYED, ends with OK unless the Context has a wrong length. -/
theorem beginWithContext_err {m : Mode} {d : Dir} (hp : s.phase = .keyed) (he : beginWithContext m d s = .next t) :
    t.err = if s.ctxLen = s.blockSize then .ok else .invalidContextLength := by
  rcases beginWithContext_cases m d s with ⟨-, hl, h⟩ | ⟨-, hl, h⟩ | ⟨hne, -⟩
  · cases he.symm.trans h
    rw [if_pos hl]
    rfl
  · cases he.symm.trans h
    rw [if_neg hl]
    rfl
  · exact absurd hp hne

/-- Third: the command's length check. Behind it a command ends with OK, unless it is the FINISH of a Chained-Padded decryption. -/
theorem exec_allowed_err (hwf : i.wf s.params.algTable = true) (hal : allowedIn i s.phase = true)
    (he : exec i s = .next t) :
    t.err = (lengthError i s).getD .ok ∨
      (lengthError i s = none ∧ t.err = .badPadding ∧ i = .finish ∧ s.mode = .cp ∧ s.dir = .dec) := by
  cases i with
  | bindkey a =>
    obtain ⟨d, hd⟩ := Option.isSome_iff_exists.1 hwf
    have hp : s.phase ≠ .active := of_decide_eq_true hal
    by_cases hk : s.keyLen ∈ d.keyLens
    · cases (exec_bindkey_ok hd hp hk).symm.trans he
      exact .inl (by simp [lengthError, hd, hk])
    · cases (exec_bindkey_badKeyLen hd hp hk).symm.trans he
      exact .inl (by simp [lengthError, hd, hk])
  | beginenc m =>
    cases (exec_beginenc_keyed m (of_decide_eq_true hal)).symm.trans he
    exact .inl rfl
  | beginencx m =>
    refine .inl ((beginWithContext_err (of_decide_eq_true hal) he).trans ?_)
    rw [lengthError, apply_ite (Option.getD · Err.ok)]
    rfl
  | begindec m =>
    refine .inl ((beginWithContext_err (of_decide_eq_true hal) he).trans ?_)
    rw [lengthError, apply_ite (Option.getD · Err.ok)]
    rfl
  | update =>
    rcases updateWith_cases Config.blackbox s with
      ⟨-, h⟩ | ⟨-, hp, -⟩ | ⟨-, -, hc, h⟩ | ⟨-, -, -, -, h⟩ | ⟨c, -, -, hc, -, h⟩
    · cases he.symm.trans h
    · exact absurd (of_decide_eq_true hal) hp
    · cases he.symm.trans h
      exact .inl (by simp [lengthError, hc])
    · cases he.symm.trans h
    · cases he.symm.trans h
      exact .inl (by simp [lengthError, Nat.not_lt.2 hc])
  | finish =>
    rcases finishWith_cases Config.blackbox s with ⟨-, h⟩ | ⟨-, hp, -⟩ | ⟨-, -, h⟩
    · cases he.symm.trans h
    · exact absurd (of_decide_eq_true hal) hp
    · cases he.symm.trans h
      rcases finishResult_cases Config.blackbox s with ⟨hc, hres⟩ | ⟨hc, b, hres, -⟩ | ⟨hc, hm, hd, hres⟩ <;> rw [hres]
      · exact .inl (by simp [lengthError, hc, deliver])
      · exact .inl (by simp [lengthError, Nat.not_lt.2 hc, deliver])
      · exact .inr ⟨by simp [lengthError, Nat.not_lt.2 hc], rfl, rfl, hm, hd⟩
  | reset =>
    cases he
    exact .inl rfl

end

/-- Settles O36: the three checks in their order; an illegal word does not reach them. -/
theorem errorPriority : Obligations.ErrorPriority := by
  refine ⟨fun s t w hill he => ?_, fun i s t he => ⟨fun hwf => ?_, fun hwf hna => ?_, fun hwf hal => ?_⟩⟩
  · cases (runCommand_illegalWord hill).symm.trans he
    rfl
  · cases (exec_notWellFormed hwf).symm.trans he
    rfl
  · rw [exec_notAllowed hwf hna he]
    rfl
  · obtain herr | ⟨hnone, hbad⟩ := exec_allowed_err hwf hal he
    · rw [herr]
      exact ⟨fun e hlen => congrArg (Option.getD · Err.ok) hlen,
        fun hlen => .inl (congrArg (Option.getD · Err.ok) hlen)⟩
    · exact ⟨fun e hlen => (nomatch hnone.symm.trans hlen), fun _ => .inr hbad⟩

/-! ### The transition table (60_exceptions.md R176) -/

/-- With the host's obligations met every command has a next state. -/
theorem exec_completes (i : Instr) (s : State) (h : HostReady i s) : ∃ t, exec i s = .next t := by
  obtain ⟨hupdate, hfinish⟩ := h
  cases i with
  | bindkey a =>
    rcases execBindkey_cases a s with ⟨-, h⟩ | ⟨d, -, ⟨-, h⟩ | ⟨-, -, h⟩ | ⟨-, -, h⟩⟩ <;> exact ⟨_, h⟩
  | beginenc m => rcases execBeginenc_cases m s with ⟨-, h⟩ | ⟨-, h⟩ <;> exact ⟨_, h⟩
  | beginencx m => rcases beginWithContext_cases m .enc s with ⟨-, -, h⟩ | ⟨-, -, h⟩ | ⟨-, h⟩ <;> exact ⟨_, h⟩
  | begindec m => rcases beginWithContext_cases m .dec s with ⟨-, -, h⟩ | ⟨-, -, h⟩ | ⟨-, h⟩ <;> exact ⟨_, h⟩
  | update =>
    obtain ⟨ha, c, hin⟩ := hupdate rfl
    rcases updateWith_cases Config.blackbox s with
      ⟨hna, -⟩ | ⟨-, -, h⟩ | ⟨-, -, -, h⟩ | ⟨-, -, -, hnone, -⟩ | ⟨c, -, -, -, -, h⟩
    · cases hna.symm.trans ha
    · exact ⟨_, h⟩
    · exact ⟨_, h⟩
    · cases hnone.symm.trans hin
    · exact ⟨_, h⟩
  | finish =>
    rcases finishWith_cases Config.blackbox s with ⟨hna, -⟩ | ⟨-, -, h⟩ | ⟨-, -, h⟩
    · cases hna.symm.trans (hfinish rfl)
    · exact ⟨_, h⟩
    · exact ⟨_, h⟩
  | reset => exact ⟨_, rfl⟩

/-- A command that ends with OK has led to its target phase. -/
theorem exec_ok_phase {i : Instr} {s t : State} (he : exec i s = .next t) (hok : t.err = .ok) :
    t.phase = targetPhase i := by
  obtain ⟨e, rfl, hne, -⟩ | ⟨a, d, rfl, -, -, -, rfl⟩ | ⟨m, rfl, -, rfl⟩ | ⟨m, rfl, -, -, rfl⟩ | ⟨m, rfl, -, -, rfl⟩ |
    ⟨c, rfl, hp, -, -, -, rfl⟩ | ⟨rfl, -, -, rfl⟩ | ⟨rfl, rfl⟩ := exec_cases i s t he
  · -- an error raised
    exact absurd hok hne
  · -- BINDKEY
    rfl
  · -- BEGINENC
    rfl
  · -- BEGINENCX
    rfl
  · -- BEGINDEC
    rfl
  · -- UPDATE
    exact hp
  · -- FINISH
    obtain ⟨o, n, e, hd⟩ := deliver_eq_closeSession (finishResult Config.blackbox s) s
    rw [hd]
    rfl
  · -- RESET
    rfl

/-- A command that fails stays in its phase, but for FINISH where it is allowed, which leads to DONE all the same. -/
theorem exec_failed_phase {i : Instr} {s t : State} (hal : allowedIn i s.phase = true) (he : exec i s = .next t)
    (hfail : t.err ≠ .ok) : t.phase = if i = .finish then .done else s.phase := by
  obtain ⟨e, rfl, hne⟩ | ⟨rfl, -, e, rfl⟩ := exec_failed_cases he hfail
  · rw [if_neg]
    · rfl
    · rintro rfl
      exact hne rfl (of_decide_eq_true hal)
  · rfl

/-- No length check is a check of the phase. -/
theorem lengthError_ne_engineMisuse (i : Instr) (s : State) : (lengthError i s).getD .ok ≠ .engineMisuse := by
  cases i with
  | bindkey a =>
    rw [lengthError]
    split
    · split <;> nofun
    · nofun
  | beginenc m | reset => nofun
  | _ =>
    rw [lengthError]
    split <;> nofun

/-- Settles O35: an allowed command completes, and its result decides the phase it leads to. -/
theorem lifecycleTable : Obligations.LifecycleTable := by
  refine ⟨fun s w hill => runCommand_illegalWord hill, fun i s hwf hready => ?_⟩
  obtain ⟨t, he⟩ := exec_completes i s hready
  refine ⟨fun hna => ?_, fun hal => ⟨t, he, ?_, exec_ok_phase he, exec_failed_phase hal he⟩⟩
  · rw [he, exec_notAllowed hwf hna he]
    rfl
  · obtain herr | ⟨-, herr, -⟩ := exec_allowed_err hwf hal he
    · exact herr ▸ lengthError_ne_engineMisuse i s
    · rw [herr]
      nofun

/-! ### Steps (70_reset_and_hazards.md R204) -/

/-- Settles O46: only a command can stop, and not while the host keeps its obligations. -/
theorem everyStepCompletes : Obligations.EveryStepCompletes := by
  intro s chunk hw hplace hin
  have hready (rest : List HostOp) (i : Instr) : HostReady i { s with host := rest } := by
    refine ⟨fun _ => ⟨?_, chunk, hin⟩, fun _ => ?_⟩
    · rw [hplace]
      rfl
    · rw [hplace]
      rfl
  cases hh : s.host with
  | nil => exact ⟨s, step_wait s hw hh⟩
  | cons op rest =>
    rw [step_host s op rest hw hh]
    cases op with
    | write n v =>
      by_cases hn : n = 0x00
      · subst hn
        show ∃ t, runCommand v { s with host := rest } = .next t
        rw [runCommand]
        split
        · exact exec_completes _ _ (hready rest _)
        · exact ⟨_, rfl⟩
      · exact ⟨_, runHostOp_write _ n v hn⟩
    | _ => exact ⟨_, rfl⟩

end Sys2Proof.Machine
end

section
/-! Functions on byte strings and the sessions that compute them (40_engine.md R101, R102): the obligations O45, O48, O49, O53, O54, O55. -/

namespace Sys2Proof.Machine

/-! ### The counter (42_counter.md R126) -/

theorem be2int_ones (n : Nat) : be2int (List.replicate n 0xff) + 1 = 256 ^ n := by
  induction n with
  | zero => rfl
  | succ n ih =>
    have hbyte : (0xff : Byte).toNat = 255 := rfl
    rw [List.replicate_succ, be2int, List.length_replicate, hbyte, Nat.pow_succ]
    omega

theorem int2be_zero (n : Nat) : int2be 0 n = List.replicate n 0 := by
  induction n with
  | zero => rfl
  | succ n ih =>
    rw [int2be, ih, Nat.zero_div]
    rfl

/-- Settles O45: by the value of a block, which fixes its bytes. -/
theorem counterIncrementWraps : Obligations.CounterIncrementWraps := by
  refine ⟨fun c => ⟨incCounter_length c, ?_⟩, fun n => ?_, fun s t hlen hval => ?_⟩
  · rw [incCounter_eq, be2int_int2be]
  · rw [incCounter, be2int_ones, List.length_replicate, Nat.mod_self]
    exact int2be_zero n
  · rw [← int2be_be2int s, hlen, hval, int2be_be2int t]

/-! ### Errors in a Chained-Padded decryption (41_chained_padded.md R117, R118) -/

/-- What a block decrypts to against another chaining block is off by the difference of the two. -/
theorem xorBytes_difference (x c c' : Bytes) (h : c'.length ≤ c.length) :
    xorBytes x c' = xorBytes (xorBytes x c) (xorBytes c c') := by
  rw [xorBytes_assoc, xorBytes_cancel_left c c' h]

/-- Settles O54: `D` sees the same block, and only the block it is chained to differs. -/
theorem corruptionFlipsNextBlock : Obligations.CorruptionFlipsNextBlock := by
  intro D bs j c ct ct' hD hlen hlen' hblock
  have hle : (j + 1) * bs ≤ ct.length := (Nat.mul_le_mul_right _ (by omega)).trans hlen
  have hwidth : (blockAt bs ct' j).length ≤ (blockAt bs ct j).length := by
    rw [blockAt_length bs ct j hle, blockAt_length bs ct' j (hlen'.symm ▸ hle)]
  rw [plainBlock, plainBlock, hblock]
  exact xorBytes_difference _ _ _ hwidth

/-- Behind the first block the Context does not enter. -/
theorem plainBlock_context (D : Bytes → Bytes) (bs : Nat) (c c' ct : Bytes) {j : Nat} (hj : 1 ≤ j) :
    plainBlock D bs c' ct j = plainBlock D bs c ct j := by
  obtain ⟨i, rfl⟩ := Nat.exists_eq_add_of_le' hj
  rfl

/-- CPdec of two blocks or more: the first block, then what the Context does not enter. -/
theorem cpDecWhole_eq_append (D : Bytes → Bytes) (bs : Nat) (c c' ct : Bytes) (hb : 1 ≤ bs)
    (hlen : 2 * bs ≤ ct.length) :
    ∃ rest, cpDecWhole D bs c ct = plainBlock D bs c ct 0 ++ rest ∧
      cpDecWhole D bs c' ct = plainBlock D bs c' ct 0 ++ rest := by
  have hlast : 2 ≤ ct.length / bs := (Nat.le_div_iff_mul_le hb).2 hlen
  have hfront : 1 ≤ (ct.length - 1) / bs := (Nat.le_div_iff_mul_le hb).2 (by omega)
  obtain ⟨k, hk⟩ := Nat.exists_eq_add_of_le' hfront
  have hbehind : ∀ j ∈ List.range k, plainBlock D bs c' ct (j + 1) = plainBlock D bs c ct (j + 1) := fun j _ => rfl
  simp only [cpDecWhole, cpDecFront, hk, List.range_succ_eq_map, List.flatMap_cons, List.flatMap_map, List.append_assoc]
  rw [plainBlock_context D bs c c' ct (j := ct.length / bs - 1) (by omega), List.flatMap_congr hbehind]
  exact ⟨_, rfl, rfl⟩

/-- Settles O53: the verdict and all blocks but the first are the same, and the first is off by the difference. -/
theorem wrongContextDamagesFirstBlockOnly : Obligations.WrongContextDamagesFirstBlockOnly := by
  intro D bs c c' ct hD hb hc hc' hlen
  have hlast : 1 ≤ ct.length / bs - 1 := by
    have : 2 ≤ ct.length / bs := (Nat.le_div_iff_mul_le hb).2 hlen
    omega
  refine ⟨?_, fun _ => ?_⟩
  · rw [CpDecAccepts, CpDecAccepts, plainBlock_context D bs c c' ct hlast]
  · obtain ⟨rest, hwhole, hwhole'⟩ := cpDecWhole_eq_append D bs c c' ct hb hlen
    have hfirst : (plainBlock D bs c ct 0).length = bs := by
      rw [plainBlock, xorBytes_length, hD, blockAt_length bs ct 0 (by omega), prevBlock, hc, Nat.min_self]
    rw [hwhole, hwhole', List.take_left' hfirst, List.drop_left' hfirst, plainBlock, plainBlock]
    exact congrArg (· ++ rest) (xorBytes_difference _ c c' (by rw [hc, hc']))

/-! ### The Block Primitive (10_state.md R35) -/

/-- Settles O55: `E` is injective on the finite set of blocks, so it reaches every block. -/
theorem encryptUndoesDecrypt : Obligations.EncryptUndoesDecrypt := by
  intro E D bs hE _ hinv y hy
  have hmaps : Set.MapsTo E {x : Bytes | x.length = bs} {x : Bytes | x.length = bs} := fun x hx => (hE x).trans hx
  have hinj : Set.InjOn E {x : Bytes | x.length = bs} := Set.LeftInvOn.injOn hinv
  have hbij := ((List.finite_length_eq Byte bs).injOn_iff_bijOn_of_mapsTo hmaps).1 hinj
  obtain ⟨x, hx, rfl⟩ := hbij.surjOn hy
  rw [hinv x hx]

/-! ### Fresh sessions (40_engine.md R101, R102) -/

/-- Settles O48: the engine's session is the one with the external Block Primitive, and a fresh one computes the whole-message function of its mode and direction. -/
theorem sessionComputesWholeMessage : Obligations.SessionComputesWholeMessage := by
  intro s cs cap h h0 hc
  have hsession := session_eq cs cap s
  refine ⟨fun hm hd => ?_, fun hm hd hacc => ?_, fun hm hd hrej => ?_, fun hm => ?_⟩
  · have hctx : sessionContext s = some (ctxOut s) := if_pos hd
    rw [hsession, ← hctx]
    exact sessionOf_fresh_cpEnc _ blackbox_keepsLength s cs cap h hc h0 hm hd
  · have hctx : sessionContext s = none := if_neg (by rw [hd]; decide)
    rw [hsession, ← hctx]
    exact (sessionOf_fresh_cpDec _ blackbox_keepsLength s cs cap h hc h0 hm hd).1 hacc
  · have hctx : sessionContext s = none := if_neg (by rw [hd]; decide)
    rw [hsession, ← hctx]
    exact (sessionOf_fresh_cpDec _ blackbox_keepsLength s cs cap h hc h0 hm hd).2 hrej
  · exact hsession.trans (sessionOf_fresh_ctr _ blackbox_keepsLength s cs cap h hc h0 hm)

theorem prevBlock_length (bs : Nat) (c ct : Bytes) (j : Nat) (hc : c.length = bs) (hj : j * bs ≤ ct.length) :
    (prevBlock bs c ct j).length = bs := by
  cases j with
  | zero => exact hc
  | succ j => exact blockAt_length bs ct j hj

/-- What CPdec strips is 1 to `B` bytes of its last block. -/
theorem cpDecWhole_length (D : Bytes → Bytes) (bs : Nat) (c ct : Bytes) (hD : ∀ x, (D x).length = x.length)
    (hb : 0 < bs) (hc : c.length = bs) (hacc : CpDecAccepts D bs c ct) :
    ∃ p, 1 ≤ p ∧ p ≤ bs ∧ (cpDecWhole D bs c ct).length + p = ct.length := by
  obtain ⟨hne, hmod, h1, hbs, -⟩ := hacc
  have hindex := cpDec_last_index bs ct hb hne hmod
  have hlast := (cpDec_tail_length bs ct hb).2 ⟨hne, hmod⟩
  rw [List.length_drop] at hlast
  refine ⟨_, h1, hbs, ?_⟩
  have hplain : (plainBlock D bs c ct (ct.length / bs - 1)).length = bs := by
    rw [← hindex, plainBlock, xorBytes_length, hD, prevBlock_length bs c ct _ hc (by omega), blockAt,
      List.length_take, List.length_drop, hlast, Nat.min_self, Nat.min_self]
  rw [cpDecWhole, List.length_append, cpDecFront_length D bs c ct hD hc, List.length_take, hplain]
  omega

/-- Settles O49: a fresh session that ends with OK puts out a whole-message function of its message. -/
theorem outputLengthLaws : Obligations.OutputLengthLaws := by
  intro P s cs cap o ctx hP h h0 hc hrun
  obtain ⟨hb, -, hchain⟩ := h.block_facts
  have hE := hP.encryptBlock_length s
  have hD := hP.decryptBlock_length s
  refine ⟨fun hm hd => ?_, fun hm hd => ?_, fun hm => ?_⟩
  · cases hrun.symm.trans (sessionOf_fresh_cpEnc P hP s cs cap h hc h0 hm hd)
    have hlen := cpEncWhole_length _ _ _ hE hchain (messageOf cs) hb
    have hmod := Nat.mod_lt (messageOf cs).length hb
    have hdm := Nat.div_add_mod' (messageOf cs).length s.blockSize
    refine ⟨hlen, ?_⟩
    rw [hlen, Nat.succ_mul]
    omega
  · obtain ⟨haccepts, hrejects⟩ := sessionOf_fresh_cpDec P hP s cs cap h hc h0 hm hd
    by_cases hacc : CpDecAccepts (s.decryptBlock P) s.blockSize s.chainUsed (messageOf cs)
    · cases hrun.symm.trans (haccepts hacc)
      obtain ⟨p, hp1, hpb, hlen⟩ := cpDecWhole_length _ _ _ _ hD hb hchain hacc
      omega
    · cases hrun.symm.trans (hrejects hacc)
  · cases hrun.symm.trans (sessionOf_fresh_ctr P hP s cs cap h hc h0 hm)
    exact ctrWhole_length _ _ _ hE hb _

end Sys2Proof.Machine
end

section
/-! One-shot operations (44_oneshot.md): their checks in order, what they deliver, and the obligations O57, O58. -/

namespace Sys2Proof.Machine

/-! ### Steps 1 and 2 of R157, one equation for each outcome (44_oneshot.md R158) -/

section
variable {s : State} {r : Role} {a : AlgId} {d : AlgDesc} {key ctx msg : Bytes} {m : Mode} {cap : Nat} {t u : State}

theorem oneShot_bindkey_failed (hbind : exec (.bindkey a) (setKey key s) = .next t) (hfail : t.err ≠ .ok) :
    oneShot r a key m ctx msg cap s = oneShotFails s t t.err := by
  simp only [oneShot, oneShotWith, andThen, hbind, if_pos hfail]

theorem oneShot_begin_failed (hbind : exec (.bindkey a) (setKey key s) = .next t) (hok : t.err = .ok)
    (hbegin : exec (r.begin m) (r.supply ctx t) = .next u) (hfail : u.err ≠ .ok) :
    oneShot r a key m ctx msg cap s = oneShotFails s u u.err := by
  simp only [oneShot, oneShotWith, andThen, hbind, if_neg (not_not.2 hok), hbegin, if_pos hfail]

theorem oneShot_begin_ok (hbind : exec (.bindkey a) (setKey key s) = .next t) (hok : t.err = .ok)
    (hbegin : exec (r.begin m) (r.supply ctx t) = .next u) (hopen : u.err = .ok) :
    oneShot r a key m ctx msg cap s = oneShotData exec r m msg cap s u := by
  simp only [oneShot, oneShotWith, andThen, hbind, if_neg (not_not.2 hok), hbegin, if_neg (not_not.2 hopen)]

theorem oneShot_unknownAlg (hl : s.params.algTable.lookup a = none) :
    oneShot r a key m ctx msg cap s = oneShotFails s (raise .illegalCommand (setKey key s)) .illegalCommand :=
  oneShot_bindkey_failed (exec_bindkey_unknownAlg (s := setKey key s) hl) nofun

theorem oneShot_active (hl : s.params.algTable.lookup a = some d) (hp : s.phase = .active) :
    oneShot r a key m ctx msg cap s = oneShotFails s (raise .engineMisuse (setKey key s)) .engineMisuse :=
  oneShot_bindkey_failed (exec_bindkey_active (s := setKey key s) hl hp) nofun

theorem oneShot_badKeyLen (hl : s.params.algTable.lookup a = some d) (hp : s.phase ≠ .active)
    (hk : key.length % 2 ^ 32 ∉ d.keyLens) :
    oneShot r a key m ctx msg cap s = oneShotFails s (raise .invalidKeyLength (setKey key s)) .invalidKeyLength :=
  oneShot_bindkey_failed (exec_bindkey_badKeyLen (s := setKey key s) hl hp hk) nofun

/-- A BEGIN with a supplied Context of a wrong length, in phase KEYED. -/
theorem exec_begin_badCtxLen (r : Role) (m : Mode) (ctx : Bytes) (s : State) (hp : s.phase = .keyed) (hr : r ≠ .enc)
    (hc : ctx.length % 2 ^ 32 ≠ s.blockSize) :
    exec (r.begin m) (r.supply ctx s) = .next (raise .invalidContextLength (r.supply ctx s)) := by
  cases r with
  | enc => exact absurd rfl hr
  | encx => exact beginWithContext_badCtxLen m .enc (s := setCtx ctx s) hp hc
  | dec => exact beginWithContext_badCtxLen m .dec (s := setCtx ctx s) hp hc

/-- The BEGIN command of a one-shot operation opens a fresh session in phase KEYED, if the count of a supplied Context is one block. -/
theorem exec_begin_opens (r : Role) (m : Mode) (ctx : Bytes) (s : State) (hi : s.Inv) (hp : s.phase = .keyed)
    (hc : r ≠ .enc → ctx.length % 2 ^ 32 = s.blockSize) :
    ∃ c u, exec (r.begin m) (r.supply ctx s) = .next u ∧ u.err = .ok ∧
      FreshSession s.params s.alg s.key m r.dir c u := by
  have hlen : (ctxOperand (setCtx ctx s)).length = s.blockSize :=
    ctxOperand_length (setCtx ctx s) (setCtx_keeps_inv ctx s hi) (by rw [setCtx_phase, hp]; nofun)
  have hsupplied (d : Dir) : FreshSession s.params s.alg s.key m d _ _ :=
    openSession_fresh m d _ s.draws (setCtx ctx s) (setCtx_keeps_inv ctx s hi) hp hlen
  cases r with
  | enc => exact ⟨_, _, exec_beginenc_keyed m hp, rfl, openSession_fresh m .enc _ _ s hi hp (draw_length _ _)⟩
  | encx => exact ⟨_, _, beginWithContext_ok m .enc (s := setCtx ctx s) hp (hc nofun), rfl, hsupplied .enc⟩
  | dec => exact ⟨_, _, beginWithContext_ok m .dec (s := setCtx ctx s) hp (hc nofun), rfl, hsupplied .dec⟩

section
variable (hl : s.params.algTable.lookup a = some d) (hp : s.phase ≠ .active) (hk : key.length % 2 ^ 32 ∈ d.keyLens)
include hl hp hk

theorem oneShot_badCtxLen (hr : r ≠ .enc) (hc : ctx.length % 2 ^ 32 ≠ d.blockSize) :
    ∃ u, u.phase = .keyed ∧ oneShot r a key m ctx msg cap s = oneShotFails s u .invalidContextLength := by
  have hbs : (bindKey a (setKey key s)).blockSize = d.blockSize := State.blockSize_of_desc _ d hl
  refine ⟨_, ?_, oneShot_begin_failed (exec_bindkey_ok (s := setKey key s) hl hp hk) rfl
    (exec_begin_badCtxLen r m ctx _ rfl hr (hbs.symm ▸ hc)) nofun⟩
  cases r <;> rfl

/-- With good lengths a one-shot operation goes on from a fresh session. -/
theorem oneShot_opens (hi : s.Inv) (hc : r ≠ .enc → ctx.length % 2 ^ 32 = d.blockSize) :
    ∃ k c u, FreshSession s.params a k m r.dir c u ∧ u.blockSize = d.blockSize ∧
      oneShot r a key m ctx msg cap s = oneShotData exec r m msg cap s u := by
  have hbs : (bindKey a (setKey key s)).blockSize = d.blockSize := State.blockSize_of_desc _ d hl
  have hinv : (bindKey a (setKey key s)).Inv :=
    bindKey_keeps_inv a d (setKey key s) (setKey_keeps_inv key s hi) hl hk hp
  obtain ⟨c, u, hbegin, hopen, hf⟩ := exec_begin_opens r m ctx _ hinv rfl fun hr => (hc hr).trans hbs.symm
  exact ⟨_, c, u, hf, u.blockSize_of_desc d (by rw [State.desc, hf.params, hf.alg]; exact hl),
    oneShot_begin_ok (exec_bindkey_ok (s := setKey key s) hl hp hk) rfl hbegin hopen⟩

end

/-- A one-shot operation fails before any data, for a reason that is no misuse where no session was open, or its lengths are good and it goes on from a fresh session. -/
theorem oneShot_cases (hi : s.Inv) :
    (∃ u e, oneShot r a key m ctx msg cap s = oneShotFails s u e ∧ e ≠ .ok ∧ (s.phase ≠ .active → e ≠ .engineMisuse)) ∨
      (∃ d k c u, s.params.algTable.lookup a = some d ∧ FreshSession s.params a k m r.dir c u ∧
        u.blockSize = d.blockSize ∧ oneShot r a key m ctx msg cap s = oneShotData exec r m msg cap s u) := by
  cases hl : s.params.algTable.lookup a with
  | none => exact .inl ⟨_, _, oneShot_unknownAlg hl, nofun, nofun⟩
  | some d =>
    by_cases hp : s.phase = .active
    · exact .inl ⟨_, _, oneShot_active hl hp, nofun, absurd hp⟩
    by_cases hk : key.length % 2 ^ 32 ∈ d.keyLens
    · by_cases hc : r ≠ .enc → ctx.length % 2 ^ 32 = d.blockSize
      · obtain ⟨k, c, u, h⟩ := oneShot_opens hl hp hk hi hc
        exact .inr ⟨d, k, c, u, rfl, h⟩
      · obtain ⟨hr, hne⟩ := Classical.not_imp.1 hc
        obtain ⟨u, -, h⟩ := oneShot_badCtxLen hl hp hk hr hne
        exact .inl ⟨u, _, h, nofun, nofun⟩
    · exact .inl ⟨_, _, oneShot_badKeyLen hl hp hk, nofun, nofun⟩

end

/-! ### Steps 3 to 6 of R157 -/

/-- A session that is fed and finished ends with OK, or with BadPadding if it is a Chained-Padded decryption. -/
theorem session_err (s : State) (cs : List Chunk) (cap : Nat) (res : SessionResult) (h : SessionReady s cap)
    (hc : CapacitiesSuffice s cs) (hres : session cs cap s = some res) :
    res.err = .ok ∨ (res.err = .badPadding ∧ s.mode = .cp ∧ s.dir = .dec) := by
  rw [session_eq, sessionOf_spec _ blackbox_keepsLength cs cap s h hc] at hres
  split at hres
  · cases hres
    exact .inl rfl
  · next e hfinish =>
    cases hres
    obtain ⟨b, hb⟩ | ⟨hm, hd, -⟩ := finishMode_cases (s.encryptBlock Config.blackbox) (s.decryptBlock Config.blackbox)
      s.mode s.dir s.blockSize _ _
    · cases hb.symm.trans hfinish
    · exact .inr ⟨rfl, hm, hd⟩

/-- The output of a fresh session that ends with OK is no longer than the required capacity, which bounds it tightly unless it is a Chained-Padded decryption (44_oneshot.md R156). -/
theorem session_output_length (s : State) (cs : List Chunk) (cap : Nat) (o : Bytes) (ctx : Option Bytes)
    (h : SessionReady s cap) (h0 : s.occ = 0) (hc : CapacitiesSuffice s cs)
    (hres : session cs cap s = some { err := .ok, output := o, context := ctx }) :
    o.length ≤ needCap s.mode s.dir s.blockSize (messageOf cs).length ∧
      (s.mode = .ctr ∨ s.dir = .enc → o.length = needCap s.mode s.dir s.blockSize (messageOf cs).length) := by
  rw [session_eq] at hres
  obtain ⟨henc, hdec, hctr⟩ := outputLengthLaws _ s cs cap o ctx blackbox_keepsLength h h0 hc hres
  cases hm : s.mode with
  | cp =>
    cases hd : s.dir with
    | enc =>
      obtain ⟨hlen, -⟩ := henc hm hd
      exact ⟨hlen.le, fun _ => hlen⟩
    | dec =>
      obtain ⟨hlt, -⟩ := hdec hm hd
      exact ⟨hlt.le, by simp⟩
  | ctr =>
    have hlen := hctr hm
    cases s.dir <;> exact ⟨hlen.le, fun _ => hlen⟩

section
variable {p : Params} {a : AlgId} {k c msg : Bytes} {m : Mode} {r : Role} {cap : Nat} {caller t : State}

/-- Below the required capacity the operation resets the engine and delivers nothing. -/
theorem oneShotData_short (hneed : cap < needCap m r.dir t.blockSize msg.length) :
    oneShotData exec r m msg cap caller t = oneShotFails caller (resetRegisters t) .bufferTooSmall := by
  rw [oneShotData, if_pos hneed]
  rfl

/-- With the required capacity the operation, where it is not refused, hands over the result of a session that is fed its message. -/
theorem oneShotData_eq_next (hf : FreshSession p a k m r.dir c t) (hneed : needCap m r.dir t.blockSize msg.length ≤ cap)
    {x : OneShotResult} (hx : oneShotData exec r m msg cap caller t = .next x) :
    ∃ cs res, SessionReady (stage t) t.blockSize ∧ CapacitiesSuffice (stage t) cs ∧ messageOf cs = msg ∧
      session cs t.blockSize (stage t) = some res ∧ HandsOver caller.out t.blockSize res x := by
  have hfits : msg.length + t.blockSize < 2 ^ t.params.lenW := by
    by_contra hlong
    rw [oneShotData, if_neg (by omega), if_pos (by omega)] at hx
    cases hx
  obtain ⟨res, y, hsession, hoper, hover⟩ :=
    oneShotData_handsOver r m msg cap caller t hf.inv hf.active hf.dir hneed hfits
  cases hoper.symm.trans hx
  have hready : SessionReady (stage t) t.blockSize :=
    ⟨stage_keeps_inv t hf.inv, hf.active, rfl, le_rfl, (Nat.le_add_left _ _).trans_lt hfits⟩
  refine ⟨[⟨msg, msg.length + t.blockSize⟩], res, hready, ?_, List.append_nil msg, hsession, hover⟩
  rw [CapacitiesSuffice, List.forall_mem_singleton]
  exact ⟨le_rfl, hfits⟩

/-- With the required capacity the operation ends with OK, or with BadPadding if it is a Chained-Padded decryption, which delivers nothing. -/
theorem oneShotData_err (hf : FreshSession p a k m r.dir c t) (hneed : needCap m r.dir t.blockSize msg.length ≤ cap)
    {x : OneShotResult} (hx : oneShotData exec r m msg cap caller t = .next x) :
    x.err = .ok ∨ (x.err = .badPadding ∧ r = .dec ∧ m = .cp ∧ x.delivered = [] ∧ x.state.out = caller.out) := by
  obtain ⟨cs, res, hready, hsuffices, -, hsession, hover⟩ := oneShotData_eq_next hf hneed hx
  obtain hok | ⟨hbad, hm, hd⟩ := session_err _ _ _ res hready hsuffices hsession
  · exact .inl (hover.err.trans hok)
  · have hnone : x.delivered = [] := hover.delivered.trans (if_neg (by rw [hbad]; nofun))
    have hdir : r.dir = .dec := hf.dir.symm.trans hd
    refine .inr ⟨hover.err.trans hbad, ?_, hf.mode.symm.trans hm, hnone, ?_⟩
    · cases r with
      | dec => rfl
      | enc | encx => cases hdir
    · rw [hover.out, hnone]
      rfl

end

/-! ### The obligations -/

/-- A failed one-shot operation has delivered nothing, and it is no misuse where no session was open. -/
theorem oneShot_failed (s : State) (r : Role) (a : AlgId) (key ctx msg : Bytes) (m : Mode) (cap : Nat)
    (x : OneShotResult) (hi : s.Inv) (hp : s.phase ≠ .active) (hx : oneShot r a key m ctx msg cap s = .next x)
    (hfail : x.err ≠ .ok) : x.delivered = [] ∧ x.state.out = s.out ∧ x.err ≠ .engineMisuse := by
  obtain ⟨u, e, h, -, hne⟩ | ⟨d, k, c, u, -, hf, -, h⟩ := oneShot_cases hi <;> rw [h] at hx
  · cases hx
    exact ⟨rfl, rfl, hne hp⟩
  · by_cases hneed : cap < needCap m r.dir u.blockSize msg.length
    · cases (oneShotData_short hneed).symm.trans hx
      exact ⟨rfl, rfl, nofun⟩
    · obtain hok | ⟨hbad, -, -, hnone, hout⟩ := oneShotData_err hf (Nat.not_lt.1 hneed) hx
      · exact absurd hok hfail
      · exact ⟨hnone, hout, by rw [hbad]; nofun⟩

/-- Settles O57, check by check. -/
theorem oneShotErrorsInOrder : Obligations.OneShotErrorsInOrder := by
  intro s r a key ctx msg m cap hi hp hkey hctx
  rw [← Nat.mod_eq_of_lt hkey, ← Nat.mod_eq_of_lt hctx]
  refine ⟨fun x => oneShot_failed s r a key ctx msg m cap x hi hp, fun hl => ⟨_, oneShot_unknownAlg hl, rfl⟩,
    fun d hl => ⟨fun hk => ⟨_, oneShot_badKeyLen hl hp hk, rfl⟩, fun hk hr hc => ?_, fun hk hc hneed => ?_,
      fun x hk hc hneed hx => ?_⟩⟩
  · obtain ⟨u, hu, h⟩ := oneShot_badCtxLen hl hp hk hr hc
    exact ⟨_, h, rfl, hu⟩
  · obtain ⟨k, c, u, -, hbs, h⟩ := oneShot_opens hl hp hk hi hc
    exact ⟨_, h.trans (oneShotData_short (hbs.symm ▸ hneed)), rfl, rfl⟩
  · obtain ⟨k, c, u, hf, hbs, h⟩ := oneShot_opens hl hp hk hi hc
    obtain hok | ⟨hbad, hr, hm, -⟩ := oneShotData_err hf (hbs.symm ▸ hneed) (h.symm.trans hx)
    · exact .inl hok
    · exact .inr ⟨hbad, hr, hm⟩

/-- Settles O58: what is delivered is the output of a fresh session, and the capacity was checked before. -/
theorem oneShotFitsItsCapacity : Obligations.OneShotFitsItsCapacity := by
  intro s r a d key ctx msg m cap x hi hl hx hok
  obtain ⟨u, e, h, hne, -⟩ | ⟨d', k, c, u, hl', hf, hbs, h⟩ := oneShot_cases hi <;> rw [h] at hx
  · cases hx
    exact absurd hok hne
  · cases hl'.symm.trans hl
    by_cases hneed : cap < needCap m r.dir u.blockSize msg.length
    · cases (oneShotData_short hneed).symm.trans hx
      cases hok
    · obtain ⟨cs, ⟨e, o, octx⟩, hready, hsuffices, rfl, hsession, hover⟩ :=
        oneShotData_eq_next hf (Nat.not_lt.1 hneed) hx
      obtain rfl : e = .ok := hover.err.symm.trans hok
      obtain ⟨-, -, hdelivered⟩ := hover.of_ok
      obtain ⟨hle, heq⟩ := session_output_length _ _ _ _ _ hready hf.occ hsuffices hsession
      rw [stage_mode, hf.mode, stage_dir, hf.dir] at hle heq
      rw [hdelivered, ← hbs]
      refine ⟨hle, Nat.not_lt.1 hneed, fun htight => heq (htight.imp_right fun hr => ?_)⟩
      cases r with
      | dec => exact absurd rfl hr
      | enc | encx => rfl

end Sys2Proof.Machine
end
